-- ==== Sys2Proof/Word.lean ====
section
/-! DEFINITION. Bytes, port words, and the value records of the message layer (00_scope.md R11, R12;
10_state.md R35; 43_message_schema.md R162, R163). -/

namespace Sys2Proof

/-- A byte, bit `i` of weight `2^i` (R11). -/
abbrev Byte := BitVec 8

/-- A word of the register space and of the host port (R25, R61). -/
abbrev Half := BitVec 16

/-- A LedEntry as its caller gives it (R162). The ranges are checked, not built in: a field outside
its range is the ValueOutOfRange of R168. -/
structure LedEntry where
  enc : Nat
  led : Nat
  r : Nat
  g : Nat
  b : Nat
deriving DecidableEq, Repr

/-- A LedRingEntry as its caller gives it (R163, R169). -/
structure LedRingEntry where
  enc : Nat
  r : Nat
  g : Nat
  b : Nat
  ringAmount : Nat
  bipolar : Bool
deriving DecidableEq, Repr

end Sys2Proof
end

