-- ==== Sys2Proof/Config.lean ====
section
/-! DEFINITION. What an implementation fixes (00_scope.md R10) and the free values
(93_implementation_defined.md, "any value"). -/

namespace Sys2Proof

/-- The open parameter ENC_RESOLVE: which reading of an encoder value a consumer takes (R10, R146). -/
inductive EncResolve where
  | cw
  | ccw
  | both
deriving DecidableEq, Repr

/-- The two parameters that are plain values. They are constants of the machine, carried in State so
that a claim about every state is a claim about every value of them. The defaults are R10's. -/
structure Params where
  /-- BUF_CAP, the capacity of IBUF and of OBUF. -/
  bufCap : Nat := 2048
  /-- ENC_RESOLVE. -/
  encResolve : EncResolve := .both
deriving DecidableEq, Repr

/-- R10's constraint on BUF_CAP. -/
abbrev Params.legal (p : Params) : Prop := 1180 ≤ p.bufCap ∧ p.bufCap ≤ 65535

/-- DESIGN CHOICE (log 7). The free values: the `n`-th draw. Nothing is known of it. -/
opaque Config.anyWord : Nat → Half

/-- DESIGN CHOICE (log 5). The parameter T_OP (R10, R229), less the edge of the commit itself: the
number of clock edges a transaction with this OP and this ILEN lets pass before the edge at which it
commits. Finite, and nothing more is known of it. -/
opaque Config.waitEdges : BitVec 2 → Half → Nat

end Sys2Proof
end

