-- ==== Sys2Proof/Machine/BitPacker.lean ====
section
/-! DEFINITION. The BitPacker's pure functions (40_bitpacker.md R100 to R112). -/

namespace Sys2Proof.Machine

/-- The top-bits byte of a group whose first byte stands at position `i`: bit `i + j` is bit 7 of the
`j`-th byte (R72, R80). -/
def topBitsFrom : Nat → List Byte → Byte
  | _, [] => 0
  | i, r :: rs => ((r >>> 7) <<< i) ||| topBitsFrom (i + 1) rs

/-- One group: the top-bits byte, then each byte with its high bit cleared (R72). -/
def packGroup (raw : List Byte) : List Byte :=
  topBitsFrom 0 raw :: raw.map (· &&& 0x7F#8)

/-- `pack` with a bound on the number of groups. -/
def packGroups : Nat → List Byte → List Byte
  | _, [] => []
  | 0, _ :: _ => []
  | fuel + 1, r :: rs =>
    packGroup ((r :: rs).take 7) ++ packGroups fuel ((r :: rs).drop 7)

/-- `pack(raw)` (R100). A sequence of `n` bytes has at most `n` groups. -/
def pack (raw : List Byte) : List Byte := packGroups raw.length raw

/-- `packed_len(n)` (R102). -/
def packedLen (n : Nat) : Nat := n + (n + 6) / 7

/-- The data bytes of a group restored from position `i` on (R80, R104). -/
def restoreFrom (top : Byte) : Nat → List Byte → List Byte
  | _, [] => []
  | i, d :: ds => ((d &&& 0x7F#8) ||| (((top >>> i) &&& 1#8) <<< 7)) :: restoreFrom top (i + 1) ds

/-- `unpack` with a bound on the number of groups. -/
def unpackGroups : Nat → List Byte → List Byte
  | _, [] => []
  | 0, _ :: _ => []
  | fuel + 1, top :: ds =>
    restoreFrom top 0 (ds.take 7) ++ unpackGroups fuel (ds.drop 7)

/-- `unpack(p)` (R104), for bytes below 0x80. -/
def unpack (p : List Byte) : List Byte := unpackGroups p.length p

/-- `raw_len(m)` (R106). -/
def rawLen (m : Nat) : Nat := if m % 8 = 0 then 7 * (m / 8) else 7 * (m / 8) + m % 8 - 1

/-- The lowest index of a byte at or above 0x80 (R107). -/
def highByte? (p : List Byte) : Option Nat := p.findIdx? (fun b => decide (0x80#8 ≤ b))

end Sys2Proof.Machine
end

