-- ==== Sys2Proof/Machine/Codes.lean ====
section
/-! DEFINITION. The result codes (30_encoding.md R82, R85) and the record of a failure. -/

namespace Sys2Proof.Machine

/-- The outcome kinds of R82. Codes 8 to 15 are never produced and have no constructor. -/
inductive Status where
  | ok
  | headerMismatch
  | categoryMismatch
  /-- Reserved for the layer above CORE (R191). -/
  | invalidPayloadLength
  /-- Reserved for the layer above CORE (R191). -/
  | valueOutOfRange
  /-- Reserved for the layer above CORE (R191). -/
  | unknownMessage
  | packedByteOutOfRange
  | bufferOverflow
deriving DecidableEq, Repr

/-- R82's numbers. -/
def Status.code : Status → BitVec 4
  | .ok => 0
  | .headerMismatch => 1
  | .categoryMismatch => 2
  | .invalidPayloadLength => 3
  | .valueOutOfRange => 4
  | .unknownMessage => 5
  | .packedByteOutOfRange => 6
  | .bufferOverflow => 7

/-- A failed operation: its kind and the `info` that ERRINFO carries (R83, R194). -/
structure Failure where
  kind : Status
  info : Nat
deriving DecidableEq, Repr

/-- `ev_kind` (R85). -/
inductive EvKind where
  | pass
  | encTurn
  | button
  | encUndef
deriving DecidableEq, Repr

/-- R85's numbers. -/
def EvKind.code : EvKind → BitVec 2
  | .pass => 0
  | .encTurn => 1
  | .button => 2
  | .encUndef => 3

/-- The kind a code stands for: all four codes are used (R85). -/
def EvKind.ofCode (c : BitVec 2) : EvKind :=
  if c = 0 then .pass else if c = 1 then .encTurn else if c = 2 then .button else .encUndef

end Sys2Proof.Machine
end

