-- ==== Sys2Proof/Machine/FrameCodec.lean ====
section
/-! DEFINITION. The FrameCodec's pure functions (30_encoding.md R74, R75; 41_framecodec.md R120 to
R130). -/

namespace Sys2Proof.Machine

/-- HDR (R74). -/
def hdr : List Byte := [0xF0, 0x00, 0x21, 0x5B, 0x02, 0x01]

/-- CAT (R74). -/
def cat : Byte := 0x06

/-- TERM (R74). -/
def term : Byte := 0xF7

/-- A frame around an already packed payload (R75). -/
def wire (id : Byte) (packed : List Byte) : List Byte := hdr ++ [cat, id] ++ packed ++ [term]

/-- `frame(id, raw)` (R120). -/
def frame (id : Byte) (raw : List Byte) : List Byte := wire id (pack raw)

/-- The lowest index, counted from `k`, at which the second sequence is not the first (the first is
the constant). -/
def mismatchFrom : Nat → List Byte → List Byte → Option Nat
  | _, [], _ => none
  | k, _ :: _, [] => some k
  | k, c :: cs, w :: ws => if w = c then mismatchFrom (k + 1) cs ws else some k

/-- The packed payload region of a frame: offsets 8 to `L - 2` (R76, R131). -/
def payloadOf (w : List Byte) : List Byte := (w.drop 8).dropLast

/-- `parse(w)`: R125's checks in R125's order. -/
def parse (w : List Byte) : Except Failure (Byte × List Byte) :=
  if w.length < 9 then .error ⟨.headerMismatch, w.length⟩
  else match mismatchFrom 0 hdr w with
    | some k => .error ⟨.headerMismatch, k⟩
    | none =>
      if w.getD (w.length - 1) 0 ≠ term then .error ⟨.headerMismatch, w.length - 1⟩
      else if w.getD 6 0 ≠ cat then .error ⟨.categoryMismatch, 6⟩
      else match highByte? (payloadOf w) with
        | some k => .error ⟨.packedByteOutOfRange, 8 + k⟩
        | none => .ok (w.getD 7 0, unpack (payloadOf w))

end Sys2Proof.Machine
end

