-- ==== Sys2Proof/Machine/Schema.lean ====
section
/-! DEFINITION. The MessageSchema/Dispatcher layer above CORE (43_message_schema.md R160 to R179;
60_exceptions.md R197 to R200). -/

namespace Sys2Proof.Machine

/-- A structured message: the closed set of R160. -/
inductive Message where
  | enter
  | ackEntered
  | exit
  | led (entries : List LedEntry)
  | ledRing (entries : List LedRingEntry)
  | oledFramebuffer (fb : List Byte)
  | oledLabels (title : List Byte) (labels : List (List Byte))
deriving DecidableEq, Repr

/-- The fields a ValueOutOfRange can name (R168, R169, R175, R176). -/
inductive Field where
  | enc
  | led
  | r
  | g
  | b
  | ringAmount
  | msb
  | lsb
  | bipolar
deriving DecidableEq, Repr

/-- What the layer returns when it fails (R161, R178, R197 to R199). -/
inductive LayerError where
  /-- A failure of CORE, returned as it is (R178). -/
  | core (f : Failure)
  | invalidPayloadLength (n : Nat)
  | valueOutOfRange (entry : Nat) (field : Field)
  | unknownMessage (id : Byte)
deriving DecidableEq, Repr

/-- The first field, in list order, whose value is above its bound. -/
def firstAbove : List (Field × Nat × Nat) → Option Field
  | [] => none
  | (f, v, bound) :: rest => if bound < v then some f else firstAbove rest

/-- R162's ranges, in R168's order. -/
def ledEntryFault (e : LedEntry) : Option Field :=
  firstAbove [(.enc, e.enc, 15), (.led, e.led, 15), (.r, e.r, 127), (.g, e.g, 127), (.b, e.b, 127)]

/-- R163's ranges, in R169's order (`bipolar` is a boolean and cannot be out of range). -/
def ledRingEntryFault (e : LedRingEntry) : Option Field :=
  firstAbove [(.enc, e.enc, 15), (.r, e.r, 127), (.g, e.g, 127), (.b, e.b, 127),
    (.ringAmount, e.ringAmount, 16383)]

/-- The first entry, counted from `k`, with a field out of range, and that field (R168, R171). -/
def firstFault {α : Type} (check : α → Option Field) : Nat → List α → Option (Nat × Field)
  | _, [] => none
  | k, e :: es => match check e with
    | some f => some (k, f)
    | none => firstFault check (k + 1) es

/-- The 5 raw bytes of a LedEntry (R162). -/
def ledBytes (e : LedEntry) : List Byte :=
  [BitVec.ofNat 8 e.enc, BitVec.ofNat 8 e.led, BitVec.ofNat 8 e.r, BitVec.ofNat 8 e.g,
    BitVec.ofNat 8 e.b]

/-- The 7 raw bytes of a LedRingEntry (R163, R166, R169). -/
def ledRingBytes (e : LedRingEntry) : List Byte :=
  [BitVec.ofNat 8 e.enc, BitVec.ofNat 8 e.r, BitVec.ofNat 8 e.g, BitVec.ofNat 8 e.b,
    BitVec.ofNat 8 (e.ringAmount >>> 7), BitVec.ofNat 8 (e.ringAmount &&& 0x7F),
    if e.bipolar then 1 else 0]

/-- `flatten5` of R88. -/
def flattenLed (es : List LedEntry) : List Byte := (es.map ledBytes).flatten

/-- `flatten7` of R88. -/
def flattenLedRing (es : List LedRingEntry) : List Byte := (es.map ledRingBytes).flatten

/-- OledLabels: the title, then the labels (R164). -/
def flattenLabels (title : List Byte) (labels : List (List Byte)) : List Byte :=
  title ++ labels.flatten

/-- R170's shape of an OledLabels record. -/
def labelsShape (title : List Byte) (labels : List (List Byte)) : Bool :=
  title.length == 16 && labels.length == 16 && labels.all (fun l => l.length == 4)

/-- Validation and flattening (R167 to R170, R173): the message id and the whole raw payload, or the
first error. DEDUCED (log 18): the length an encode-time InvalidPayloadLength carries is that of the
flattened payload. -/
def encodeMsg : Message → Except LayerError (Byte × List Byte)
  | .enter => .ok (0x55, [])
  | .ackEntered => .ok (0x53, [])
  | .exit => .ok (0x00, [])
  | .led es => match firstFault ledEntryFault 0 es with
    | some (e, f) => .error (.valueOutOfRange e f)
    | none => .ok (0x01, flattenLed es)
  | .ledRing es => match firstFault ledRingEntryFault 0 es with
    | some (e, f) => .error (.valueOutOfRange e f)
    | none => .ok (0x04, flattenLedRing es)
  | .oledFramebuffer fb =>
    if fb.length = 1024 then .ok (0x02, fb) else .error (.invalidPayloadLength fb.length)
  | .oledLabels title labels =>
    if labelsShape title labels then .ok (0x03, flattenLabels title labels)
    else .error (.invalidPayloadLength (flattenLabels title labels).length)

/-- R175: the entry, or the first field out of range in layout order. -/
def decodeLedEntry (k : Nat) (enc led r g b : Byte) : Except LayerError LedEntry :=
  let e : LedEntry := ⟨enc.toNat, led.toNat, r.toNat, g.toNat, b.toNat⟩
  match ledEntryFault e with
  | some f => .error (.valueOutOfRange k f)
  | none => .ok e

/-- R176: the entry, or the first field out of range in layout order. -/
def decodeLedRingEntry (k : Nat) (enc r g b msb lsb bip : Byte) : Except LayerError LedRingEntry :=
  match firstAbove [(.enc, enc.toNat, 15), (.r, r.toNat, 127), (.g, g.toNat, 127),
      (.b, b.toNat, 127), (.msb, msb.toNat, 127), (.lsb, lsb.toNat, 127),
      (.bipolar, bip.toNat, 1)] with
  | some f => .error (.valueOutOfRange k f)
  | none => .ok ⟨enc.toNat, r.toNat, g.toNat, b.toNat, (msb.toNat <<< 7) ||| lsb.toNat, bip == 1⟩

/-- The 5-byte chunks of a Led payload, from entry `k` on (R174). -/
def decodeLeds : Nat → List Byte → Except LayerError (List LedEntry)
  | k, enc :: led :: r :: g :: b :: rest => match decodeLedEntry k enc led r g b with
    | .error e => .error e
    | .ok x => match decodeLeds (k + 1) rest with
      | .error e => .error e
      | .ok xs => .ok (x :: xs)
  | _, _ => .ok []

/-- The 7-byte chunks of a LedRing payload, from entry `k` on (R174). -/
def decodeLedRings : Nat → List Byte → Except LayerError (List LedRingEntry)
  | k, enc :: r :: g :: b :: msb :: lsb :: bip :: rest =>
    match decodeLedRingEntry k enc r g b msb lsb bip with
    | .error e => .error e
    | .ok x => match decodeLedRings (k + 1) rest with
      | .error e => .error e
      | .ok xs => .ok (x :: xs)
  | _, _ => .ok []

/-- `n` labels of 4 bytes each (R164, R174). -/
def splitLabels : Nat → List Byte → List (List Byte)
  | 0, _ => []
  | n + 1, raw => raw.take 4 :: splitLabels n (raw.drop 4)

/-- `decode(id, raw)` (R174, R177): the id first, then the length, then the field values. -/
def decodeMsg (id : Byte) (raw : List Byte) : Except LayerError Message :=
  let n := raw.length
  if id = 0x55 then (if n ≠ 0 then .error (.invalidPayloadLength n) else .ok .enter)
  else if id = 0x53 then (if n ≠ 0 then .error (.invalidPayloadLength n) else .ok .ackEntered)
  else if id = 0x00 then (if n ≠ 0 then .error (.invalidPayloadLength n) else .ok .exit)
  else if id = 0x01 then
    (if n % 5 ≠ 0 then .error (.invalidPayloadLength n)
     else match decodeLeds 0 raw with
       | .error e => .error e
       | .ok es => .ok (.led es))
  else if id = 0x04 then
    (if n % 7 ≠ 0 then .error (.invalidPayloadLength n)
     else match decodeLedRings 0 raw with
       | .error e => .error e
       | .ok es => .ok (.ledRing es))
  else if id = 0x02 then
    (if n ≠ 1024 then .error (.invalidPayloadLength n) else .ok (.oledFramebuffer raw))
  else if id = 0x03 then
    (if n ≠ 80 then .error (.invalidPayloadLength n)
     else .ok (.oledLabels (raw.take 16) (splitLabels 16 (raw.drop 16))))
  else .error (.unknownMessage id)

/-- DISPATCH as a pure function (R178): `parse`, then `decode` on its result. -/
def dispatch (w : List Byte) : Except LayerError Message :=
  match parse w with
  | .error f => .error (.core f)
  | .ok (id, raw) => decodeMsg id raw

/-- What the layer last returned to its caller (the model's own, log 13). -/
inductive LayerResult where
  /-- Nothing yet. -/
  | idle
  /-- The encode succeeded: the frame is `OBUF[0..OLEN)`. -/
  | built
  /-- DISPATCH succeeded. -/
  | message (m : Message)
  /-- The encode or the DISPATCH failed. -/
  | failed (e : LayerError)
deriving DecidableEq, Repr

end Sys2Proof.Machine
end

