-- ==== Sys2Proof/Machine/Ports.lean ====
section
/-! DEFINITION. What passes the boundary of CORE: the host port's signals (20_memory.md R61), the
DED's ports (10_state.md R33), the encoded forms of 30_encoding.md R70, and what a host does. -/

namespace Sys2Proof.Machine

/-- The inputs of one rising edge of `clk` (R61, R220). -/
structure BusCycle where
  rst : Bool := false
  /-- `bus_sel`: 0 REG, 1 IBUF, 2 OBUF, 3 no access. -/
  sel : BitVec 2 := 3
  addr : Half := 0
  we : Bool := false
  re : Bool := false
  wdata : Half := 0
deriving DecidableEq, Repr

/-- An edge with no access. -/
def BusCycle.idle : BusCycle := {}

/-- The DED's four inputs (R33). -/
structure ChMsg where
  valid : Bool
  status : Byte
  d1 : Byte
  d2 : Byte
deriving DecidableEq, Repr

/-- The DED's eight outputs (R33). -/
structure EvOut where
  valid : Bool
  kind : EvKind
  index : BitVec 5
  pressed : Bool
  delta : Byte
  deltaAlt : Byte
  ambig : Bool
  raw : BitVec 7
deriving DecidableEq, Repr

/-- How many free values `EvOut.any` takes. -/
def EvOut.anyDraws : Nat := 7

/-- The outputs while `cm_valid = 0`: `ev_valid` is 0 and every other output is unspecified (R33). -/
def EvOut.any (n : Nat) : EvOut where
  valid := false
  kind := EvKind.ofCode ((Config.anyWord n).setWidth 2)
  index := (Config.anyWord (n + 1)).setWidth 5
  pressed := (Config.anyWord (n + 2)).getLsbD 0
  delta := (Config.anyWord (n + 3)).setWidth 8
  deltaAlt := (Config.anyWord (n + 4)).setWidth 8
  ambig := (Config.anyWord (n + 5)).getLsbD 0
  raw := (Config.anyWord (n + 6)).setWidth 7

/-- An encoded instruction, by where the hardware finds it (R70). -/
inductive Pattern where
  /-- OP bits [1:0] (R71). -/
  | cmd (op : BitVec 2)
  /-- The bytes of one group (R72). -/
  | group (w : List Byte)
  /-- A whole wire buffer (R75). -/
  | frame (w : List Byte)
  /-- `cm_status`, `cm_d1`, `cm_d2` (R78). -/
  | chmsg (st d1 d2 : Byte)
deriving DecidableEq, Repr

/-- Why bytes are no row of the opcode table. -/
inductive Reject where
  /-- Not a frame, and how FC.PARSE would report it (R81 (c)). -/
  | notAFrame (f : Failure)
  /-- Not 2 to 8 bytes (R72). -/
  | groupLength
  /-- A byte of the group is at or above 0x80 (R81 (b)). -/
  | groupHighByte
  /-- A top-bits bit of a byte the group does not have is set (R72: 0 on encode). -/
  | groupStrayBits
deriving DecidableEq, Repr

/-- What the host does next (10_state.md R20 (c)). -/
inductive HostAction where
  /-- One clock edge with these values on the host port (R61). -/
  | cycle (c : BusCycle)
  /-- The DED's inputs take these values; `valid` is `cm_valid` (R33, R87 DED.DEC). -/
  | drive (valid : Bool) (st d1 d2 : Byte)
  /-- These bytes as a group (R72): the GROUP row, or what R81 (b) says of them. -/
  | groupRow (w : List Byte)
  /-- These bytes as a frame (R75, R88): the row that has it, or what R81 (c) says of them. -/
  | frameRow (w : List Byte)
  /-- A line of R87: `op` selects BP.ENC, BP.DEC, FC.BUILD (with `id`) or FC.PARSE. -/
  | line (op : BitVec 2) (id : Byte) (bytes : List Byte)
  /-- COPY (R87, R227). -/
  | copy
  /-- DISPATCH of a wire buffer (R88, R178). -/
  | dispatch (w : List Byte)
deriving DecidableEq, Repr

end Sys2Proof.Machine
end

