-- ==== Sys2Proof/Syntax.lean ====
section
/-! DEFINITION. The instructions: one constructor for each row of spec/opcode_table.json. -/

namespace Sys2Proof

/-- The rows of the opcode table. Rows of format CMD have no operand of their own: the operands of a
transaction are the registers and IBUF (30_encoding.md R71). Fields of the message rows are as the
caller gives them, before validation (43_message_schema.md). -/
inductive Instr where
  /-- BP.ENC (R108). -/
  | bpEnc
  /-- BP.DEC (R109). -/
  | bpDec
  /-- FC.BUILD (R124). -/
  | fcBuild
  /-- FC.PARSE (R128). -/
  | fcParse
  /-- FRAME (R75, R128): a wire frame with this message id and these packed payload bytes. -/
  | frame (id : Byte) (packed : List Byte)
  /-- ENTER (R167). -/
  | enter
  /-- ACK_ENTERED (R167). -/
  | ackEntered
  /-- EXIT (R167). -/
  | exit
  /-- LED (R168). -/
  | led (entries : List LedEntry)
  /-- LEDRING (R169). -/
  | ledRing (entries : List LedRingEntry)
  /-- OLEDFB (R170). -/
  | oledFb (fb : List Byte)
  /-- OLEDLABELS (R170). -/
  | oledLabels (title : List Byte) (labels : List (List Byte))
  /-- GROUP (R72, R100): the group that carries these raw bytes. -/
  | group (raw : List Byte)
  /-- ENC.TURN (R79, R144): controller and value. -/
  | encTurn (ctrl val : BitVec 7)
  /-- ENC.UNDEF (R79, R147). -/
  | encUndef (ctrl val : BitVec 7)
  /-- BTN.PRESS (R79, R142): note and velocity. -/
  | btnPress (note vel : BitVec 7)
  /-- BTN.REL0 (R79, R142): a Note On with velocity 0. -/
  | btnRel0 (note : BitVec 7)
  /-- BTN.REL (R79, R142): a Note Off. -/
  | btnRel (note vel : BitVec 7)
  /-- PASS (R143): every other channel message. -/
  | pass (st d1 d2 : Byte)
deriving DecidableEq, Repr

end Sys2Proof
end

