-- ==== Sys2Proof/WellFormed.lean ====
section
/-! DEFINITION. Which terms of Instr are rows of the opcode table: the range conditions of
30_encoding.md R72, R75, R79 and of 43_message_schema.md R160 to R165. -/

namespace Sys2Proof

open Sys2Proof.Machine

/-- The payload is the canonical packing of a message of the schema with this id: one of the seven
message rows has this frame. -/
def isMessageFrame (id : Byte) (packed : List Byte) : Bool :=
  pack (unpack packed) == packed &&
    (match decodeMsg id (unpack packed) with
      | .ok _ => true
      | .error _ => false)

/-- The channel messages of R79's first five rows. -/
def isEventMessage (st d1 d2 : Byte) : Bool :=
  !d1.msb && !d2.msb &&
    ((st == 0xB0 && decide (1#8 ≤ d1) && decide (d1 ≤ 16#8)) ||
      ((st == 0x90 || st == 0x80) && decide (d1 ≤ 16#8)))

/-- The checks on each row's operands. -/
def Instr.wellFormed : Instr → Bool
  | .bpEnc => true
  | .bpDec => true
  | .fcBuild => true
  | .fcParse => true
  | .frame id p => p.all (fun b => decide (b < 0x80#8)) && !isMessageFrame id p
  | .enter => true
  | .ackEntered => true
  | .exit => true
  | .led es => (firstFault ledEntryFault 0 es).isNone
  | .ledRing es => (firstFault ledRingEntryFault 0 es).isNone
  | .oledFb fb => fb.length == 1024
  | .oledLabels title labels => labelsShape title labels
  | .group raw => decide (1 ≤ raw.length) && decide (raw.length ≤ 7)
  | .encTurn c v => decide (1#7 ≤ c) && decide (c ≤ 16#7) && decide (1#7 ≤ v) && decide (v ≤ 15#7)
  | .encUndef c v =>
    decide (1#7 ≤ c) && decide (c ≤ 16#7) && (v == 0 || decide (16#7 ≤ v))
  | .btnPress n v => decide (n ≤ 16#7) && decide (1#7 ≤ v)
  | .btnRel0 n => decide (n ≤ 16#7)
  | .btnRel n _ => decide (n ≤ 16#7)
  | .pass st d1 d2 => !isEventMessage st d1 d2

end Sys2Proof
end

