-- ==== Sys2Proof/Decode.lean ====
section
/-! DEFINITION. The decoder, total on any bytes and rejecting by name, and the encoder
(30_encoding.md R70 to R81, opcode_table.json). -/

namespace Sys2Proof

open Sys2Proof.Machine

/-- The instruction of OP[1:0]: all four codes are operations (R71, R81 (a)). -/
def decodeCmd (op : BitVec 2) : Instr :=
  if op = 0 then .bpEnc else if op = 1 then .bpDec else if op = 2 then .fcBuild else .fcParse

/-- GROUP (R72): 2 to 8 bytes, each below 0x80, unused top-bits positions 0. -/
def decodeGroup : List Byte → Except Reject Instr
  | [] => .error .groupLength
  | top :: ds =>
    if ds.length = 0 ∨ 7 < ds.length then .error .groupLength
    else if (highByte? (top :: ds)).isSome then .error .groupHighByte
    else if packGroup (restoreFrom top 0 ds) ≠ top :: ds then .error .groupStrayBits
    else .ok (.group (restoreFrom top 0 ds))

/-- The row of a message (R77, R160). -/
def rowOfMessage : Message → Instr
  | .enter => .enter
  | .ackEntered => .ackEntered
  | .exit => .exit
  | .led es => .led es
  | .ledRing es => .ledRing es
  | .oledFramebuffer fb => .oledFb fb
  | .oledLabels title labels => .oledLabels title labels

/-- The row a frame with this id and payload matches: a message row where the payload is the packing
of that message's raw payload, else FRAME (opcode_table.json, FRAME's note; log 12). -/
def rowOfFrame (id : Byte) (packed : List Byte) : Instr :=
  if pack (unpack packed) = packed then
    match decodeMsg id (unpack packed) with
    | .ok m => rowOfMessage m
    | .error _ => .frame id packed
  else .frame id packed

/-- A whole wire buffer (R75, R81 (c)). -/
def decodeFrame (w : List Byte) : Except Reject Instr :=
  match parse w with
  | .error f => .error (.notAFrame f)
  | .ok (id, _) => .ok (rowOfFrame id (payloadOf w))

/-- The channel message's row, by the table of R79. -/
def decodeChMsg (st d1 d2 : Byte) : Instr :=
  if isEventMessage st d1 d2 then
    let a := d1.setWidth 7
    let b := d2.setWidth 7
    if st = 0xB0 then (if 1 ≤ b ∧ b ≤ 15 then .encTurn a b else .encUndef a b)
    else if st = 0x90 then (if b = 0 then .btnRel0 a else .btnPress a b)
    else .btnRel a b
  else .pass st d1 d2

/-- The decoder. -/
def decode : Pattern → Except Reject Instr
  | .cmd op => .ok (decodeCmd op)
  | .group w => decodeGroup w
  | .frame w => decodeFrame w
  | .chmsg st d1 d2 => .ok (decodeChMsg st d1 d2)

/-- The encoder: the words of an instruction, in the place the hardware finds them. -/
def encode : Instr → Pattern
  | .bpEnc => .cmd 0b00
  | .bpDec => .cmd 0b01
  | .fcBuild => .cmd 0b10
  | .fcParse => .cmd 0b11
  | .frame id packed => .frame (wire id packed)
  | .enter => .frame (frame 0x55 [])
  | .ackEntered => .frame (frame 0x53 [])
  | .exit => .frame (frame 0x00 [])
  | .led es => .frame (frame 0x01 (flattenLed es))
  | .ledRing es => .frame (frame 0x04 (flattenLedRing es))
  | .oledFb fb => .frame (frame 0x02 fb)
  | .oledLabels title labels => .frame (frame 0x03 (flattenLabels title labels))
  | .group raw => .group (packGroup raw)
  | .encTurn c v => .chmsg 0xB0 (c.setWidth 8) (v.setWidth 8)
  | .encUndef c v => .chmsg 0xB0 (c.setWidth 8) (v.setWidth 8)
  | .btnPress n v => .chmsg 0x90 (n.setWidth 8) (v.setWidth 8)
  | .btnRel0 n => .chmsg 0x90 (n.setWidth 8) 0
  | .btnRel n v => .chmsg 0x80 (n.setWidth 8) (v.setWidth 8)
  | .pass st d1 d2 => .chmsg st d1 d2

/-- The `n` bytes of a number, most significant first: the table writes frame offset 0 and
`cm_status` as the most significant byte (log 1). -/
def bytesOf : Nat → Nat → List Byte
  | 0, _ => []
  | n + 1, w => BitVec.ofNat 8 (w / 256 ^ n) :: bytesOf n w

/-- The packed payload length a frame row fixes, for its zero operand bytes (log 3): 1171 and 92 for
the two OLED kinds (R102), none for the others. -/
def zeroPayload (w : Nat) : List Byte :=
  if w % 256 = 0x02 then List.replicate 1171 0
  else if w % 256 = 0x03 then List.replicate 92 0
  else []

/-- Where the hardware finds an instruction whose table bits are `w` (opcode_table.json; logs 1 to
3). CMD is two bits in OP, CHMSG three bytes, FRAME the first eight bytes of a wire buffer, completed
by zero payload bytes and the terminator; other bytes below 0x80 are a group. -/
def tablePattern (nbits w : Nat) : Option Pattern :=
  if nbits ≤ 8 then
    if w < 4 then some (.cmd (BitVec.ofNat 2 w))
    else if w < 128 then some (.group (BitVec.ofNat 8 w :: List.replicate 7 0))
    else none
  else if nbits = 24 then
    some (.chmsg (BitVec.ofNat 8 (w / 65536)) (BitVec.ofNat 8 (w / 256)) (BitVec.ofNat 8 w))
  else if nbits = 64 ∧ w / 256 ^ 7 = 0xF0 then
    some (.frame (bytesOf 8 w ++ zeroPayload w ++ [term]))
  else some (.group (bytesOf (nbits / 8) w))

/-- The instruction the decoder reads from table bits. -/
def decodeTableWord (nbits w : Nat) : Option Instr :=
  match tablePattern nbits w with
  | none => none
  | some p => match decode p with
    | .ok i => some i
    | .error _ => none

end Sys2Proof
end

