-- ==== Sys2Proof/Machine/EventDecoder.lean ====
section
/-! DEFINITION. The DeviceEventDecoder's function (42_event_decoder.md R140 to R148). -/

namespace Sys2Proof.Machine

/-- `out(0, 0, 0, 0x00, 0x00, 0, 0)`: PASS. -/
def EvOut.pass : EvOut := ⟨true, .pass, 0, false, 0, 0, false, 0⟩

/-- ENC_TURN for encoder `idx` and value `d2` in 1 to 15: both readings and the flag (R146). -/
def EvOut.turn (idx : BitVec 5) (d2 : Byte) : EvOut :=
  ⟨true, .encTurn, idx, false, d2, d2 - 16, true, d2.setWidth 7⟩

/-- ENC_UNDEF for encoder `idx`: no delta, the raw value (R147). -/
def EvOut.undef (idx : BitVec 5) (d2 : Byte) : EvOut :=
  ⟨true, .encUndef, idx, false, 0, 0, false, d2.setWidth 7⟩

/-- BUTTON (R142). -/
def EvOut.button (idx : BitVec 5) (pressed : Bool) : EvOut :=
  ⟨true, .button, idx, pressed, 0, 0, false, 0⟩

/-- DED.DEC (R144): R144's tests in R144's order. -/
def dedDecode (st d1 d2 : Byte) : EvOut :=
  if !st.msb then .pass
  else if d1.msb || d2.msb then .pass
  else
    let type := st >>> 4
    let chan := st &&& 0x0F
    if chan ≠ 0 then .pass
    else if type = 0xB then
      if d1 < 1 || 16 < d1 then .pass
      else
        let idx := (d1 - 1).setWidth 5
        if 1 ≤ d2 && d2 ≤ 15 then .turn idx d2 else .undef idx d2
    else if type = 0x9 then
      if 16 < d1 then .pass else .button (d1.setWidth 5) (d2 != 0)
    else if type = 0x8 then
      if 16 < d1 then .pass else .button (d1.setWidth 5) false
    else .pass

/-- The three message types the source names, and every other (R145). -/
inductive ChType where
  | noteOff
  | noteOn
  | controlChange
  | other
deriving DecidableEq, Repr

/-- The type of a status byte (R78: from general knowledge, log 15). -/
def ChType.ofStatus (st : Byte) : ChType :=
  if st >>> 4 = 0x8 then .noteOff
  else if st >>> 4 = 0x9 then .noteOn
  else if st >>> 4 = 0xB then .controlChange
  else .other

/-- The decoder over a classified input (R145). -/
def dedClassified (type : ChType) (chan : BitVec 4) (d1 d2 : BitVec 7) : EvOut :=
  if chan ≠ 0 then .pass
  else match type with
    | .controlChange =>
      if d1 < 1 || 16 < d1 then .pass
      else if 1 ≤ d2 && d2 ≤ 15 then .turn ((d1 - 1).setWidth 5) (d2.setWidth 8)
      else .undef ((d1 - 1).setWidth 5) (d2.setWidth 8)
    | .noteOn => if 16 < d1 then .pass else .button (d1.setWidth 5) (d2 != 0)
    | .noteOff => if 16 < d1 then .pass else .button (d1.setWidth 5) false
    | .other => .pass

/-- What a consumer may take as the event's single delta (R146, R10 ENC_RESOLVE): with BOTH, one of
the two and nothing more. Only ENC_TURN has a delta (R147). -/
def EvOut.deltas (r : EncResolve) (o : EvOut) : List Byte :=
  match o.kind with
  | .encTurn => match r with
    | .cw => [o.delta]
    | .ccw => [o.deltaAlt]
    | .both => [o.delta, o.deltaAlt]
  | .pass => []
  | .button => []
  | .encUndef => []

end Sys2Proof.Machine
end

