-- ==== Sys2Proof/Machine/State.lean ====
section
/-! DEFINITION. The machine's state, its reset, and the ways a step can stop. -/

namespace Sys2Proof.Machine

/-- A buffer: the bytes it holds by index, indices strictly rising. An unlisted index has no value:
in IBUF it has not been written since reset, in OBUF it is unspecified (R31, R32, R36; logs 8, 9). -/
abbrev Memory := List Host.Cell

/-- The canonical form: strictly rising indices, so that equal buffers are equal lists. (No listed
entry can equal what an unlisted index reads as, which is no value at all.) -/
abbrev Memory.wf (m : Memory) : Prop := (m.map Prod.fst).Pairwise (· < ·)

/-- Everything the spec gives CORE, and the model's own fields `left`, `layer`, `inbox`, `draws`
(INVENTORY.md, State). -/
structure State where
  /-- BUF_CAP and ENC_RESOLVE (R10). No step changes them. -/
  cfg : Params
  /-- OP[1:0] (R26). -/
  op : BitVec 2
  /-- MSGID (R27). -/
  msgid : Byte
  /-- ILEN (R27). -/
  ilen : Half
  /-- STAT.BUSY (R29). -/
  busy : Bool
  /-- STAT.DONE (R29). -/
  done : Bool
  /-- STAT.STATUS (R29, R82). -/
  status : Status
  /-- OLEN (R30). -/
  olen : Half
  /-- RMSGID (R30). -/
  rmsgid : Byte
  /-- ERRINFO (R30). -/
  errinfo : Half
  /-- IBUF: the bytes written since reset (R31). -/
  ibuf : Memory
  /-- OBUF: the bytes the last commit specified (R32). -/
  obuf : Memory
  /-- `bus_rdata` (R61): the data of a read at the last clock edge, or not valid. -/
  rdata : Option Half
  /-- The DED's inputs (R33). -/
  cm : ChMsg
  /-- The DED's outputs (R33). -/
  ev : EvOut
  /-- The model's own: clock edges to pass before the edge of the running transaction's commit
  (T_OP, log 5). -/
  left : Nat
  /-- The model's own: what the layer above CORE last returned (log 13). -/
  layer : LayerResult
  /-- The model's own: what the host does next, oldest first (log 4). -/
  inbox : List HostAction
  /-- The model's own: free values used so far (log 7). -/
  draws : Nat
deriving DecidableEq, Repr

/-- The machine never stops with a fault: a failed transaction commits (R190, R196), the DED raises
nothing (R207), an access beyond a space reads and ignores as R50 says, and nothing is stuck
(93_implementation_defined.md). Nobody raises one (log 19). -/
inductive Fault where
deriving DecidableEq, Repr

/-- The ways a step gives no meaning. -/
inductive Refusal where
  /-- Raised by exec's arm of an instruction without a meaning. Safe. -/
  | notModelled (mnemonic : String)
  /-- Raised by a transaction that reads an IBUF byte never written since reset: the spec says "a
  model refuses such a run" (R36, R222). Safe. -/
  | unwrittenOperand
deriving DecidableEq, Repr

/-- What a step and a meaning answer. -/
abbrev Result := Host.Outcome State Fault Refusal

/-- The state after reset (R36, R220, R221), with the parameters at R10's defaults. DESIGN CHOICE
(logs 4, 5, 7, 13, 16): the fields the spec gives no value for. -/
def State.reset : State where
  cfg := {}
  op := 0
  msgid := 0
  ilen := 0
  busy := false
  done := false
  status := .ok
  olen := 0
  rmsgid := 0
  errinfo := 0
  ibuf := []
  obuf := []
  rdata := none
  cm := ⟨false, 0, 0, 0⟩
  ev := EvOut.any 0
  left := 0
  layer := .idle
  inbox := []
  draws := 7

end Sys2Proof.Machine
end

