-- ==== Sys2Proof/Machine/Flags.lean ====
section
/-! DEFINITION. The status word (10_state.md R24, R29) and the two status pins (20_memory.md R61). -/

namespace Sys2Proof.Machine

/-- STAT as it reads: BUSY in bit 0, DONE in bit 1, STATUS in bits 7 to 4, the other bits 0 (R29). -/
def statWord (busy done : Bool) (status : BitVec 4) : Half :=
  (BitVec.ofBool busy).setWidth 16 ||| ((BitVec.ofBool done).setWidth 16 <<< 1) |||
    (status.setWidth 16 <<< 4)

/-- The `busy` pin (R61). -/
def State.busyPin (s : State) : Bool := s.busy

/-- The `done` pin (R61). -/
def State.donePin (s : State) : Bool := s.done

/-- An accepted START sets BUSY and clears DONE (R24, R28). -/
def State.flagStart (s : State) : State := { s with busy := true, done := false }

/-- A commit clears BUSY and sets DONE (R24, R195, R196). Nothing is left to wait for. -/
def State.flagCommit (s : State) : State := { s with busy := false, done := true, left := 0 }

end Sys2Proof.Machine
end

