-- ==== Sys2Proof/Machine/Ops.lean ====
section
/-! DEFINITION. The named operations over buffers, registers and ports. -/

namespace Sys2Proof.Machine

/-! Buffers (20_memory.md R50, R52, R54). -/

/-- What an unlisted index reads as: no value (logs 8, 9). -/
def Memory.unlisted : Option Byte := none

/-- The byte at an index. -/
def Memory.read : Memory → Nat → Option Byte
  | [], _ => Memory.unlisted
  | (a, b) :: m, k => if a = k then some b else Memory.read m k

/-- One byte written, the canonical form kept. -/
def Memory.write : Memory → Nat → Byte → Memory
  | [], k, v => [(k, v)]
  | (a, b) :: m, k, v =>
    if k < a then (k, v) :: (a, b) :: m
    else if k = a then (k, v) :: m
    else (a, b) :: Memory.write m k v

/-- The buffer that holds exactly these bytes from index `k` on (R52). -/
def Memory.ofBytes : Nat → List Byte → Memory
  | _, [] => []
  | k, b :: bs => (k, b) :: Memory.ofBytes (k + 1) bs

/-- The buffer without an entry for index `k` at its head; every other index reads as before. -/
def Memory.dropHead (k : Nat) : Memory → Memory
  | [] => []
  | (a, b) :: m => if a = k then m else (a, b) :: m

/-- The `n` bytes from index `k` on, if every one of them has a value. -/
def Memory.range : Memory → Nat → Nat → Option (List Byte)
  | _, _, 0 => some []
  | m, k, n + 1 => match m.read k, Memory.range (m.dropHead k) (k + 1) n with
    | some b, some bs => some (b :: bs)
    | _, _ => none

/-! Commits (60_exceptions.md R190, R195, R196): the one way a transaction ends, and the nearest
thing CORE has to an exception. There is nothing to return from (R202). -/

/-- Success commit `commit_ok(bytes, id)` (R195): OBUF beyond the result becomes unspecified. -/
def State.commitOk (bytes : List Byte) (id : Byte) (s : State) : State :=
  { s.flagCommit with
    obuf := Memory.ofBytes 0 bytes
    olen := BitVec.ofNat 16 bytes.length
    rmsgid := id
    errinfo := 0
    status := .ok }

/-- Failure commit `raise Kind(info)` (R196): every byte of OBUF becomes unspecified. -/
def State.raise (f : Failure) (s : State) : State :=
  { s.flagCommit with
    obuf := []
    olen := 0
    rmsgid := 0
    errinfo := BitVec.ofNat 16 f.info
    status := f.kind }

/-! Registers (10_state.md R25 to R30). -/

/-- The START strobe while `BUSY = 0` (R28). The operands stay where they are: nothing can change
them until the commit (R59, R225). -/
def State.acceptStart (s : State) : State :=
  { s.flagStart with left := Config.waitEdges s.op s.ilen }

/-- A write of register `n` (R25, R28, R50): ignored while BUSY (R225), for a read-only register and
for a register that does not exist. -/
def State.writeReg (n : Nat) (v : Half) (s : State) : State :=
  if s.busy then s
  else match n with
    | 0 => { s with op := v.setWidth 2 }
    | 1 => { s with msgid := v.setWidth 8 }
    | 2 => { s with ilen := v }
    | 3 => s.acceptStart
    | _ => s

/-- What a read of register `n` gives (R25, R50). While BUSY the results are unspecified, drawn from
`any`, and BUSY and DONE read right (R226). -/
def State.regValue (any : Half) (n : Nat) (s : State) : Half :=
  match n with
  | 0 => s.op.setWidth 16
  | 1 => s.msgid.setWidth 16
  | 2 => s.ilen
  | 3 => 0
  | 4 => statWord s.busy s.done (if s.busy then any.setWidth 4 else s.status.code)
  | 5 => if s.busy then any else s.olen
  | 6 => (if s.busy then any.setWidth 8 else s.rmsgid).setWidth 16
  | 7 => if s.busy then any else s.errinfo
  | _ => 0

/-! Buffers as the host sees them (20_memory.md R50, R56). -/

/-- A write of one IBUF byte: ignored while BUSY (R225) and beyond BUF_CAP (R50). -/
def State.writeIbuf (k : Nat) (v : Byte) (s : State) : State :=
  if s.busy then s
  else if s.cfg.bufCap ≤ k then s
  else { s with ibuf := s.ibuf.write k v }

/-- What a read of IBUF gives: an unspecified byte where nothing has been written since reset (R36)
and beyond BUF_CAP (R50). -/
def State.ibufValue (any : Byte) (k : Nat) (s : State) : Byte :=
  if s.cfg.bufCap ≤ k then any else (s.ibuf.read k).getD any

/-- What a read of OBUF gives: an unspecified byte while BUSY (R226), at or beyond OLEN (R32) and
beyond BUF_CAP (R50). -/
def State.obufValue (any : Byte) (k : Nat) (s : State) : Byte :=
  if s.busy then any
  else if s.cfg.bufCap ≤ k then any
  else (s.obuf.read k).getD any

/-! The host port, one access at a clock edge (20_memory.md R61). -/

/-- The write of a port access: a write to OBUF is ignored. -/
def State.busWrite (c : BusCycle) (s : State) : State :=
  if c.sel = 0 then s.writeReg c.addr.toNat c.wdata
  else if c.sel = 1 then s.writeIbuf c.addr.toNat (c.wdata.setWidth 8)
  else s

/-- The data of a port read; a buffer byte is zero-extended (R61). -/
def State.busValue (any : Half) (c : BusCycle) (s : State) : Half :=
  if c.sel = 0 then s.regValue any c.addr.toNat
  else if c.sel = 1 then (s.ibufValue (any.setWidth 8) c.addr.toNat).setWidth 16
  else (s.obufValue (any.setWidth 8) c.addr.toNat).setWidth 16

/-- One access (R61): both enables is a write; `bus_rdata` is valid only after a read (log 17). -/
def State.busAccess (c : BusCycle) (s : State) : State :=
  if c.sel = 3 then { s with rdata := none }
  else if c.we then { s.busWrite c with rdata := none }
  else if c.re then
    { s with rdata := some (s.busValue (Config.anyWord s.draws) c), draws := s.draws + 1 }
  else { s with rdata := none }

/-- The edge with `rst` high (R220): every register 0, a running transaction abandoned without a
commit, both buffers unspecified. -/
def State.resetEdge (s : State) : State :=
  { s with
    op := 0, msgid := 0, ilen := 0, busy := false, done := false, status := .ok, olen := 0,
    rmsgid := 0, errinfo := 0, ibuf := [], obuf := [], rdata := none, left := 0 }

/-! The DED's ports (10_state.md R33). -/

/-- A channel message at the DED's inputs: the outputs follow (R144, R228). -/
def State.present (st d1 d2 : Byte) (s : State) : State :=
  { s with cm := ⟨true, st, d1, d2⟩, ev := dedDecode st d1 d2 }

/-- `cm_valid` low: every output but `ev_valid` is unspecified (R33). -/
def State.withdraw (st d1 d2 : Byte) (s : State) : State :=
  { s with
    cm := ⟨false, st, d1, d2⟩, ev := EvOut.any s.draws, draws := s.draws + EvOut.anyDraws }

/-- What the consumer may take as the delta of the event at the outputs (R146, ENC_RESOLVE): nothing
while `ev_valid` is 0. -/
def State.eventDeltas (s : State) : List Byte :=
  if s.ev.valid then s.ev.deltas s.cfg.encResolve else []

end Sys2Proof.Machine
end

