-- ==== Sys2Proof/Machine/ChannelMessages.lean ====
section
/-! DEFINITION. The rows of format CHMSG: each presents its three bytes to the DED, which is
DED.DEC (42_event_decoder.md R144; 30_encoding.md R79). The status bytes are from general knowledge
(R78, log 15). -/

namespace Sys2Proof.Machine

/-- ENC.TURN (R140, R146). -/
def execEncTurn (ctrl val : BitVec 7) (s : State) : Result :=
  .next (s.present 0xB0 (ctrl.setWidth 8) (val.setWidth 8))

/-- ENC.UNDEF (R147). -/
def execEncUndef (ctrl val : BitVec 7) (s : State) : Result :=
  .next (s.present 0xB0 (ctrl.setWidth 8) (val.setWidth 8))

/-- BTN.PRESS (R142). -/
def execBtnPress (note vel : BitVec 7) (s : State) : Result :=
  .next (s.present 0x90 (note.setWidth 8) (vel.setWidth 8))

/-- BTN.REL0 (R142). -/
def execBtnRel0 (note : BitVec 7) (s : State) : Result :=
  .next (s.present 0x90 (note.setWidth 8) 0)

/-- BTN.REL (R142). -/
def execBtnRel (note vel : BitVec 7) (s : State) : Result :=
  .next (s.present 0x80 (note.setWidth 8) (vel.setWidth 8))

/-- PASS (R143). -/
def execPass (st d1 d2 : Byte) (s : State) : Result := .next (s.present st d1 d2)

end Sys2Proof.Machine
end

