-- ==== Sys2Proof/Machine/Operands.lean ====
section
/-! DEFINITION. The operand and the result of a transaction as byte sequences (20_memory.md R51,
R52), and the refusal of an operand that was never written (70_reset_and_hazards.md R222). -/

namespace Sys2Proof.Machine

/-- The lengths with which an operation fails with BufferOverflow (R193): the operand does not fit, or
BP.ENC's or FC.BUILD's result does not. -/
def overflows (bufCap : Nat) (op : BitVec 2) (n : Nat) : Bool :=
  decide (bufCap < n) || (op == 0 && decide (bufCap < packedLen n)) ||
    (op == 2 && decide (bufCap < 9 + packedLen n))

/-- The operand sequence `IBUF[0..ILEN)`, if every byte of it has been written since reset. -/
def State.operand (s : State) : Option (List Byte) := s.ibuf.range 0 s.ilen.toNat

/-- A transaction's end on its operand: a commit, or the refusal of R222. -/
def State.withOperand (s : State) (commit : List Byte → State) : Result :=
  match s.operand with
  | some bytes => .next (commit bytes)
  | none => .refused .unwrittenOperand

/-- The length a host reads in OLEN. -/
def State.readOlen (s : State) : Nat := (s.regValue (Config.anyWord s.draws) 5).toNat

/-- The bytes a host reads from `OBUF[0..n)`, each read drawing anew where it is unspecified. -/
def State.readObuf (s : State) (n : Nat) : List Byte :=
  (List.range n).map
    (fun k => s.obufValue ((Config.anyWord (s.draws + 1 + k)).setWidth 8) k)

/-- The result sequence `OBUF[0..OLEN)` as a host reads it (R32, R58). -/
def State.readResult (s : State) : List Byte := s.readObuf s.readOlen

/-- The free values those reads use. -/
def State.afterReadResult (s : State) : State :=
  { s with draws := s.draws + 1 + s.readOlen }

end Sys2Proof.Machine
end

