-- ==== Sys2Proof/Machine/Transactions.lean ====
section
/-! DEFINITION. The four PFE operations, each from the operands in the registers and IBUF to its
commit (40_bitpacker.md R108, R109; 41_framecodec.md R124, R128; order of tests 60_exceptions.md
R200). -/

namespace Sys2Proof.Machine

/-- BufferOverflow with `info = ILEN` (R193). -/
def State.overflow (s : State) : Result := .next (s.raise ⟨.bufferOverflow, s.ilen.toNat⟩)

/-- BP.ENC (R108). -/
def execBpEnc (s : State) : Result :=
  if s.cfg.bufCap < s.ilen.toNat then s.overflow
  else if s.cfg.bufCap < packedLen s.ilen.toNat then s.overflow
  else s.withOperand fun raw => s.commitOk (pack raw) 0

/-- BP.DEC (R109). -/
def execBpDec (s : State) : Result :=
  if s.cfg.bufCap < s.ilen.toNat then s.overflow
  else s.withOperand fun p => match highByte? p with
    | some k => s.raise ⟨.packedByteOutOfRange, k⟩
    | none => s.commitOk (unpack p) 0

/-- FC.BUILD (R124). -/
def execFcBuild (s : State) : Result :=
  if s.cfg.bufCap < s.ilen.toNat then s.overflow
  else if s.cfg.bufCap < 9 + packedLen s.ilen.toNat then s.overflow
  else s.withOperand fun raw => s.commitOk (frame s.msgid raw) 0

/-- FC.PARSE (R128). A sequence shorter than 9 bytes fails before any byte is examined (R126 (c),
log 20). -/
def execFcParse (s : State) : Result :=
  if s.cfg.bufCap < s.ilen.toNat then s.overflow
  else if s.ilen.toNat < 9 then .next (s.raise ⟨.headerMismatch, s.ilen.toNat⟩)
  else s.withOperand fun w => match parse w with
    | .error f => s.raise f
    | .ok (id, raw) => s.commitOk raw id

/-- The transaction that OP selects (R26). -/
def runSelected (s : State) : Result :=
  if s.op = 0 then execBpEnc s
  else if s.op = 1 then execBpDec s
  else if s.op = 2 then execFcBuild s
  else execFcParse s

end Sys2Proof.Machine
end

