-- ==== Sys2Proof/Machine/HostLines.lean ====
section
/-! DEFINITION. The host's lines (30_encoding.md R87, R88): each is the sequence of accesses it
stands for, ended by "wait DONE". A line begun while BUSY loses its writes (70_reset_and_hazards.md
R225) and waits for the transaction that is running (log 10). -/

namespace Sys2Proof.Machine

/-- A register write of the line, at an edge of its own (R61). -/
def State.lineReg (n : Nat) (v : Half) (s : State) : State :=
  { s.writeReg n v with rdata := none }

/-- The byte writes of the line: byte `j` of the sequence at index `k + j` (R52). -/
def State.lineBytes : Nat → List Byte → State → State
  | _, [], s => s
  | k, b :: bs, s => { (State.lineBytes (k + 1) bs s).writeIbuf k b with rdata := none }

/-- "wait DONE": a running transaction goes on to its commit (R58, R229). -/
def State.awaitDone (s : State) : Result := if s.busy then runSelected s else .next s

/-- What ILEN takes in a line of more than 65535 bytes, which its 16 bits cannot say (R27). DESIGN CHOICE
(log 26): the spec states no value, only that an input longer than the buffers is BufferOverflow (R193,
decision D11). So it is a free value among those with which `op` overflows, and any value where `op`
overflows with none, which 65535 decides. -/
def State.longLength (op : BitVec 2) (s : State) : Half :=
  let any := Config.anyWord s.draws
  if overflows s.cfg.bufCap op 65535 && !overflows s.cfg.bufCap op any.toNat then 0xFFFF else any

/-- The ILEN write of a line (R87). While BUSY it is lost (R225), and no free value is used. -/
def State.lineLength (op : BitVec 2) (n : Nat) (s : State) : State :=
  if n ≤ 65535 then s.lineReg 2 (BitVec.ofNat 16 n)
  else if s.busy then { s with rdata := none }
  else { s with ilen := s.longLength op, draws := s.draws + 1, rdata := none }

/-- The operand writes of a line of R87 and its START. MSGID is written by FC.BUILD's line only. -/
def State.lineStart (op : BitVec 2) (id : Byte) (bytes : List Byte) (s : State) : State :=
  let s1 := (s.lineBytes 0 bytes).lineLength op bytes.length
  let s2 := if op = 2 then s1.lineReg 1 (id.setWidth 16) else s1
  (s2.lineReg 0 (op.setWidth 16)).lineReg 3 0

/-- A line of R87. -/
def State.line (op : BitVec 2) (id : Byte) (bytes : List Byte) (s : State) : Result :=
  (s.lineStart op id bytes).awaitDone

/-- What the layer above CORE returns after the FC.BUILD it issued. -/
def State.buildResult (s : State) : LayerResult :=
  if s.status = .ok then .built else .failed (.core ⟨s.status, s.errinfo.toNat⟩)

/-- A message kind as its pseudo-operation (R88): validate and flatten (R161, R173), then one
FC.BUILD. A message that fails validation issues nothing (R161, R168). -/
def State.sendMessage (m : Message) (s : State) : Result :=
  match encodeMsg m with
  | .error e => .next { s with layer := .failed e }
  | .ok (id, raw) => match s.line 2 id raw with
    | .next t => .next { t with layer := t.buildResult }
    | .fault f => .fault f
    | .refused r => .refused r

/-- What the layer above CORE returns after the FC.PARSE it issued (R178). -/
def State.dispatchResult (s : State) : LayerResult :=
  if s.status = .ok then
    match decodeMsg s.rmsgid s.readResult with
    | .ok m => .message m
    | .error e => .failed e
  else .failed (.core ⟨s.status, s.errinfo.toNat⟩)

/-- What the layer above CORE returns for a wire buffer that no FC.PARSE can be handed whole:
BufferOverflow, with the ILEN of the line as `info` (decision D11, log 26). Whatever the transaction made
of a part of the buffer is not decoded (R161, R178). -/
def State.dispatchOverflow (s : State) : LayerResult :=
  .failed (.core ⟨.bufferOverflow, s.ilen.toNat⟩)

/-- DISPATCH (R88, R178): FC.PARSE, then the schema decode of its result; a failure of FC.PARSE is
returned as it is and the decode is not run. Begun while BUSY it reads the running transaction's result
(log 10). -/
def State.dispatchLine (w : List Byte) (s : State) : Result :=
  match s.line 3 0 w with
  | .next t => .next { t.afterReadResult with
      layer := if 65535 < w.length ∧ s.busy = false then t.dispatchOverflow else t.dispatchResult }
  | .fault f => .fault f
  | .refused r => .refused r

/-- COPY (R87, R227): the host copies `OBUF[0..OLEN)` to IBUF and sets ILEN to OLEN. -/
def State.copyLine (s : State) : State :=
  (s.afterReadResult.lineBytes 0 s.readResult).lineReg 2 (BitVec.ofNat 16 s.readOlen)

end Sys2Proof.Machine
end

