-- ==== Sys2Proof/Machine/Messages.lean ====
section
/-! DEFINITION. The rows of formats FRAME and GROUP (30_encoding.md R72, R75, R88). -/

namespace Sys2Proof.Machine

/-- FRAME (R75, R128): the frame is handed to FC.PARSE (log 12). -/
def execFrame (id : Byte) (packed : List Byte) (s : State) : Result :=
  s.line 3 0 (wire id packed)

/-- ENTER = `FC.BUILD 0x55, none` (R88, R167). -/
def execEnter (s : State) : Result := s.sendMessage .enter

/-- ACK_ENTERED = `FC.BUILD 0x53, none` (R88, R167). -/
def execAckEntered (s : State) : Result := s.sendMessage .ackEntered

/-- EXIT = `FC.BUILD 0x00, none` (R88, R167). -/
def execExit (s : State) : Result := s.sendMessage .exit

/-- LED (R88, R168). -/
def execLed (entries : List LedEntry) (s : State) : Result := s.sendMessage (.led entries)

/-- LEDRING (R88, R169). -/
def execLedRing (entries : List LedRingEntry) (s : State) : Result :=
  s.sendMessage (.ledRing entries)

/-- OLEDFB (R88, R170). -/
def execOledFb (fb : List Byte) (s : State) : Result := s.sendMessage (.oledFramebuffer fb)

/-- OLEDLABELS (R88, R170). -/
def execOledLabels (title : List Byte) (labels : List (List Byte)) (s : State) : Result :=
  s.sendMessage (.oledLabels title labels)

/-- GROUP (R72, R100). DESIGN CHOICE (log 11): the table calls it "not an operation: the unit of the
packed payload that BP.ENC and FC.BUILD write"; its meaning here is the line `BP.ENC [raw]`, which
writes this group. -/
def execGroup (raw : List Byte) (s : State) : Result := s.line 0 0 raw

end Sys2Proof.Machine
end

