-- ==== Sys2Proof/Machine/Dispatch.lean ====
section
/-! DEFINITION. One arm for each row of the opcode table. -/

namespace Sys2Proof.Machine

def exec (i : Instr) (s : State) : Host.Outcome State Fault Refusal :=
  match i with
  -- CMD
  | .bpEnc => Sys2Proof.Machine.execBpEnc s
  | .bpDec => Sys2Proof.Machine.execBpDec s
  | .fcBuild => Sys2Proof.Machine.execFcBuild s
  | .fcParse => Sys2Proof.Machine.execFcParse s
  -- FRAME
  | .frame id packed => Sys2Proof.Machine.execFrame id packed s
  | .enter => Sys2Proof.Machine.execEnter s
  | .ackEntered => Sys2Proof.Machine.execAckEntered s
  | .exit => Sys2Proof.Machine.execExit s
  | .led entries => Sys2Proof.Machine.execLed entries s
  | .ledRing entries => Sys2Proof.Machine.execLedRing entries s
  | .oledFb fb => Sys2Proof.Machine.execOledFb fb s
  | .oledLabels title labels => Sys2Proof.Machine.execOledLabels title labels s
  -- GROUP
  | .group raw => Sys2Proof.Machine.execGroup raw s
  -- CHMSG
  | .encTurn ctrl val => Sys2Proof.Machine.execEncTurn ctrl val s
  | .encUndef ctrl val => Sys2Proof.Machine.execEncUndef ctrl val s
  | .btnPress note vel => Sys2Proof.Machine.execBtnPress note vel s
  | .btnRel0 note => Sys2Proof.Machine.execBtnRel0 note s
  | .btnRel note vel => Sys2Proof.Machine.execBtnRel note vel s
  | .pass st d1 d2 => Sys2Proof.Machine.execPass st d1 d2 s

end Sys2Proof.Machine
end

