-- ==== Sys2Proof/Machine/Fetch.lean ====
section
/-! DEFINITION. What happens next: a clock edge, an event at the DED, or a line of the host; and how
the bits of an instruction reach exec (10_state.md R20, R23, R28; 20_memory.md R57, R61). -/

namespace Sys2Proof.Machine

/-- What the decoder rejects is handed to the operation that reports it (R81, log 14): a wire buffer
that is no frame to FC.PARSE, bytes that are no group to BP.DEC. The decoder rejects no OP code and no
channel message (R81 (a), (d)). -/
def runRejected (p : Pattern) (s : State) : Result :=
  match p with
  | .cmd op => exec (decodeCmd op) s
  | .group w => s.line 1 0 w
  | .frame w => s.line 3 0 w
  | .chmsg st d1 d2 => exec (decodeChMsg st d1 d2) s

/-- The instruction an encoded form stands for is executed. -/
def runPattern (p : Pattern) (s : State) : Result :=
  match decode p with
  | .ok i => exec i s
  | .error _ => runRejected p s

/-- One rising edge of `clk` (R61, R220, R229). Reset wins over everything. The access is made as
BUSY stands before the edge; then a transaction that was running commits or waits on. The operation
it commits is the one OP selects, which nothing has changed since the START (R59). -/
def clockEdge (c : BusCycle) (s : State) : Result :=
  if c.rst then .next s.resetEdge
  else if s.busy then
    match s.left with
    | 0 => runPattern (.cmd s.op) (s.busAccess c)
    | n + 1 => .next { s.busAccess c with left := n }
  else .next (s.busAccess c)

/-- One action of the host. -/
def hostAct (a : HostAction) (s : State) : Result :=
  match a with
  | .cycle c => clockEdge c s
  | .drive valid st d1 d2 =>
    if valid then runPattern (.chmsg st d1 d2) s else .next (s.withdraw st d1 d2)
  | .groupRow w => runPattern (.group w) s
  | .frameRow w => runPattern (.frame w) s
  | .line op id bytes => s.line op id bytes
  | .copy => .next s.copyLine
  | .dispatch w => s.dispatchLine w

/-- The machine's next move: the oldest thing the host does, or an edge with no access. -/
def advance (s : State) : Result :=
  match s.inbox with
  | [] => clockEdge BusCycle.idle s
  | a :: rest => hostAct a { s with inbox := rest }

/-- An instruction placed so that the very next step runs it (log 4): a CMD code in OP of a
transaction whose next edge is the commit, any other form at the head of the host's actions. -/
def placePattern (p : Pattern) (s : State) : State :=
  match p with
  | .cmd op =>
    { s with
      op := op, busy := true, done := false, left := 0, inbox := .cycle BusCycle.idle :: s.inbox }
  | .group w => { s with inbox := .groupRow w :: s.inbox }
  | .frame w => { s with inbox := .frameRow w :: s.inbox }
  | .chmsg st d1 d2 => { s with inbox := .drive true st d1 d2 :: s.inbox }

/-- The same for table bits; bits that are no form change nothing. -/
def placeTableWord (nbits w : Nat) (s : State) : State :=
  match tablePattern nbits w with
  | some p => placePattern p s
  | none => s

end Sys2Proof.Machine
end

