-- ==== Sys2Proof/Safety.lean ====
section
/-! DEFINITION. What counts as a legal state, in the terms the statements use. Each part is a rule of
the spec about every state the machine can be in. -/

namespace Sys2Proof.Machine

/-- Both buffers keep their canonical form, and IBUF has no byte beyond BUF_CAP (R31, R50). -/
abbrev State.buffersLegal (s : State) : Prop :=
  s.ibuf.wf ∧ s.obuf.wf ∧ ∀ c ∈ s.ibuf, c.1 < s.cfg.bufCap

/-- BUSY and DONE are never both 1 (R29); only a running transaction has edges left to wait. -/
abbrev State.flagsLegal (s : State) : Prop :=
  (s.busy && s.done) = false ∧ (s.busy = false → s.left = 0)

/-- STATUS holds OK or a kind that CORE raises: never a kind of the layer above (R191). -/
abbrev State.statusLegal (s : State) : Prop :=
  s.status = .ok ∨ s.status = .headerMismatch ∨ s.status = .categoryMismatch ∨
    s.status = .packedByteOutOfRange ∨ s.status = .bufferOverflow

/-- The result registers agree with the last commit (R30, R32): OBUF specifies exactly OLEN bytes, at
most BUF_CAP; after a failure OLEN and RMSGID are 0; after a success ERRINFO is 0. -/
abbrev State.resultLegal (s : State) : Prop :=
  s.obuf.map Prod.fst = List.range s.olen.toNat ∧ s.olen.toNat ≤ s.cfg.bufCap ∧
    (s.status ≠ .ok → s.olen = 0 ∧ s.rmsgid = 0) ∧ (s.status = .ok → s.errinfo = 0)

/-- `ev_valid` equals `cm_valid`, and while it is 1 the outputs are the function of the inputs
(R20 (b), R33, R144). -/
abbrev State.dedLegal (s : State) : Prop :=
  s.ev.valid = s.cm.valid ∧
    (s.cm.valid = true → s.ev = dedDecode s.cm.status s.cm.d1 s.cm.d2)

/-- All of it, with R10's bounds on BUF_CAP. -/
abbrev State.legal (s : State) : Prop :=
  s.cfg.legal ∧ s.buffersLegal ∧ s.flagsLegal ∧ s.statusLegal ∧ s.resultLegal ∧ s.dedLegal

/-- IBUF's first ILEN bytes are this sequence (R52). -/
def State.operandIs (s : State) (bytes : List Byte) : Prop :=
  s.ilen.toNat = bytes.length ∧ ∀ k, k < bytes.length → s.ibuf.read k = bytes[k]?

/-- OBUF specifies this sequence and nothing else (R32, R52). -/
def State.resultIs (s : State) (bytes : List Byte) : Prop :=
  s.olen.toNat = bytes.length ∧ ∀ k, s.obuf.read k = bytes[k]?

/-- Outside the result of a transaction nothing differs (R195, R196): no operand register, no byte of
IBUF, no port, none of the DED, no parameter. -/
def State.sameButResult (s t : State) : Prop :=
  t.cfg = s.cfg ∧ t.op = s.op ∧ t.msgid = s.msgid ∧ t.ilen = s.ilen ∧
    (∀ k, t.ibuf.read k = s.ibuf.read k) ∧ t.rdata = s.rdata ∧ t.cm = s.cm ∧ t.ev = s.ev ∧
    t.layer = s.layer ∧ t.inbox = s.inbox ∧ t.draws = s.draws

/-- What every commit leaves in the flags (R195, R196). -/
def State.committed (t : State) : Prop := t.busy = false ∧ t.done = true ∧ t.left = 0

/-- A success commit's registers (R195). -/
def State.succeeded (t : State) (bytes : List Byte) (id : Byte) : Prop :=
  t.committed ∧ t.status = .ok ∧ t.errinfo = 0 ∧ t.rmsgid = id ∧ t.resultIs bytes

/-- A failure commit's registers (R196). -/
def State.failedWith (t : State) (kind : Status) (info : Nat) : Prop :=
  t.committed ∧ t.status = kind ∧ t.errinfo.toNat = info ∧ t.rmsgid = 0 ∧ t.resultIs []

/-- The PFE, its buffers and the host port are the same: what a message at the DED leaves (R20). -/
def State.samePfe (s t : State) : Prop :=
  t.cfg = s.cfg ∧ t.op = s.op ∧ t.msgid = s.msgid ∧ t.ilen = s.ilen ∧ t.busy = s.busy ∧
    t.done = s.done ∧ t.status = s.status ∧ t.olen = s.olen ∧ t.rmsgid = s.rmsgid ∧
    t.errinfo = s.errinfo ∧ (∀ k, t.ibuf.read k = s.ibuf.read k) ∧
    (∀ k, t.obuf.read k = s.obuf.read k) ∧ t.rdata = s.rdata ∧ t.left = s.left ∧
    t.layer = s.layer ∧ t.inbox = s.inbox

/-- What a host's line leaves: it writes the operand registers and IBUF, and touches nothing of the
DED, the parameters, the free values or what the host does next. -/
def State.sameBesidePfe (s t : State) : Prop :=
  t.cfg = s.cfg ∧ t.cm = s.cm ∧ t.ev = s.ev ∧ t.inbox = s.inbox ∧ t.draws = s.draws

/-- A message row's effect where nothing is wrong (R87, R88): the raw payload in IBUF from index 0 on
and no other byte of IBUF touched, the operands of FC.BUILD in their registers, the frame in OBUF. -/
def State.builds (s t : State) (id : Byte) (raw : List Byte) : Prop :=
  t.succeeded (frame id raw) 0 ∧ t.op = 2 ∧ t.msgid = id ∧ t.ilen.toNat = raw.length ∧
    (∀ k, t.ibuf.read k = if k < raw.length then raw[k]? else s.ibuf.read k) ∧
    t.layer = .built ∧ t.rdata = none ∧ s.sameBesidePfe t

/-- A message row whose raw payload or frame does not fit the buffers (R193, R203): the operands are
written as far as IBUF goes, FC.BUILD fails, the layer returns its failure. -/
def State.buildOverflows (s t : State) (id : Byte) (raw : List Byte) : Prop :=
  t.failedWith .bufferOverflow raw.length ∧ t.op = 2 ∧ t.msgid = id ∧ t.ilen.toNat = raw.length ∧
    (∀ k, t.ibuf.read k
      = if k < raw.length ∧ k < s.cfg.bufCap then raw[k]? else s.ibuf.read k) ∧
    t.layer = .failed (.core ⟨.bufferOverflow, raw.length⟩) ∧ t.rdata = none ∧ s.sameBesidePfe t

/-- What a line of more than 65535 bytes, begun with the PFE idle, leaves beside its transaction's result
(log 26): the operands as any line, but ILEN takes a free value, which is one more used. -/
def State.wroteLongLine (s t : State) (op : BitVec 2) (id : Byte) (bytes : List Byte) : Prop :=
  t.op = op ∧ t.msgid = (if op = 2 then id else s.msgid) ∧ t.ilen = s.longLength op ∧
    t.draws = s.draws + 1 ∧
    (∀ k, t.ibuf.read k = if k < s.cfg.bufCap then bytes[k]? else s.ibuf.read k) ∧
    t.rdata = none ∧ t.cfg = s.cfg ∧ t.cm = s.cm ∧ t.ev = s.ev ∧ t.inbox = s.inbox

/-- R162's ranges. -/
def ledEntryInRange (e : LedEntry) : Prop :=
  e.enc ≤ 15 ∧ e.led ≤ 15 ∧ e.r ≤ 127 ∧ e.g ≤ 127 ∧ e.b ≤ 127

/-- R163's ranges. -/
def ledRingEntryInRange (e : LedRingEntry) : Prop :=
  e.enc ≤ 15 ∧ e.r ≤ 127 ∧ e.g ≤ 127 ∧ e.b ≤ 127 ∧ e.ringAmount ≤ 16383

/-- A structured message whose fields are in range (R160 to R165). -/
def messageInRange : Message → Prop
  | .enter => True
  | .ackEntered => True
  | .exit => True
  | .led es => ∀ e ∈ es, ledEntryInRange e
  | .ledRing es => ∀ e ∈ es, ledRingEntryInRange e
  | .oledFramebuffer fb => fb.length = 1024
  | .oledLabels title labels =>
    title.length = 16 ∧ labels.length = 16 ∧ ∀ l ∈ labels, l.length = 4

end Sys2Proof.Machine
end

