-- ==== Sys2Proof/Certificates/Slice0/Obligations.lean ====
section
/-! DEFINITION. The statements for the provers. Each docstring names the rule of spec/ it formalises,
or the sections it is derived from; where a clause rests on a choice of the model, the log entry. -/

open Sys2Proof Sys2Proof.Machine

/-! The BitPacker's functions. -/

/-- R102: the length of a packed sequence, and `packed_len` itself. -/
def Obligations.PackedLengthFormula : Prop :=
  (∀ raw : List Byte, (pack raw).length = packedLen raw.length) ∧
  (∀ n : Nat, packedLen n = n + ⌈(n : ℚ) / 7⌉₊ ∧ packedLen n = n + (n + 6) / 7) ∧
  packedLen 0 = 0 ∧ packedLen 7 = 8 ∧ packedLen 8 = 10 ∧ packedLen 14 = 16 ∧ packedLen 80 = 92 ∧
  packedLen 1024 = 1171 ∧
  StrictMono packedLen ∧ ∀ n : Nat, packedLen n % 8 ≠ 1

/-- R103: unpacking a packed sequence gives it back and meets no byte at or above 0x80; the converse
holds exactly for packed sequences, and so fails somewhere. -/
def Obligations.UnpackInvertsPack : Prop :=
  (∀ x : List Byte, unpack (pack x) = x ∧ highByte? (pack x) = none) ∧
  (∀ p : List Byte, highByte? p = none → (pack (unpack p) = p ↔ ∃ x, p = pack x)) ∧
  ∃ p : List Byte, highByte? p = none ∧ pack (unpack p) ≠ p

/-- Derived from R72 and R73: where each raw byte and each top-bits byte stands in the packed
sequence, bit by bit. -/
def Obligations.PackedBytesByIndex : Prop :=
  ∀ raw : List Byte,
    (∀ j, j < raw.length →
      (pack raw)[8 * (j / 7) + 1 + j % 7]? = some (raw.getD j 0 &&& 0x7F)) ∧
    (∀ g, 7 * g < raw.length → ∃ top : Byte,
      (pack raw)[8 * g]? = some top ∧
        ∀ i, i < 8 → top.getLsbD i = (decide (i < 7) && (raw.getD (7 * g + i) 0).getLsbD 7))

/-- Derived from R101 (its last sentence, that no other split works, does not hold of every pair of
sequences: of two sequences of zeros it fails, and it is stated here as "there is a split where it
is false"). -/
def Obligations.PackByteLaws : Prop :=
  (∀ raw : List Byte, ∀ b ∈ pack raw, b < 0x80#8) ∧
  pack [] = [] ∧
  (∀ raw : List Byte, (∀ b ∈ raw, b < 0x80#8) →
    (∀ g, 7 * g < raw.length → (pack raw)[8 * g]? = some 0) ∧
    ∀ j, j < raw.length → (pack raw)[8 * (j / 7) + 1 + j % 7]? = raw[j]?) ∧
  (∀ n j : Nat, j < n → (pack (List.replicate n 0xFF))[8 * (j / 7) + 1 + j % 7]? = some 0x7F) ∧
  (∀ n g : Nat, 7 * g < n → (pack (List.replicate n 0xFF))[8 * g]?
    = some (BitVec.ofNat 8 (2 ^ min 7 (n - 7 * g) - 1))) ∧
  (∀ a b : List Byte, a.length % 7 = 0 → pack (a ++ b) = pack a ++ pack b) ∧
  ∃ a b : List Byte, a.length % 7 ≠ 0 ∧ pack (a ++ b) ≠ pack a ++ pack b

/-- R106, which the spec derives from R104: the length of an unpacked sequence is a function of the
packed length. -/
def Obligations.UnpackedLengthFormula : Prop :=
  (∀ p : List Byte, (unpack p).length = rawLen p.length) ∧
  (∀ m : Nat, rawLen m = if m % 8 = 0 then 7 * (m / 8) else 7 * (m / 8) + m % 8 - 1) ∧
  rawLen 0 = 0 ∧ rawLen 1 = 0 ∧ rawLen 2 = 1 ∧ rawLen 8 = 7 ∧ rawLen 9 = 7 ∧ rawLen 10 = 8 ∧
  rawLen 92 = 80 ∧ rawLen 1171 = 1024 ∧ ∀ n : Nat, rawLen (packedLen n) = n

/-- R105, which the spec derives from R104: a lone final top-bits byte contributes nothing and
`pack` never makes one; the top-bits bits of bytes the final group does not have are never read. -/
def Obligations.UnpackAcceptsLoneAndStrayBits : Prop :=
  (∀ (q : List Byte) (t : Byte), q.length % 8 = 0 → unpack (q ++ [t]) = unpack q) ∧
  unpack [0x05] = [] ∧
  (∀ x : List Byte, (pack x).length % 8 ≠ 1) ∧
  (∀ (q ds : List Byte) (t t' : Byte), q.length % 8 = 0 → ds.length < 7 →
    (∀ i, i < ds.length → t.getLsbD i = t'.getLsbD i) →
    unpack (q ++ t :: ds) = unpack (q ++ t' :: ds)) ∧
  unpack [0x7E, 0x10] = [0x10]

/-- R111, which the spec derives from R100 and R104: the packed sequences, described byte by byte;
`unpack` is injective on them and on no more than them. -/
def Obligations.CanonicalPackedSequences : Prop :=
  (∀ p : List Byte, (∃ x, p = pack x) ↔
    (∀ b ∈ p, b < 0x80#8) ∧ p.length % 8 ≠ 1 ∧
      (p.length % 8 ≠ 0 → ∀ i, p.length % 8 - 1 ≤ i → i < 8 →
        (p.getD (8 * (p.length / 8)) 0).getLsbD i = false)) ∧
  (∀ x y : List Byte, unpack (pack x) = unpack (pack y) → pack x = pack y) ∧
  (∀ p : List Byte, (∀ b ∈ p, b < 0x80#8) → (pack (unpack p) = p ↔ ∃ x, p = pack x)) ∧
  unpack [0x05] = unpack [] ∧ unpack [] = []

/-! The FrameCodec's functions and the layer above CORE. -/

/-- R129, which the spec derives from R120, R125 and R103: parsing a frame gives its id and its raw
payload back. -/
def Obligations.ParseInvertsFrame : Prop :=
  (∀ (id : Byte) (raw : List Byte), parse (frame id raw) = .ok (id, raw)) ∧
  ∀ id : Byte, (frame id []).length = 9 ∧ parse (frame id []) = .ok (id, [])

/-- R123: the length of a frame. -/
def Obligations.FrameLength : Prop :=
  (∀ (id : Byte) (raw : List Byte), (frame id raw).length = 9 + packedLen raw.length) ∧
  9 + packedLen 0 = 9 ∧ 9 + packedLen 5 = 15 ∧ 9 + packedLen 7 = 17 ∧ 9 + packedLen 10 = 21 ∧
  9 + packedLen 80 = 101 ∧ 9 + packedLen 1024 = 1180

/-- R179, which the spec derives from R168 to R176: a structured message whose fields are in range
survives encode and DISPATCH. -/
def Obligations.DispatchInvertsEncode : Prop :=
  ∀ m : Message, messageInRange m →
    ∃ id raw, encodeMsg m = .ok (id, raw) ∧ dispatch (frame id raw) = .ok m

/-- Derived from R174, R177, R197, R198: the id is examined first, then the length, then the fields
of each entry in layout order, five in a Led entry (R175) and seven in a LedRing entry (R176). The
clauses' premises on the id and the length exclude each other, and so do the fields' cases. -/
def Obligations.SchemaDecodeErrors : Prop :=
  (∀ (id : Byte) (raw : List Byte),
    id ≠ 0x55 → id ≠ 0x53 → id ≠ 0x00 → id ≠ 0x01 → id ≠ 0x04 → id ≠ 0x02 → id ≠ 0x03 →
    decodeMsg id raw = .error (.unknownMessage id)) ∧
  (∀ (id : Byte) (raw : List Byte),
    ((id = 0x55 ∨ id = 0x53 ∨ id = 0x00) ∧ raw.length ≠ 0) ∨ (id = 0x01 ∧ raw.length % 5 ≠ 0) ∨
      (id = 0x04 ∧ raw.length % 7 ≠ 0) ∨ (id = 0x02 ∧ raw.length ≠ 1024) ∨
      (id = 0x03 ∧ raw.length ≠ 80) →
    decodeMsg id raw = .error (.invalidPayloadLength raw.length)) ∧
  (∀ (pre post : List LedEntry) (enc led r g b : Byte) (f : Field),
    (∀ e ∈ pre, ledEntryInRange e) →
    (15 < enc.toNat ∧ f = .enc) ∨ (enc.toNat ≤ 15 ∧ 15 < led.toNat ∧ f = .led) ∨
      (enc.toNat ≤ 15 ∧ led.toNat ≤ 15 ∧ 127 < r.toNat ∧ f = .r) ∨
      (enc.toNat ≤ 15 ∧ led.toNat ≤ 15 ∧ r.toNat ≤ 127 ∧ 127 < g.toNat ∧ f = .g) ∨
      (enc.toNat ≤ 15 ∧ led.toNat ≤ 15 ∧ r.toNat ≤ 127 ∧ g.toNat ≤ 127 ∧ 127 < b.toNat ∧ f = .b) →
    decodeMsg 0x01 (flattenLed pre ++ [enc, led, r, g, b] ++ flattenLed post)
      = .error (.valueOutOfRange pre.length f)) ∧
  (∀ (pre post : List LedRingEntry) (enc r g b msb lsb bip : Byte) (f : Field),
    (∀ e ∈ pre, ledRingEntryInRange e) →
    (15 < enc.toNat ∧ f = .enc) ∨ (enc.toNat ≤ 15 ∧ 127 < r.toNat ∧ f = .r) ∨
      (enc.toNat ≤ 15 ∧ r.toNat ≤ 127 ∧ 127 < g.toNat ∧ f = .g) ∨
      (enc.toNat ≤ 15 ∧ r.toNat ≤ 127 ∧ g.toNat ≤ 127 ∧ 127 < b.toNat ∧ f = .b) ∨
      (enc.toNat ≤ 15 ∧ r.toNat ≤ 127 ∧ g.toNat ≤ 127 ∧ b.toNat ≤ 127 ∧ 127 < msb.toNat ∧
        f = .msb) ∨
      (enc.toNat ≤ 15 ∧ r.toNat ≤ 127 ∧ g.toNat ≤ 127 ∧ b.toNat ≤ 127 ∧ msb.toNat ≤ 127 ∧
        127 < lsb.toNat ∧ f = .lsb) ∨
      (enc.toNat ≤ 15 ∧ r.toNat ≤ 127 ∧ g.toNat ≤ 127 ∧ b.toNat ≤ 127 ∧ msb.toNat ≤ 127 ∧
        lsb.toNat ≤ 127 ∧ 1 < bip.toNat ∧ f = .bipolar) →
    decodeMsg 0x04 (flattenLedRing pre ++ [enc, r, g, b, msb, lsb, bip] ++ flattenLedRing post)
      = .error (.valueOutOfRange pre.length f))

/-! Transactions. -/

/-- R195 and R196: what the two commits write, and that nothing else changes. -/
def Obligations.CommitsWriteTheResultAlone : Prop :=
  (∀ (s : State) (bytes : List Byte) (id : Byte), bytes.length ≤ 65535 →
    (s.commitOk bytes id).succeeded bytes id ∧ s.sameButResult (s.commitOk bytes id)) ∧
  (∀ (s : State) (f : Failure), f.info ≤ 65535 →
    (s.raise f).failedWith f.kind f.info ∧ s.sameButResult (s.raise f))

/-- BP.ENC (R108, R195): every operand that fits is packed, whatever its bytes and MSGID. -/
def Obligations.BpEncPacksItsOperand : Prop :=
  ∀ (s : State) (raw : List Byte), s.cfg.legal → s.operandIs raw →
    packedLen raw.length ≤ s.cfg.bufCap →
    ∃ t, exec .bpEnc s = .next t ∧ t.succeeded (pack raw) 0 ∧ s.sameButResult t

/-- BP.DEC (R109, R195): every operand of bytes below 0x80 that fits is unpacked. -/
def Obligations.BpDecUnpacksItsOperand : Prop :=
  ∀ (s : State) (p : List Byte), s.cfg.legal → s.operandIs p → p.length ≤ s.cfg.bufCap →
    (∀ b ∈ p, b < 0x80#8) →
    ∃ t, exec .bpDec s = .next t ∧ t.succeeded (unpack p) 0 ∧ s.sameButResult t

/-- FC.BUILD (R120, R124, R195): every payload that fits is framed with MSGID, whatever MSGID;
RMSGID is 0, not MSGID. -/
def Obligations.FcBuildFramesItsOperand : Prop :=
  ∀ (s : State) (raw : List Byte), s.cfg.legal → s.operandIs raw →
    9 + packedLen raw.length ≤ s.cfg.bufCap →
    ∃ t, exec .fcBuild s = .next t ∧
      t.succeeded ([0xF0, 0x00, 0x21, 0x5B, 0x02, 0x01, 0x06, s.msgid] ++ pack raw ++ [0xF7]) 0 ∧
      s.sameButResult t

/-- FC.PARSE (R122, R128, R195): a frame with a packed payload of bytes below 0x80 gives its id,
whichever it is, and its unpacked payload. -/
def Obligations.FcParseTakesTheFrameApart : Prop :=
  ∀ (s : State) (id : Byte) (packed : List Byte), s.cfg.legal →
    s.operandIs ([0xF0, 0x00, 0x21, 0x5B, 0x02, 0x01, 0x06, id] ++ packed ++ [0xF7]) →
    9 + packed.length ≤ s.cfg.bufCap → (∀ b ∈ packed, b < 0x80#8) →
    ∃ t, exec .fcParse s = .next t ∧ t.succeeded (unpack packed) id ∧ s.sameButResult t

/-- Derived from R126 and R127: the header checks in their order, each with its `info`, then the
category. "Nothing else is extracted": the failure commit of R196. That fewer than 9 bytes fail
whether or not they were ever written, and are not refused under R36 and R222, is the model's
reading of R126 (c) (log 20, DEDUCED). -/
def Obligations.FcParseHeaderAndCategoryFailures : Prop :=
  (∀ s : State, s.cfg.legal → s.ilen.toNat < 9 →
    ∃ t, exec .fcParse s = .next t ∧ t.failedWith .headerMismatch s.ilen.toNat ∧
      s.sameButResult t) ∧
  ∀ (s : State) (w : List Byte), s.cfg.legal → s.operandIs w → w.length ≤ s.cfg.bufCap →
    9 ≤ w.length →
    (∀ k, k < 6 → (∀ j, j < k → w[j]? = [0xF0, 0x00, 0x21, 0x5B, 0x02, 0x01][j]?) →
      w[k]? ≠ [0xF0#8, 0x00, 0x21, 0x5B, 0x02, 0x01][k]? →
      ∃ t, exec .fcParse s = .next t ∧ t.failedWith .headerMismatch k ∧ s.sameButResult t) ∧
    ((∀ j, j < 6 → w[j]? = [0xF0, 0x00, 0x21, 0x5B, 0x02, 0x01][j]?) →
      w[w.length - 1]? ≠ some 0xF7 →
      ∃ t, exec .fcParse s = .next t ∧ t.failedWith .headerMismatch (w.length - 1) ∧
        s.sameButResult t) ∧
    ((∀ j, j < 6 → w[j]? = [0xF0, 0x00, 0x21, 0x5B, 0x02, 0x01][j]?) →
      w[w.length - 1]? = some 0xF7 → w[6]? ≠ some 0x06 →
      ∃ t, exec .fcParse s = .next t ∧ t.failedWith .categoryMismatch 6 ∧ s.sameButResult t)

/-- R107: a byte at or above 0x80 in the packed region, top-bits byte or data byte, fails BP.DEC and
FC.PARSE with the index in IBUF of the lowest one. -/
def Obligations.HighPackedByteFails : Prop :=
  (∀ (s : State) (pre post : List Byte) (b : Byte), s.cfg.legal →
    s.operandIs (pre ++ b :: post) → pre.length + 1 + post.length ≤ s.cfg.bufCap →
    (∀ x ∈ pre, x < 0x80#8) → 0x80#8 ≤ b →
    ∃ t, exec .bpDec s = .next t ∧ t.failedWith .packedByteOutOfRange pre.length ∧
      s.sameButResult t) ∧
  (∀ (s : State) (id : Byte) (pre post : List Byte) (b : Byte), s.cfg.legal →
    s.operandIs ([0xF0, 0x00, 0x21, 0x5B, 0x02, 0x01, 0x06, id] ++ (pre ++ b :: post) ++ [0xF7]) →
    10 + pre.length + post.length ≤ s.cfg.bufCap → (∀ x ∈ pre, x < 0x80#8) → 0x80#8 ≤ b →
    ∃ t, exec .fcParse s = .next t ∧ t.failedWith .packedByteOutOfRange (8 + pre.length) ∧
      s.sameButResult t)

/-- R193: BufferOverflow, before anything else is examined (no premise on IBUF), with `info = ILEN`;
the other two operations' results are never longer than their operands. -/
def Obligations.BufferOverflowComesFirst : Prop :=
  (∀ (s : State) (i : Instr), s.cfg.legal →
    (s.cfg.bufCap < s.ilen.toNat ∧ i ∈ [Instr.bpEnc, .bpDec, .fcBuild, .fcParse]) ∨
      (s.cfg.bufCap < packedLen s.ilen.toNat ∧ i = .bpEnc) ∨
      (s.cfg.bufCap < 9 + packedLen s.ilen.toNat ∧ i = .fcBuild) →
    ∃ t, exec i s = .next t ∧ t.failedWith .bufferOverflow s.ilen.toNat ∧ s.sameButResult t) ∧
  (∀ p : List Byte, (unpack p).length ≤ p.length) ∧
  ∀ (w raw : List Byte) (id : Byte), parse w = .ok (id, raw) → raw.length ≤ w.length

/-- Derived from R36 and R222 ("a model refuses such a run"): a transaction whose operand holds a
byte never written since reset has no meaning, once the tests that read no byte have passed (log
20). -/
def Obligations.UnwrittenOperandIsRefused : Prop :=
  ∀ (s : State) (i : Instr) (k : Nat), k < s.ilen.toNat → s.ibuf.read k = none →
    s.ilen.toNat ≤ s.cfg.bufCap →
    (i = .bpEnc ∧ packedLen s.ilen.toNat ≤ s.cfg.bufCap) ∨ i = .bpDec ∨
      (i = .fcBuild ∧ 9 + packedLen s.ilen.toNat ≤ s.cfg.bufCap) ∨
      (i = .fcParse ∧ 9 ≤ s.ilen.toNat) →
    exec i s = .refused .unwrittenOperand

/-- R221, which the spec derives from R108, R109, R124, R128: after reset every register is 0 and no
byte of a buffer has a value, and the first accepted START with ILEN = 0 is legal for every OP. -/
def Obligations.FirstStartAfterReset : Prop :=
  (State.reset.op = 0 ∧ State.reset.msgid = 0 ∧ State.reset.ilen = 0 ∧ State.reset.busy = false ∧
    State.reset.done = false ∧ State.reset.status.code = 0 ∧ State.reset.olen = 0 ∧
    State.reset.rmsgid = 0 ∧ State.reset.errinfo = 0 ∧
    ∀ k, State.reset.ibuf.read k = none ∧ State.reset.obuf.read k = none) ∧
  ∀ (op : BitVec 2) (id : Byte),
    let s : State := ({ State.reset with op := op, msgid := id } : State).acceptStart
    (op = 0 → ∃ t, exec .bpEnc s = .next t ∧ t.succeeded [] 0) ∧
    (op = 1 → ∃ t, exec .bpDec s = .next t ∧ t.succeeded [] 0) ∧
    (op = 2 → ∃ t, exec .fcBuild s = .next t ∧
      t.succeeded [0xF0, 0x00, 0x21, 0x5B, 0x02, 0x01, 0x06, id, 0xF7] 0) ∧
    (op = 3 → ∃ t, exec .fcParse s = .next t ∧ t.failedWith .headerMismatch 0)

/-- R34, which the spec derives from R21: two transactions with the same OP, MSGID, ILEN and operand
bytes commit the same result, whatever else differs between the two states (the two machines have
the same BUF_CAP). -/
def Obligations.OperandsAloneDetermineTheResult : Prop :=
  ∀ (s s' t : State), s'.op = s.op → s'.msgid = s.msgid → s'.ilen = s.ilen →
    s'.cfg.bufCap = s.cfg.bufCap → (∀ k, k < s.ilen.toNat → s'.ibuf.read k = s.ibuf.read k) →
    runPattern (.cmd s.op) s = .next t →
    ∃ t', runPattern (.cmd s'.op) s' = .next t' ∧ t'.status = t.status ∧ t'.errinfo = t.errinfo ∧
      t'.olen = t.olen ∧ t'.rmsgid = t.rmsgid ∧ ∀ k, t'.obuf.read k = t.obuf.read k

/-- Derived from R190, R194, R200: whatever the operand, a transaction that answers ends in a
success commit or in a failure commit with one of CORE's four kinds, and leaves everything outside
the result as it was. -/
def Obligations.TransactionEndsInOneCommit : Prop :=
  ∀ (s t : State) (i : Instr), s.cfg.legal → i ∈ [Instr.bpEnc, .bpDec, .fcBuild, .fcParse] →
    exec i s = .next t →
    s.sameButResult t ∧
      ((∃ bytes id, bytes.length ≤ s.cfg.bufCap ∧ t.succeeded bytes id ∧
          (i ≠ .fcParse → id = 0)) ∨
        (∃ info, t.failedWith .bufferOverflow info) ∨
        (∃ info, i = .fcParse ∧ t.failedWith .headerMismatch info) ∨
        (i = .fcParse ∧ t.failedWith .categoryMismatch 6) ∨
        (∃ info, (i = .bpDec ∨ i = .fcParse) ∧ t.failedWith .packedByteOutOfRange info))

/-! The message rows. -/

/-- ENTER, ACK_ENTERED, EXIT (R88, R167; the line's accesses R87): with the PFE idle each builds its
9-byte frame and cannot fail (what the layer returned is a field of the model, log 13). -/
def Obligations.EnterAckExitBuildTheirFrames : Prop :=
  ∀ s : State, s.cfg.legal → s.busy = false →
    (∃ t, exec .enter s = .next t ∧ s.builds t 0x55 [] ∧
      t.resultIs [0xF0, 0x00, 0x21, 0x5B, 0x02, 0x01, 0x06, 0x55, 0xF7]) ∧
    (∃ t, exec .ackEntered s = .next t ∧ s.builds t 0x53 [] ∧
      t.resultIs [0xF0, 0x00, 0x21, 0x5B, 0x02, 0x01, 0x06, 0x53, 0xF7]) ∧
    (∃ t, exec .exit s = .next t ∧ s.builds t 0x00 [] ∧
      t.resultIs [0xF0, 0x00, 0x21, 0x5B, 0x02, 0x01, 0x06, 0x00, 0xF7])

/-- LED (R88, R168, R173): entries in range are flattened and framed where the frame fits; where
the frame or the payload does not fit, FC.BUILD's BufferOverflow comes back (R193; the layer's
answer as a field is log 13). More entries than ILEN can say are
OperandBeyondIlenOverflows. -/
def Obligations.LedBuildsOrOverflows : Prop :=
  ∀ (s : State) (es : List LedEntry), s.cfg.legal → s.ibuf.wf → s.busy = false →
    (∀ e ∈ es, ledEntryInRange e) → 5 * es.length ≤ 65535 →
    let raw : List Byte := es.flatMap fun e =>
      [BitVec.ofNat 8 e.enc, BitVec.ofNat 8 e.led, BitVec.ofNat 8 e.r, BitVec.ofNat 8 e.g,
        BitVec.ofNat 8 e.b]
    (9 + packedLen (5 * es.length) ≤ s.cfg.bufCap →
      ∃ t, exec (.led es) s = .next t ∧ s.builds t 0x01 raw) ∧
    (s.cfg.bufCap < 9 + packedLen (5 * es.length) →
      ∃ t, exec (.led es) s = .next t ∧ s.buildOverflows t 0x01 raw)

/-- LEDRING (R88, R166, R169, R173): as LED, with the ring amount as two 7-bit bytes, the most
significant first (the layer's answer as a field is log 13). More entries than ILEN can say are
OperandBeyondIlenOverflows. -/
def Obligations.LedRingBuildsOrOverflows : Prop :=
  ∀ (s : State) (es : List LedRingEntry), s.cfg.legal → s.ibuf.wf → s.busy = false →
    (∀ e ∈ es, ledRingEntryInRange e) → 7 * es.length ≤ 65535 →
    let raw : List Byte := es.flatMap fun e =>
      [BitVec.ofNat 8 e.enc, BitVec.ofNat 8 e.r, BitVec.ofNat 8 e.g, BitVec.ofNat 8 e.b,
        BitVec.ofNat 8 (e.ringAmount / 128), BitVec.ofNat 8 (e.ringAmount % 128),
        if e.bipolar then 1 else 0]
    (9 + packedLen (7 * es.length) ≤ s.cfg.bufCap →
      ∃ t, exec (.ledRing es) s = .next t ∧ s.builds t 0x04 raw) ∧
    (s.cfg.bufCap < 9 + packedLen (7 * es.length) →
      ∃ t, exec (.ledRing es) s = .next t ∧ s.buildOverflows t 0x04 raw)

/-- OLEDFB and OLEDLABELS (R88, R170): records of the right shape always fit (R10: BUF_CAP is at
least 1180) and are framed (the layer's answer as a field is log 13). -/
def Obligations.OledRowsBuildTheirFrames : Prop :=
  (∀ (s : State) (fb : List Byte), s.cfg.legal → s.ibuf.wf → s.busy = false → fb.length = 1024 →
    ∃ t, exec (.oledFb fb) s = .next t ∧ s.builds t 0x02 fb ∧ t.olen.toNat = 1180) ∧
  (∀ (s : State) (title : List Byte) (labels : List (List Byte)), s.cfg.legal → s.ibuf.wf →
    s.busy = false → title.length = 16 → labels.length = 16 → (∀ l ∈ labels, l.length = 4) →
    ∃ t, exec (.oledLabels title labels) s = .next t ∧
      s.builds t 0x03 (title ++ labels.flatten) ∧ t.olen.toNat = 101)

/-- R161, R168, R170 (derived; the length an encode-time error carries is log 18): a record that
fails validation produces no byte: only the layer's answer changes. It names the first entry in list
order and its first field in layout order. -/
def Obligations.InvalidRecordsProduceNothing : Prop :=
  (∀ (s : State) (pre post : List LedEntry) (e : LedEntry) (f : Field),
    (∀ x ∈ pre, ledEntryInRange x) →
    (15 < e.enc ∧ f = .enc) ∨ (e.enc ≤ 15 ∧ 15 < e.led ∧ f = .led) ∨
      (e.enc ≤ 15 ∧ e.led ≤ 15 ∧ 127 < e.r ∧ f = .r) ∨
      (e.enc ≤ 15 ∧ e.led ≤ 15 ∧ e.r ≤ 127 ∧ 127 < e.g ∧ f = .g) ∨
      (e.enc ≤ 15 ∧ e.led ≤ 15 ∧ e.r ≤ 127 ∧ e.g ≤ 127 ∧ 127 < e.b ∧ f = .b) →
    exec (.led (pre ++ e :: post)) s
      = .next { s with layer := .failed (.valueOutOfRange pre.length f) }) ∧
  (∀ (s : State) (pre post : List LedRingEntry) (e : LedRingEntry) (f : Field),
    (∀ x ∈ pre, ledRingEntryInRange x) →
    (15 < e.enc ∧ f = .enc) ∨ (e.enc ≤ 15 ∧ 127 < e.r ∧ f = .r) ∨
      (e.enc ≤ 15 ∧ e.r ≤ 127 ∧ 127 < e.g ∧ f = .g) ∨
      (e.enc ≤ 15 ∧ e.r ≤ 127 ∧ e.g ≤ 127 ∧ 127 < e.b ∧ f = .b) ∨
      (e.enc ≤ 15 ∧ e.r ≤ 127 ∧ e.g ≤ 127 ∧ e.b ≤ 127 ∧ 16383 < e.ringAmount ∧
        f = .ringAmount) →
    exec (.ledRing (pre ++ e :: post)) s
      = .next { s with layer := .failed (.valueOutOfRange pre.length f) }) ∧
  (∀ (s : State) (fb : List Byte), fb.length ≠ 1024 →
    exec (.oledFb fb) s = .next { s with layer := .failed (.invalidPayloadLength fb.length) }) ∧
  (∀ (s : State) (title : List Byte) (labels : List (List Byte)),
    ¬(title.length = 16 ∧ labels.length = 16 ∧ ∀ l ∈ labels, l.length = 4) →
    exec (.oledLabels title labels) s
      = .next { s with
          layer := .failed (.invalidPayloadLength (title ++ labels.flatten).length) })

/-- FRAME (R75, R128; that the row is handed to FC.PARSE is log 12): the wire bytes go to IBUF, OP
to FC.PARSE, ILEN to the length, and the transaction takes the frame apart, reports its lowest
byte at or above 0x80, or overflows. MSGID is not written. Longer frames than ILEN can say are
OperandBeyondIlenOverflows. -/
def Obligations.FrameRowIsParsed : Prop :=
  ∀ (s : State) (id : Byte) (packed : List Byte), s.cfg.legal → s.ibuf.wf → s.busy = false →
    9 + packed.length ≤ 65535 →
    let w : List Byte := [0xF0, 0x00, 0x21, 0x5B, 0x02, 0x01, 0x06, id] ++ packed ++ [0xF7]
    ∃ t, exec (.frame id packed) s = .next t ∧
      t.op = 3 ∧ t.msgid = s.msgid ∧ t.ilen.toNat = 9 + packed.length ∧
      (∀ k, t.ibuf.read k
        = if k < w.length ∧ k < s.cfg.bufCap then w[k]? else s.ibuf.read k) ∧
      t.layer = s.layer ∧ t.rdata = none ∧ s.sameBesidePfe t ∧
      (s.cfg.bufCap < 9 + packed.length → t.failedWith .bufferOverflow (9 + packed.length)) ∧
      (9 + packed.length ≤ s.cfg.bufCap → (∀ b ∈ packed, b < 0x80#8) →
        t.succeeded (unpack packed) id) ∧
      (9 + packed.length ≤ s.cfg.bufCap → ∀ (pre post : List Byte) (b : Byte),
        packed = pre ++ b :: post → (∀ x ∈ pre, x < 0x80#8) → 0x80#8 ≤ b →
        t.failedWith .packedByteOutOfRange (8 + pre.length))

/-- GROUP (R72, R100; that the row is the line `BP.ENC [raw]` is log 11): the result is the one
group of R72's figure, bit by bit. MSGID is not written. -/
def Obligations.GroupRowIsPacked : Prop :=
  ∀ (s : State) (raw : List Byte), s.cfg.legal → s.ibuf.wf → s.busy = false → 1 ≤ raw.length →
    raw.length ≤ 7 →
    ∃ t top, exec (.group raw) s = .next t ∧
      t.succeeded (top :: raw.map (fun b => b &&& 0x7F)) 0 ∧
      (∀ i, i < 8 → top.getLsbD i = (decide (i < 7) && (raw.getD i 0).getLsbD 7)) ∧
      t.op = 0 ∧ t.msgid = s.msgid ∧ t.ilen.toNat = raw.length ∧
      (∀ k, t.ibuf.read k = if k < raw.length then raw[k]? else s.ibuf.read k) ∧
      t.layer = s.layer ∧ t.rdata = none ∧ s.sameBesidePfe t

/-- Derived from R81 (b) and (c), R107, R126, R127, R193 (that such bytes are handed to FC.PARSE and
BP.DEC is log 14, the model's choice): a wire buffer that `parse` rejects makes the failure commit
that `parse` names, bytes named as a group with one at or above 0x80 make BP.DEC's; where they are
more than BUF_CAP, the commit is BufferOverflow. -/
def Obligations.IllegalBytesMakeTheirFailureCommit : Prop :=
  (∀ (s : State) (rest : List HostAction) (w : List Byte) (f : Failure),
    s.inbox = .frameRow w :: rest → s.cfg.legal → s.ibuf.wf → s.busy = false →
    w.length ≤ 65535 → parse w = .error f →
    ∃ t, step s = .next t ∧
      (w.length ≤ s.cfg.bufCap → t.failedWith f.kind f.info) ∧
      (s.cfg.bufCap < w.length → t.failedWith .bufferOverflow w.length) ∧
      t.op = 3 ∧ t.msgid = s.msgid ∧ t.ilen.toNat = w.length ∧
      (∀ k, t.ibuf.read k
        = if k < w.length ∧ k < s.cfg.bufCap then w[k]? else s.ibuf.read k) ∧
      t.layer = s.layer ∧ t.rdata = none ∧ ({ s with inbox := rest } : State).sameBesidePfe t) ∧
  (∀ (s : State) (rest : List HostAction) (w pre post : List Byte) (b : Byte),
    s.inbox = .groupRow w :: rest → s.cfg.legal → s.ibuf.wf → s.busy = false →
    w.length ≤ 65535 → w = pre ++ b :: post → (∀ x ∈ pre, x < 0x80#8) → 0x80#8 ≤ b →
    ∃ t, step s = .next t ∧
      (w.length ≤ s.cfg.bufCap → t.failedWith .packedByteOutOfRange pre.length) ∧
      (s.cfg.bufCap < w.length → t.failedWith .bufferOverflow w.length) ∧
      t.op = 1 ∧ t.msgid = s.msgid ∧ t.ilen.toNat = w.length ∧
      (∀ k, t.ibuf.read k
        = if k < w.length ∧ k < s.cfg.bufCap then w[k]? else s.ibuf.read k) ∧
      t.layer = s.layer ∧ t.rdata = none ∧ ({ s with inbox := rest } : State).sameBesidePfe t)

/-- Derived from R81 (b), R104, R105, R109, R193 (that such bytes are handed to BP.DEC is log 14,
the model's choice): bytes below 0x80 named as a group that are none, for their length or for a
stray top-bits bit, are legal to BP.DEC and commit their unpacking, or BufferOverflow where they are
more than BUF_CAP. -/
def Obligations.GroupBytesOfNoRowAreUnpacked : Prop :=
  ∀ (s : State) (rest : List HostAction) (w : List Byte),
    s.inbox = .groupRow w :: rest → s.cfg.legal → s.ibuf.wf → s.busy = false →
    w.length ≤ 65535 → (∀ b ∈ w, b < 0x80#8) →
    w.length < 2 ∨ 8 < w.length ∨
      (∃ i, w.length - 1 ≤ i ∧ i < 7 ∧ (w.getD 0 0).getLsbD i = true) →
    (∃ why, decode (.group w) = .error why) ∧
    ∃ t, step s = .next t ∧
      (w.length ≤ s.cfg.bufCap → t.succeeded (unpack w) 0) ∧
      (s.cfg.bufCap < w.length → t.failedWith .bufferOverflow w.length) ∧
      t.op = 1 ∧ t.msgid = s.msgid ∧ t.ilen.toNat = w.length ∧
      (∀ k, t.ibuf.read k
        = if k < w.length ∧ k < s.cfg.bufCap then w[k]? else s.ibuf.read k) ∧
      t.layer = s.layer ∧ t.rdata = none ∧ ({ s with inbox := rest } : State).sameBesidePfe t

/-- Derived from R87 and R225 (log 10): a row begun while a transaction runs loses its writes and
its START, whatever its length; what commits is the transaction that was running, on its own
operands. -/
def Obligations.RowsBegunWhileBusyAreLost : Prop :=
  ∀ s : State, s.busy = true →
    (∀ raw : List Byte,
      exec (.group raw) s = runPattern (.cmd s.op) { s with rdata := none }) ∧
    (∀ (id : Byte) (packed : List Byte),
      exec (.frame id packed) s = runPattern (.cmd s.op) { s with rdata := none }) ∧
    (∀ (m : Message) (id : Byte) (raw : List Byte) (t : State), encodeMsg m = .ok (id, raw) →
      runPattern (.cmd s.op) { s with rdata := none } = .next t →
      exec (rowOfMessage m) s = .next { t with layer := t.buildResult })

/-- Derived from R193, R21, R27, R50, R161 and decision D11 (which free value ILEN takes is log
26, the model's choice): with the PFE idle, an operand of more bytes than ILEN can say is longer
than any buffer, and the transaction on the ILEN its line leaves fails with BufferOverflow. No
frame of a part of it is built, at any BUF_CAP. Where BUF_CAP is 65535 no ILEN makes BP.DEC and
FC.PARSE overflow (R193): there the transaction is the one R21 gives on the ILEN it finds (log
26). A row may carry the operand, or the host may name it as a group or a frame that it is not
(log 14). -/
def Obligations.OperandBeyondIlenOverflows : Prop :=
  ∀ s : State, s.cfg.legal → s.ibuf.wf → s.busy = false →
    (∀ raw : List Byte, 65535 < raw.length →
      ∃ t, exec (.group raw) s = .next t ∧ s.wroteLongLine t 0 0 raw ∧ t.layer = s.layer ∧
        t.failedWith .bufferOverflow t.ilen.toNat) ∧
    (∀ (id : Byte) (packed : List Byte), 65535 < 9 + packed.length →
      let w : List Byte := [0xF0, 0x00, 0x21, 0x5B, 0x02, 0x01, 0x06, id] ++ packed ++ [0xF7]
      ∃ t, exec (.frame id packed) s = .next t ∧ s.wroteLongLine t 3 0 w ∧ t.layer = s.layer ∧
        t.committed ∧
        (s.cfg.bufCap < 65535 → t.failedWith .bufferOverflow t.ilen.toNat) ∧
        (s.cfg.bufCap = 65535 →
          (∀ i raw, parse (w.take t.ilen.toNat) = .ok (i, raw) → t.succeeded raw i) ∧
          ∀ f, parse (w.take t.ilen.toNat) = .error f → t.failedWith f.kind f.info)) ∧
    (∀ es : List LedEntry, (∀ e ∈ es, ledEntryInRange e) → 65535 < 5 * es.length →
      ∃ t, exec (.led es) s = .next t ∧ s.wroteLongLine t 2 0x01 (flattenLed es) ∧
        t.failedWith .bufferOverflow t.ilen.toNat ∧
        t.layer = .failed (.core ⟨.bufferOverflow, t.ilen.toNat⟩)) ∧
    (∀ es : List LedRingEntry, (∀ e ∈ es, ledRingEntryInRange e) → 65535 < 7 * es.length →
      ∃ t, exec (.ledRing es) s = .next t ∧ s.wroteLongLine t 2 0x04 (flattenLedRing es) ∧
        t.failedWith .bufferOverflow t.ilen.toNat ∧
        t.layer = .failed (.core ⟨.bufferOverflow, t.ilen.toNat⟩)) ∧
    (∀ (w : List Byte) (rest : List HostAction), s.inbox = .groupRow w :: rest →
      65535 < w.length →
      ∃ t, step s = .next t ∧ ({ s with inbox := rest } : State).wroteLongLine t 1 0 w ∧
        t.layer = s.layer ∧ t.committed ∧
        (s.cfg.bufCap < 65535 → t.failedWith .bufferOverflow t.ilen.toNat) ∧
        (s.cfg.bufCap = 65535 →
          (highByte? (w.take t.ilen.toNat) = none →
            t.succeeded (unpack (w.take t.ilen.toNat)) 0) ∧
          ∀ k, highByte? (w.take t.ilen.toNat) = some k →
            t.failedWith .packedByteOutOfRange k)) ∧
    (∀ (w : List Byte) (rest : List HostAction) (why : Reject), s.inbox = .frameRow w :: rest →
      decode (.frame w) = .error why → 65535 < w.length →
      ∃ t, step s = .next t ∧ ({ s with inbox := rest } : State).wroteLongLine t 3 0 w ∧
        t.layer = s.layer ∧ t.committed ∧
        (s.cfg.bufCap < 65535 → t.failedWith .bufferOverflow t.ilen.toNat) ∧
        (s.cfg.bufCap = 65535 →
          (∀ i raw, parse (w.take t.ilen.toNat) = .ok (i, raw) → t.succeeded raw i) ∧
          ∀ f, parse (w.take t.ilen.toNat) = .error f → t.failedWith f.kind f.info))

/-! The DED. -/

/-- R146 (with R140, R141, R80 for the index and the two readings; the status byte is log 15):
ENC.TURN drives both readings and flags them; a consumer's delta is the one ENC_RESOLVE names, or
one of the two. Nothing of the PFE changes. -/
def Obligations.EncoderTurnDrivesBothReadings : Prop :=
  (∀ st d1 d2 : Byte, (dedDecode st d1 d2).ambig = true ↔ (dedDecode st d1 d2).kind = .encTurn) ∧
  ∀ (s : State) (c v : BitVec 7), 1 ≤ c.toNat → c.toNat ≤ 16 → 1 ≤ v.toNat → v.toNat ≤ 15 →
    ∃ t, exec (.encTurn c v) s = .next t ∧
      t.ev.valid = true ∧ t.ev.kind = .encTurn ∧ t.ev.index.toNat = c.toNat - 1 ∧
      t.ev.pressed = false ∧ t.ev.delta.toInt = v.toNat ∧ t.ev.deltaAlt.toInt = v.toNat - 16 ∧
      t.ev.ambig = true ∧ t.ev.raw = v ∧
      (s.cfg.encResolve = .cw → t.eventDeltas = [t.ev.delta]) ∧
      (s.cfg.encResolve = .ccw → t.eventDeltas = [t.ev.deltaAlt]) ∧
      (s.cfg.encResolve = .both → t.eventDeltas = [t.ev.delta, t.ev.deltaAlt]) ∧
      t.cm = ⟨true, 0xB0, c.setWidth 8, v.setWidth 8⟩ ∧ s.samePfe t ∧ t.draws = s.draws

/-- R147 (the status byte is log 15): the encoder values without a meaning are reported with the
index and the raw value, both deltas 0, and give a consumer no delta. -/
def Obligations.EncoderUndefinedValueHasNoDelta : Prop :=
  ∀ (s : State) (c v : BitVec 7), 1 ≤ c.toNat → c.toNat ≤ 16 → v.toNat = 0 ∨ 16 ≤ v.toNat →
    ∃ t, exec (.encUndef c v) s = .next t ∧
      t.ev.valid = true ∧ t.ev.kind = .encUndef ∧ t.ev.index.toNat = c.toNat - 1 ∧
      t.ev.pressed = false ∧ t.ev.delta = 0 ∧ t.ev.deltaAlt = 0 ∧ t.ev.ambig = false ∧
      t.ev.raw = v ∧ t.eventDeltas = [] ∧
      t.cm = ⟨true, 0xB0, c.setWidth 8, v.setWidth 8⟩ ∧ s.samePfe t ∧ t.draws = s.draws

/-- R142 (the status bytes are log 15): the three button rows. A Note On with a velocity is a press,
a Note On with velocity 0 and any Note Off are releases; note 16 is SHIFT. -/
def Obligations.ButtonRowsReportPressAndRelease : Prop :=
  ∀ (s : State) (n v : BitVec 7), n.toNat ≤ 16 →
    (1 ≤ v.toNat → ∃ t, exec (.btnPress n v) s = .next t ∧
      t.ev = ⟨true, .button, n.setWidth 5, true, 0, 0, false, 0⟩ ∧ t.ev.index.toNat = n.toNat ∧
      t.cm = ⟨true, 0x90, n.setWidth 8, v.setWidth 8⟩ ∧ s.samePfe t ∧ t.draws = s.draws) ∧
    (∃ t, exec (.btnRel0 n) s = .next t ∧
      t.ev = ⟨true, .button, n.setWidth 5, false, 0, 0, false, 0⟩ ∧ t.ev.index.toNat = n.toNat ∧
      t.cm = ⟨true, 0x90, n.setWidth 8, 0⟩ ∧ s.samePfe t ∧ t.draws = s.draws) ∧
    (∃ t, exec (.btnRel n v) s = .next t ∧
      t.ev = ⟨true, .button, n.setWidth 5, false, 0, 0, false, 0⟩ ∧ t.ev.index.toNat = n.toNat ∧
      t.cm = ⟨true, 0x80, n.setWidth 8, v.setWidth 8⟩ ∧ s.samePfe t ∧ t.draws = s.draws)

/-- R143 (the status bytes are log 15): every other message is passed: no event, and its three bytes
stay at the inputs for the caller. -/
def Obligations.OtherMessagesPassThrough : Prop :=
  ∀ (s : State) (st d1 d2 : Byte),
    ¬(d1.toNat < 128 ∧ d2.toNat < 128 ∧
      ((st = 0xB0 ∧ 1 ≤ d1.toNat ∧ d1.toNat ≤ 16) ∨
        ((st = 0x90 ∨ st = 0x80) ∧ d1.toNat ≤ 16))) →
    ∃ t, exec (.pass st d1 d2) s = .next t ∧
      t.ev = ⟨true, .pass, 0, false, 0, 0, false, 0⟩ ∧ t.cm = ⟨true, st, d1, d2⟩ ∧
      s.samePfe t ∧ t.draws = s.draws

/-- R79 (its status bytes are log 15): the decoder's answer for each class of channel message, by
the table's ranges. -/
def Obligations.ChannelMessageClasses : Prop :=
  ∀ st d1 d2 : Byte,
    let o := dedDecode st d1 d2
    (st = 0xB0 → 1 ≤ d1.toNat → d1.toNat ≤ 16 → 1 ≤ d2.toNat → d2.toNat ≤ 15 →
      o.kind = .encTurn ∧ o.index.toNat = d1.toNat - 1) ∧
    (st = 0xB0 → 1 ≤ d1.toNat → d1.toNat ≤ 16 →
      d2.toNat = 0 ∨ (16 ≤ d2.toNat ∧ d2.toNat ≤ 127) →
      o.kind = .encUndef ∧ o.index.toNat = d1.toNat - 1) ∧
    (st = 0x90 → d1.toNat ≤ 16 → 1 ≤ d2.toNat → d2.toNat ≤ 127 →
      o.kind = .button ∧ o.index.toNat = d1.toNat ∧ o.pressed = true) ∧
    (st = 0x90 → d1.toNat ≤ 16 → d2.toNat = 0 →
      o.kind = .button ∧ o.index.toNat = d1.toNat ∧ o.pressed = false) ∧
    (st = 0x80 → d1.toNat ≤ 16 → d2.toNat ≤ 127 →
      o.kind = .button ∧ o.index.toNat = d1.toNat ∧ o.pressed = false) ∧
    (¬(d2.toNat ≤ 127 ∧ ((st = 0xB0 ∧ 1 ≤ d1.toNat ∧ d1.toNat ≤ 16) ∨
        ((st = 0x90 ∨ st = 0x80) ∧ d1.toNat ≤ 16))) → o.kind = .pass)

/-- R148, which the spec derives from R144 (the status bytes are log 15): the output is one function
of the present input, its ranges, and how many of the 2^24 inputs give each kind. -/
def Obligations.DecoderLaws : Prop :=
  (∀ (s s' : State) (st d1 d2 : Byte),
    (s.present st d1 d2).ev = (s'.present st d1 d2).ev) ∧
  (∀ st d1 d2 : Byte,
    let o := dedDecode st d1 d2
    (o.kind = .encTurn ∨ o.kind = .encUndef → o.index.toNat ≤ 15) ∧
    (o.kind = .button → o.index.toNat ≤ 16) ∧
    (o.kind = .encTurn → o.delta.toInt - o.deltaAlt.toInt = 16)) ∧
  (Finset.univ.filter (fun x : Byte × Byte × Byte =>
    (dedDecode x.1 x.2.1 x.2.2).kind = .encTurn)).card = 240 ∧
  (Finset.univ.filter (fun x : Byte × Byte × Byte =>
    (dedDecode x.1 x.2.1 x.2.2).kind = .encUndef)).card = 1808 ∧
  (Finset.univ.filter (fun x : Byte × Byte × Byte =>
    (dedDecode x.1 x.2.1 x.2.2).kind = .button)).card = 4352 ∧
  (Finset.univ.filter (fun x : Byte × Byte × Byte =>
    (dedDecode x.1 x.2.1 x.2.2).pressed = true)).card = 2159 ∧
  (Finset.univ.filter (fun x : Byte × Byte × Byte =>
    (dedDecode x.1 x.2.1 x.2.2).kind = .pass)).card = 16770816

/-- R145, which the spec derives from R144 (the status bytes are log 15): the decoder over raw bytes
and the decoder over a classified input agree on every status byte and every pair of data bytes. -/
def Obligations.ClassifiedDecoderAgrees : Prop :=
  ∀ (st : Byte) (d1 d2 : BitVec 7), st.msb = true →
    dedDecode st (d1.setWidth 8) (d2.setWidth 8)
      = dedClassified (ChType.ofStatus st) (st.setWidth 4) d1 d2

/-- R20, R33 (derived): the two units share no state. A clock edge changes nothing of the DED; a
change at the DED's inputs changes nothing of the PFE; with `cm_valid` low `ev_valid` is low. -/
def Obligations.UnitsShareNothing : Prop :=
  (∀ (s t : State) (c : BusCycle), clockEdge c s = .next t → t.cm = s.cm ∧ t.ev = s.ev) ∧
  (∀ (s : State) (rest : List HostAction) (st d1 d2 : Byte),
    s.inbox = .drive true st d1 d2 :: rest →
    ∃ t, step s = .next t ∧ t.cm = ⟨true, st, d1, d2⟩ ∧ t.ev = dedDecode st d1 d2 ∧
      ({ s with inbox := rest } : State).samePfe t) ∧
  (∀ (s : State) (rest : List HostAction) (st d1 d2 : Byte),
    s.inbox = .drive false st d1 d2 :: rest →
    ∃ t, step s = .next t ∧ t.cm = ⟨false, st, d1, d2⟩ ∧ t.ev.valid = false ∧
      ({ s with inbox := rest } : State).samePfe t)

/-! The step and the host port. -/

/-- A step runs the decoded instruction (R23, R26, R57; how an action comes to be there is log 4,
the wait is log 5): the operation in OP at the edge at which a running transaction's wait is over
(with the host's access of that edge around it), the channel message at the DED's inputs, the frame
and the group the host names. (The lines of R87 are LineIsTheTransactionOpSelects.) -/
def Obligations.StepRunsTheDecodedInstruction : Prop :=
  (∀ (s : State) (i : Instr), s.inbox = [] → s.busy = true → s.left = 0 →
    decode (.cmd s.op) = .ok i → step s = exec i { s with rdata := none }) ∧
  (∀ (s : State) (c : BusCycle) (rest : List HostAction) (i : Instr), s.inbox = .cycle c :: rest →
    s.busy = true → s.left = 0 → c.rst = false → decode (.cmd s.op) = .ok i →
    step s = exec i (({ s with inbox := rest } : State).busAccess c)) ∧
  (∀ (s : State) (st d1 d2 : Byte) (rest : List HostAction) (i : Instr),
    s.inbox = .drive true st d1 d2 :: rest → decode (.chmsg st d1 d2) = .ok i →
    step s = exec i { s with inbox := rest }) ∧
  (∀ (s : State) (w : List Byte) (rest : List HostAction) (i : Instr),
    s.inbox = .frameRow w :: rest → decode (.frame w) = .ok i →
    step s = exec i { s with inbox := rest }) ∧
  (∀ (s : State) (w : List Byte) (rest : List HostAction) (i : Instr),
    s.inbox = .groupRow w :: rest → decode (.group w) = .ok i →
    step s = exec i { s with inbox := rest })

/-- Derived from R28: a write of any value to START while BUSY is 0 sets BUSY, clears DONE and
changes nothing else of the machine but the model's own `left`, which takes the wait of T_OP (log 5,
DESIGN CHOICE), and `bus_rdata`, not valid after a write (log 17, DEDUCED); while BUSY it is
ignored, and the wait goes on or the transaction commits (log 5); a read gives 0 and changes nothing
else of the machine but the count of free values (log 7). -/
def Obligations.StartStrobe : Prop :=
  (∀ (s : State) (v : Half), s.busy = false →
    clockEdge { sel := 0, addr := 3, we := true, wdata := v } s
      = .next { s with
          busy := true, done := false, rdata := none, left := Config.waitEdges s.op s.ilen }) ∧
  (∀ (s : State) (v : Half), s.busy = true → 0 < s.left →
    clockEdge { sel := 0, addr := 3, we := true, wdata := v } s
      = .next { s with rdata := none, left := s.left - 1 }) ∧
  (∀ (s : State) (v : Half), s.busy = true → s.left = 0 →
    clockEdge { sel := 0, addr := 3, we := true, wdata := v } s
      = runPattern (.cmd s.op) { s with rdata := none }) ∧
  ∀ s : State,
    (s.busAccess { sel := 0, addr := 3, re := true }).rdata = some 0 ∧
    (s.busy = false → clockEdge { sel := 0, addr := 3, re := true } s
      = .next { s with rdata := some 0, draws := s.draws + 1 }) ∧
    (s.busy = true → 0 < s.left → clockEdge { sel := 0, addr := 3, re := true } s
      = .next { s with rdata := some 0, draws := s.draws + 1, left := s.left - 1 }) ∧
    (s.busy = true → s.left = 0 → clockEdge { sel := 0, addr := 3, re := true } s
      = runPattern (.cmd s.op) { s with rdata := some 0, draws := s.draws + 1 })

/-- Derived from R25, R27, R50, R56: the writable registers and IBUF, written with the PFE idle,
take the value cut to their width and nothing else changes; read-only registers, missing registers,
OBUF and indices beyond BUF_CAP ignore a write. -/
def Obligations.HostWritesWhileIdle : Prop :=
  ∀ (s : State) (a v : Half), s.busy = false →
    (a = 0 → clockEdge { sel := 0, addr := a, we := true, wdata := v } s
      = .next { s with rdata := none, op := v.setWidth 2 }) ∧
    (a = 1 → clockEdge { sel := 0, addr := a, we := true, wdata := v } s
      = .next { s with rdata := none, msgid := v.setWidth 8 }) ∧
    (a = 2 → clockEdge { sel := 0, addr := a, we := true, wdata := v } s
      = .next { s with rdata := none, ilen := v }) ∧
    (4 ≤ a.toNat → clockEdge { sel := 0, addr := a, we := true, wdata := v } s
      = .next { s with rdata := none }) ∧
    (a.toNat < s.cfg.bufCap → s.ibuf.wf → ∃ m : Memory,
      clockEdge { sel := 1, addr := a, we := true, wdata := v } s
        = .next { s with rdata := none, ibuf := m } ∧ m.wf ∧
      ∀ k, m.read k = if k = a.toNat then some (v.setWidth 8) else s.ibuf.read k) ∧
    (s.cfg.bufCap ≤ a.toNat → clockEdge { sel := 1, addr := a, we := true, wdata := v } s
      = .next { s with rdata := none }) ∧
    clockEdge { sel := 2, addr := a, we := true, wdata := v } s = .next { s with rdata := none }

/-- Derived from R59 and R225 (its second part, on writes while BUSY): whatever the host writes and
wherever, while a transaction runs, is not applied, at once or later. What the edge does beside that
is the model's: it takes one from the wait while edges are left, and commits when none is (log 5,
DESIGN CHOICE), and `bus_rdata` is not valid after it (log 17, DEDUCED). -/
def Obligations.HostWritesWhileBusyAreIgnored : Prop :=
  ∀ (s : State) (c : BusCycle), s.busy = true → c.rst = false → c.we = true →
    (0 < s.left → clockEdge c s = .next { s with rdata := none, left := s.left - 1 }) ∧
    (s.left = 0 → clockEdge c s = runPattern (.cmd s.op) { s with rdata := none })

/-- Derived from R25, R29, R30, R50, R56, R226, R227: what a read gives. With the PFE idle every
register reads its value, zero-extended, and the bytes of IBUF and OBUF that have one read it. While
BUSY the operands still read so, BUSY and DONE read right, and the bits of STAT that hold no field
read 0. A read changes nothing but `bus_rdata` and the count of free values (log 7). The clock edge
with `bus_re` makes that read: idle it does nothing else; while BUSY the wait goes on, or the
transaction commits after the read (log 5). -/
def Obligations.HostReads : Prop :=
  ∀ (s : State) (sel : BitVec 2) (a : Half),
    ∃ (x : Half) (t : State),
      t = (if sel = 3 then { s with rdata := none }
        else { s with rdata := some x, draws := s.draws + 1 }) ∧
      s.busAccess { sel := sel, addr := a, re := true } = t ∧
      (s.busy = false → clockEdge { sel := sel, addr := a, re := true } s = .next t) ∧
      (s.busy = true → 0 < s.left →
        clockEdge { sel := sel, addr := a, re := true } s
          = .next { t with left := s.left - 1 }) ∧
      (s.busy = true → s.left = 0 →
        clockEdge { sel := sel, addr := a, re := true } s = runPattern (.cmd s.op) t) ∧
      (sel = 0 → a = 0 → x = s.op.setWidth 16) ∧
      (sel = 0 → a = 1 → x = s.msgid.setWidth 16) ∧
      (sel = 0 → a = 2 → x = s.ilen) ∧
      (sel = 0 → a = 3 → x = 0) ∧
      (sel = 0 → a = 4 → x.getLsbD 0 = s.busy ∧ x.getLsbD 1 = s.done ∧
        x.getLsbD 2 = false ∧ x.getLsbD 3 = false ∧ (∀ i, 8 ≤ i → x.getLsbD i = false) ∧
        (s.busy = false → ∀ i, i < 4 → x.getLsbD (4 + i) = s.status.code.getLsbD i)) ∧
      (sel = 0 → a = 5 → s.busy = false → x = s.olen) ∧
      (sel = 0 → a = 6 → s.busy = false → x = s.rmsgid.setWidth 16) ∧
      (sel = 0 → a = 7 → s.busy = false → x = s.errinfo) ∧
      (sel = 0 → 8 ≤ a.toNat → x = 0) ∧
      (∀ b, sel = 1 → a.toNat < s.cfg.bufCap → s.ibuf.read a.toNat = some b →
        x = b.setWidth 16) ∧
      (∀ b, sel = 2 → a.toNat < s.cfg.bufCap → s.busy = false → s.obuf.read a.toNat = some b →
        x = b.setWidth 16)

/-- Derived from R220: the reset edge makes every register and status bit 0, commits nothing, leaves
both buffers unspecified and touches nothing of the DED. The model's own readings: reset wins over
an access and over a commit at the same edge, and the layer's answer, the host's list and the count
of free values stay (log 21); `bus_rdata` is not valid after it (log 17); an unspecified byte has no
value in IBUF (log 8) or OBUF (log 9); nothing is left to wait for (log 5). -/
def Obligations.ResetEdgeClearsThePfe : Prop :=
  ∀ (s : State) (c : BusCycle), c.rst = true →
    ∃ t, clockEdge c s = .next t ∧ t.op = 0 ∧ t.msgid = 0 ∧ t.ilen = 0 ∧ t.busy = false ∧
      t.done = false ∧ t.status = .ok ∧ t.olen = 0 ∧ t.rmsgid = 0 ∧ t.errinfo = 0 ∧
      (∀ k, t.ibuf.read k = none) ∧ (∀ k, t.obuf.read k = none) ∧
      t.rdata = none ∧ t.left = 0 ∧ t.draws = s.draws ∧ t.cm = s.cm ∧ t.ev = s.ev ∧
      t.cfg = s.cfg ∧ t.layer = s.layer ∧ t.inbox = s.inbox

/-- Derived from R190 and R229: a running transaction whose operand bytes are all written always
commits, after the edges its wait has left and one more; until then it is running. The wait as a
count of edges is the model's (log 5). -/
def Obligations.RunningTransactionCommits : Prop :=
  ∀ s : State, s.busy = true → s.inbox = [] →
    (∀ k, k < s.ilen.toNat → ∃ b, s.ibuf.read k = some b) →
    (∃ t, core.run (s.left + 1) s = .next t ∧ t.committed ∧
      t.op = s.op ∧ t.msgid = s.msgid ∧ t.ilen = s.ilen ∧
      ∀ k, t.ibuf.read k = s.ibuf.read k) ∧
    ∀ n, n ≤ s.left → ∃ t : State, core.run n s = .next t ∧ t.busy = true

/-- Derived from R87, R26 and R21: a line begun with the PFE idle puts its operands in their
places, MSGID for FC.BUILD only, and is the transaction OP selects, with no premise on the
operand; where ILEN cannot say its length, ILEN takes a free value (log 26), and the transaction
fails with BufferOverflow (R193, decision D11), but for BP.DEC and FC.PARSE where BUF_CAP is 65535
and no ILEN is above it. Begun while BUSY it loses its writes and is the commit of the running
transaction (R225, log 10). The wait passes inside the line's step (log 5), and `bus_rdata` is not
valid after a write (log 17). -/
def Obligations.LineIsTheTransactionOpSelects : Prop :=
  ∀ (s : State) (rest : List HostAction) (op : BitVec 2) (id : Byte) (bytes : List Byte) (i : Instr),
    s.inbox = .line op id bytes :: rest → decode (.cmd op) = .ok i →
    (s.busy = false → s.ibuf.wf → ∃ (m : Memory) (n : Half), m.wf ∧
      n = (if bytes.length ≤ 65535 then BitVec.ofNat 16 bytes.length else s.longLength op) ∧
      (∀ k, m.read k
        = if k < bytes.length ∧ k < s.cfg.bufCap then bytes[k]? else s.ibuf.read k) ∧
      step s = exec i { s with
        inbox := rest, ibuf := m, ilen := n,
        draws := if bytes.length ≤ 65535 then s.draws else s.draws + 1,
        msgid := if op = 2 then id else s.msgid, op := op, rdata := none, busy := true,
        done := false, left := Config.waitEdges op n }) ∧
    (s.busy = false → s.ibuf.wf → s.cfg.legal → 65535 < bytes.length →
      s.cfg.bufCap < 65535 ∨ op = 0 ∨ op = 2 →
      ∃ t, step s = .next t ∧ t.failedWith .bufferOverflow t.ilen.toNat) ∧
    (s.busy = true →
      step s = runPattern (.cmd s.op) { s with inbox := rest, rdata := none })

/-- COPY (R87, R227): with the PFE idle the result goes to IBUF from index 0 on and ILEN to its
length; nothing else of the operands, and nothing of the result, changes. -/
def Obligations.CopyMovesTheResult : Prop :=
  ∀ (s : State) (rest : List HostAction) (bytes : List Byte), s.inbox = .copy :: rest →
    s.busy = false → s.ibuf.wf → s.resultIs bytes → bytes.length ≤ s.cfg.bufCap →
    ∃ t, step s = .next t ∧ t.ilen.toNat = bytes.length ∧
      (∀ k, t.ibuf.read k = if k < bytes.length then bytes[k]? else s.ibuf.read k) ∧
      t.resultIs bytes ∧ t.op = s.op ∧ t.msgid = s.msgid ∧ t.busy = false ∧ t.done = s.done ∧
      t.status = s.status ∧ t.rmsgid = s.rmsgid ∧ t.errinfo = s.errinfo ∧ t.cfg = s.cfg ∧
      t.cm = s.cm ∧ t.ev = s.ev ∧ t.layer = s.layer ∧ t.inbox = rest

/-- Derived from R178, R88, R193: with the PFE idle the layer's answer to a wire buffer is `parse`
followed by the schema decode; a failure of `parse` is returned as it is, and BufferOverflow where
the buffer is longer than BUF_CAP (the answer as a field is log 13), with the length as `info`, or
a free value where 16 bits cannot say the length (log 26). The commit is that failure too, but for
a buffer of more than 65535 bytes where BUF_CAP is 65535, whose BufferOverflow is the layer's own
(log 26). -/
def Obligations.DispatchParsesAndDecodes : Prop :=
  ∀ (s : State) (rest : List HostAction) (w : List Byte), s.inbox = .dispatch w :: rest →
    s.cfg.legal → s.ibuf.wf → s.busy = false →
    let n := if w.length ≤ 65535 then w.length else (s.longLength 3).toNat
    ∃ t, step s = .next t ∧ t.committed ∧ t.ilen.toNat = n ∧
      (s.cfg.bufCap < w.length → t.layer = .failed (.core ⟨.bufferOverflow, n⟩) ∧
        (s.cfg.bufCap < 65535 → t.failedWith .bufferOverflow n)) ∧
      (w.length ≤ s.cfg.bufCap →
        (∀ f, parse w = .error f → t.layer = .failed (.core f)) ∧
        (∀ id raw m, parse w = .ok (id, raw) → decodeMsg id raw = .ok m → t.layer = .message m) ∧
        (∀ id raw e, parse w = .ok (id, raw) → decodeMsg id raw = .error e →
          t.layer = .failed e)) ∧
      t.op = 3 ∧ t.msgid = s.msgid ∧ t.cfg = s.cfg ∧ t.cm = s.cm ∧ t.ev = s.ev ∧ t.inbox = rest

/-! Encodings. -/

/-- Decoding the words of a well-formed instruction gives it back, for every row of the table and
every operand its encoding admits (which row a frame that two rows match takes is log 12; the status
bytes are log 15). -/
def Obligations.DecodeInvertsEncode : Prop :=
  ∀ i : Instr, i.wellFormed = true → decode (encode i) = .ok i

/-- What the decoder accepts is well formed, and encoding it gives the same words: each word has one
meaning (logs 12 and 15 as above). -/
def Obligations.EncodeInvertsDecode : Prop :=
  ∀ (p : Pattern) (i : Instr), decode p = .ok i → i.wellFormed = true ∧ encode i = p

/-- Words written out from 30_encoding.md R71, R72, R75, R79, one for each row but OLEDFB and
OLEDLABELS, whose frames have 1180 and 101 bytes (which row a frame is rests on log 12, DESIGN CHOICE;
the status bytes of the channel messages on log 15, PRESUMED). -/
def Obligations.SampleWordsDecode : Prop :=
  decode (.cmd 0b00) = .ok .bpEnc ∧ decode (.cmd 0b01) = .ok .bpDec ∧
  decode (.cmd 0b10) = .ok .fcBuild ∧ decode (.cmd 0b11) = .ok .fcParse ∧
  decode (.group [0b00000010, 0b00010001, 0b00100010]) = .ok (.group [0x11, 0xA2]) ∧
  decode (.frame [0xF0, 0x00, 0x21, 0x5B, 0x02, 0x01, 0x06, 0x55, 0xF7]) = .ok .enter ∧
  decode (.frame [0xF0, 0x00, 0x21, 0x5B, 0x02, 0x01, 0x06, 0x53, 0xF7]) = .ok .ackEntered ∧
  decode (.frame [0xF0, 0x00, 0x21, 0x5B, 0x02, 0x01, 0x06, 0x00, 0xF7]) = .ok .exit ∧
  decode (.frame [0xF0, 0x00, 0x21, 0x5B, 0x02, 0x01, 0x06, 0x01, 0x00, 0x03, 0x07, 0x7F, 0x00,
    0x40, 0xF7]) = .ok (.led [⟨3, 7, 127, 0, 64⟩]) ∧
  decode (.frame [0xF0, 0x00, 0x21, 0x5B, 0x02, 0x01, 0x06, 0x04, 0x00, 0x00, 0x7F, 0x00, 0x00,
    0x40, 0x00, 0x00, 0xF7]) = .ok (.ledRing [⟨0, 127, 0, 0, 8192, false⟩]) ∧
  decode (.frame [0xF0, 0x00, 0x21, 0x5B, 0x02, 0x01, 0x06, 0x7E, 0x03, 0x00, 0x7F, 0x00, 0xF7])
    = .ok (.frame 0x7E [0x03, 0x00, 0x7F, 0x00]) ∧
  decode (.chmsg 0b10110000 0b00000001 0b00001111) = .ok (.encTurn 1 15) ∧
  decode (.chmsg 0b10110000 0b00010000 0b00010000) = .ok (.encUndef 16 16) ∧
  decode (.chmsg 0b10010000 0b00010000 0b01000000) = .ok (.btnPress 16 64) ∧
  decode (.chmsg 0b10010000 0b00010000 0b00000000) = .ok (.btnRel0 16) ∧
  decode (.chmsg 0b10000000 0b00000101 0b01000000) = .ok (.btnRel 5 64) ∧
  decode (.chmsg 0b10110001 0b00000001 0b00000101) = .ok (.pass 0xB1 0x01 0x05)

/-- Derived from R72 and R81: what the decoder refuses, by name: no channel message and no OP code; a
wire buffer exactly where FC.PARSE fails on it, with FC.PARSE's own report, whatever its length; a
group exactly where its length is wrong, else it has a byte at or above 0x80, else it has a stray bit.
(That the decoder takes R72's form alone for the GROUP row, and what becomes of the bytes it refuses,
is log 14.) -/
def Obligations.IllegalEncodingsAreRefused : Prop :=
  (∀ (p : Pattern) (why : Reject), decode p = .error why →
    (∃ w f, p = .frame w ∧ why = .notAFrame f ∧ parse w = .error f) ∨
    (∃ w, p = .group w ∧ ((why = .groupLength ∧ (w.length < 2 ∨ 8 < w.length)) ∨
      (why = .groupHighByte ∧ ∃ b ∈ w, 0x80#8 ≤ b) ∨
      (why = .groupStrayBits ∧ ∃ i, w.length - 1 ≤ i ∧ i < 7 ∧
        (w.getD 0 0).getLsbD i = true)))) ∧
  (∀ (w : List Byte) (f : Failure), parse w = .error f →
    decode (.frame w) = .error (.notAFrame f)) ∧
  (∀ w : List Byte, w.length < 2 ∨ 8 < w.length → decode (.group w) = .error .groupLength) ∧
  (∀ w : List Byte, 2 ≤ w.length → w.length ≤ 8 → (∃ b ∈ w, 0x80#8 ≤ b) →
    decode (.group w) = .error .groupHighByte) ∧
  (∀ w : List Byte, 2 ≤ w.length → w.length ≤ 8 → (∀ b ∈ w, b < 0x80#8) →
    (∃ i, w.length - 1 ≤ i ∧ i < 7 ∧ (w.getD 0 0).getLsbD i = true) →
    decode (.group w) = .error .groupStrayBits)

/-! Invariants. -/

/-- Every step from a legal state leads to a legal state: the buffers keep their canonical form and
their bounds (R50), BUSY and DONE are never both 1 (R29), STATUS holds a code CORE may produce
(R191), the result registers agree with OBUF (R30, R32), the DED's outputs follow its inputs (R33).
-/
def Obligations.EveryStepKeepsTheStateLegal : Prop :=
  ∀ s t : State, s.legal → step s = .next t → t.legal

/-- The reset state is legal (R36; its DED ports are log 16, its parameters log 6). -/
def Obligations.ResetIsLegal : Prop := State.reset.legal

/-- R29 and R191 alone, with no premise on the rest of the state: BUSY and DONE are never both 1,
and a kind of the layer above CORE never reaches STATUS. (That nothing is left to wait for while
idle is about the model's own field, log 5.) -/
def Obligations.EveryStepKeepsStatusLegal : Prop :=
  ∀ s t : State, s.flagsLegal → s.statusLegal → step s = .next t → t.flagsLegal ∧ t.statusLegal

/-- R10 and R20 (derived): no step changes a parameter, no step loses what the host still has to do,
and no step answers with a fault (the list is log 4, the empty Fault log 19). -/
def Obligations.StepsKeepTheParameters : Prop :=
  (∀ s t : State, step s = .next t → t.cfg = s.cfg ∧ t.inbox = s.inbox.tail) ∧
  ∀ (s : State) (f : Fault), step s ≠ .fault f
end

