-- ==== Sys2Proof/Laws/BitPacker.lean ====
section
/-! SUPPORT. The bit-packer group by group: each function's own equation, and the bits of one
group. -/

namespace Sys2Proof.Machine

@[simp] theorem pack_nil : pack [] = [] := rfl

@[simp] theorem unpack_nil : unpack [] = [] := rfl

/-- The bound on the number of groups does not show, once it is large enough. -/
theorem packGroups_fuel (n m : Nat) (raw : List Byte) (hn : raw.length ≤ n) (hm : raw.length ≤ m) :
    packGroups n raw = packGroups m raw := by
  induction n generalizing m raw with
  | zero =>
    obtain rfl := List.length_eq_zero_iff.mp (Nat.le_zero.mp hn)
    cases m <;> rfl
  | succ n ih =>
    cases raw with
    | nil => cases m <;> rfl
    | cons r rs =>
      cases m with
      | zero => simp at hm
      | succ m =>
        simp only [packGroups]
        rw [ih m] <;> simp only [List.length_drop, List.length_cons] at * <;> omega

theorem unpackGroups_fuel (n m : Nat) (p : List Byte) (hn : p.length ≤ n) (hm : p.length ≤ m) :
    unpackGroups n p = unpackGroups m p := by
  induction n generalizing m p with
  | zero =>
    obtain rfl := List.length_eq_zero_iff.mp (Nat.le_zero.mp hn)
    cases m <;> rfl
  | succ n ih =>
    cases p with
    | nil => cases m <;> rfl
    | cons r rs =>
      cases m with
      | zero => simp at hm
      | succ m =>
        simp only [unpackGroups]
        rw [ih m] <;> simp only [List.length_drop, List.length_cons] at * <;> omega

/-- `pack` takes one group after another (R100). -/
theorem pack_cons (r : Byte) (rs : List Byte) :
    pack (r :: rs) = packGroup ((r :: rs).take 7) ++ pack ((r :: rs).drop 7) := by
  simp only [pack, List.length_cons, packGroups]
  rw [packGroups_fuel rs.length]
  · simp only [List.length_drop, List.length_cons]; omega
  · exact le_refl _

/-- `unpack` takes one group after another (R104). -/
theorem unpack_cons (top : Byte) (ds : List Byte) :
    unpack (top :: ds) = restoreFrom top 0 (ds.take 7) ++ unpack (ds.drop 7) := by
  simp only [unpack, List.length_cons, unpackGroups]
  rw [unpackGroups_fuel ds.length]
  · simp only [List.length_drop]; omega
  · exact le_refl _

@[simp] theorem packGroup_length (raw : List Byte) : (packGroup raw).length = raw.length + 1 := by
  simp [packGroup]

@[simp] theorem restoreFrom_length (top : Byte) (i : Nat) (ds : List Byte) :
    (restoreFrom top i ds).length = ds.length := by
  induction ds generalizing i with
  | nil => rfl
  | cons d ds ih => simp [restoreFrom, ih]

/-- Bit `j` of a top-bits byte that starts at position `i` is bit 7 of byte `j - i` (R72). -/
theorem topBitsFrom_getLsbD (i : Nat) (raw : List Byte) (j : Nat) :
    (topBitsFrom i raw).getLsbD j
      = (decide (j < 8) && decide (i ≤ j) && (raw.getD (j - i) 0).getLsbD 7) := by
  induction raw generalizing i with
  | nil => simp [topBitsFrom]
  | cons r rs ih =>
    simp only [topBitsFrom, BitVec.getLsbD_or, BitVec.getLsbD_shiftLeft, BitVec.getLsbD_ushiftRight,
      ih]
    rcases Nat.lt_trichotomy j i with h | h | h
    · have h1 : ¬ i ≤ j := by omega
      have h2 : ¬ i + 1 ≤ j := by omega
      simp [h, h1, h2]
    · subst h
      simp
    · have h1 : i ≤ j := by omega
      have h2 : i + 1 ≤ j := by omega
      have h3 : ¬ j < i := by omega
      have h4 : j - i = (j - (i + 1)) + 1 := by omega
      have h5 : r.getLsbD (7 + (j - i)) = false := BitVec.getLsbD_of_ge _ _ (by omega)
      rw [h5, h4, List.getD_cons_succ]
      simp [h1, h2]

end Sys2Proof.Machine
end

