-- ==== Sys2Proof/Laws/Memory.lean ====
section
/-! SUPPORT. The laws of the buffers: reading after writing, the canonical form, and a buffer made of
a byte sequence. -/

namespace Sys2Proof.Machine

@[simp] theorem Memory.read_nil (k : Nat) : Memory.read [] k = none := rfl

theorem Memory.read_cons (a : Nat) (b : Byte) (m : Memory) (k : Nat) :
    Memory.read ((a, b) :: m) k = if a = k then some b else Memory.read m k := rfl

/-- An index below every listed one has no value. -/
theorem Memory.read_eq_none {m : Memory} {k : Nat} (h : ∀ c ∈ m, k < c.1) : m.read k = none := by
  induction m with
  | nil => rfl
  | cons c m ih =>
    obtain ⟨a, b⟩ := c
    have ha : k < a := h (a, b) (by simp)
    have hm : ∀ c ∈ m, k < c.1 := fun c hc => h c (by simp [hc])
    simp [Memory.read_cons, ih hm, Nat.ne_of_gt ha]

theorem Memory.wf_cons {a : Nat} {b : Byte} {m : Memory} :
    Memory.wf ((a, b) :: m) ↔ (∀ c ∈ m, a < c.1) ∧ m.wf := by
  simp [Memory.wf, List.pairwise_cons]

/-- A read after a write: the written index gives the byte, every other is as before. -/
theorem Memory.read_write {m : Memory} (h : m.wf) (k : Nat) (v : Byte) (j : Nat) :
    (m.write k v).read j = if j = k then some v else m.read j := by
  induction m with
  | nil =>
    simp only [Memory.write, Memory.read_cons, Memory.read_nil, eq_comm]
  | cons c m ih =>
    obtain ⟨a, b⟩ := c
    have hm := (Memory.wf_cons.mp h).2
    rcases Nat.lt_trichotomy k a with h1 | rfl | h1
    · simp only [Memory.write, h1, if_true, Memory.read_cons, eq_comm]
    · simp only [Memory.write, lt_irrefl, if_false, if_true, Memory.read_cons]
      rcases eq_or_ne j k with rfl | hj
      · simp
      · simp [hj, hj.symm]
    · have h2 : ¬ k < a := by omega
      have h3 : ¬ k = a := by omega
      simp only [Memory.write, h2, h3, if_false, Memory.read_cons, ih hm]
      rcases eq_or_ne j k with rfl | hj
      · simp [Nat.ne_of_lt h1]
      · simp [hj]

/-- What a write lists: the written cell and cells that were there. -/
theorem Memory.mem_write {m : Memory} {k : Nat} {v : Byte} {c : Host.Cell}
    (h : c ∈ m.write k v) : c = (k, v) ∨ c ∈ m := by
  induction m with
  | nil => simpa [Memory.write] using h
  | cons d m ih =>
    obtain ⟨a, b⟩ := d
    simp only [Memory.write] at h
    split_ifs at h with h1 h2
    · simpa using h
    · simp only [List.mem_cons] at h ⊢
      tauto
    · simp only [List.mem_cons] at h ⊢
      rcases h with h | h
      · exact .inr (.inl h)
      · rcases ih h with h | h
        · exact .inl h
        · exact .inr (.inr h)

/-- A write keeps the canonical form. -/
theorem Memory.write_wf {m : Memory} (h : m.wf) (k : Nat) (v : Byte) : (m.write k v).wf := by
  induction m with
  | nil => simp [Memory.write, Memory.wf]
  | cons c m ih =>
    obtain ⟨a, b⟩ := c
    obtain ⟨ha, hm⟩ := Memory.wf_cons.mp h
    simp only [Memory.write]
    split_ifs with h1 h2
    · refine Memory.wf_cons.mpr ⟨fun c hc => ?_, h⟩
      rcases List.mem_cons.mp hc with rfl | hc
      · exact h1
      · exact lt_trans h1 (ha c hc)
    · subst h2
      exact Memory.wf_cons.mpr ⟨ha, hm⟩
    · refine Memory.wf_cons.mpr ⟨fun c hc => ?_, ih hm⟩
      rcases Memory.mem_write hc with rfl | hc
      · exact lt_of_le_of_ne (Nat.le_of_not_lt h1) (Ne.symm h2)
      · exact ha c hc

/-- Reading a buffer made of a sequence. -/
theorem Memory.read_ofBytes (bs : List Byte) (i k : Nat) :
    (Memory.ofBytes i bs).read k = if k < i then none else bs[k - i]? := by
  induction bs generalizing i with
  | nil => simp [Memory.ofBytes]
  | cons b bs ih =>
    simp only [Memory.ofBytes, Memory.read_cons, ih]
    rcases Nat.lt_trichotomy k i with h | rfl | h
    · simp [h, Nat.ne_of_gt h, Nat.lt_succ_of_lt h]
    · simp
    · have h1 : k - i = (k - (i + 1)) + 1 := by omega
      have h2 : ¬ k < i + 1 := by omega
      have h3 : ¬ k < i := by omega
      simp [Nat.ne_of_lt h, h2, h3, h1]

@[simp] theorem Memory.read_ofBytes_zero (bs : List Byte) (k : Nat) :
    (Memory.ofBytes 0 bs).read k = bs[k]? := by
  simp [Memory.read_ofBytes]

/-- The indices of a buffer made of a sequence. -/
theorem Memory.map_fst_ofBytes (bs : List Byte) (i : Nat) :
    (Memory.ofBytes i bs).map Prod.fst = List.range' i bs.length := by
  induction bs generalizing i with
  | nil => rfl
  | cons b bs ih => simp [Memory.ofBytes, ih, List.range'_succ]

/-- A buffer made of a sequence has the canonical form. -/
theorem Memory.ofBytes_wf (bs : List Byte) (i : Nat) : (Memory.ofBytes i bs).wf := by
  rw [Memory.wf, Memory.map_fst_ofBytes]
  exact List.pairwise_lt_range'

/-- Dropping a head entry hides no other index. -/
theorem Memory.read_dropHead {m : Memory} {j k : Nat} (h : j ≠ k) :
    (m.dropHead k).read j = m.read j := by
  cases m with
  | nil => rfl
  | cons e m =>
    obtain ⟨a, b⟩ := e
    simp only [Memory.dropHead]
    split
    · next ha => subst ha; simp [Memory.read, Ne.symm h]
    · rfl

/-- A run depends only on what its indices and the later ones read as. -/
theorem Memory.range_congr {m m' : Memory} {i n : Nat}
    (h : ∀ k, i ≤ k → m.read k = m'.read k) : m.range i n = m'.range i n := by
  induction n generalizing m m' i with
  | zero => rfl
  | succ n ih =>
    simp only [Memory.range, h i (Nat.le_refl i)]
    rw [ih (m' := m'.dropHead i) fun k hk => by
      rw [Memory.read_dropHead (by omega), Memory.read_dropHead (by omega), h k (by omega)]]

/-- One byte, then the run after it. -/
theorem Memory.range_succ (m : Memory) (i n : Nat) :
    m.range i (n + 1) = match m.read i, m.range (i + 1) n with
      | some b, some bs => some (b :: bs)
      | _, _ => none := by
  have h : (m.dropHead i).range (i + 1) n = m.range (i + 1) n :=
    Memory.range_congr fun k hk => Memory.read_dropHead (by omega)
  rw [← h]
  rfl

/-- A run of bytes is read exactly when each of them has a value. -/
theorem Memory.range_eq_some {m : Memory} {i n : Nat} {bs : List Byte} :
    m.range i n = some bs ↔ bs.length = n ∧ ∀ k, k < n → m.read (i + k) = bs[k]? := by
  induction n generalizing i bs with
  | zero =>
    simp only [Memory.range, Option.some.injEq, not_lt_zero, false_implies, implies_true, and_true]
    exact ⟨fun h => by simp [← h], fun h => (List.length_eq_zero_iff.mp h).symm⟩
  | succ n ih =>
    simp only [Memory.range_succ]
    constructor
    · intro h
      split at h
      · next b bs' hb hbs =>
        obtain rfl := Option.some.inj h
        obtain ⟨hl, hr⟩ := ih.mp hbs
        refine ⟨by simp [hl], fun k hk => ?_⟩
        cases k with
        | zero => simpa using hb
        | succ k =>
          have := hr k (by omega)
          rw [show i + (k + 1) = i + 1 + k by omega, this, List.getElem?_cons_succ]
      · cases h
    · rintro ⟨hl, hr⟩
      cases bs with
      | nil => simp at hl
      | cons b bs =>
        have h0 : m.read i = some b := by simpa using hr 0 (by omega)
        have h1 : m.range (i + 1) n = some bs := by
          refine ih.mpr ⟨by simpa using hl, fun k hk => ?_⟩
          have := hr (k + 1) (by omega)
          rwa [show i + (k + 1) = i + 1 + k by omega, List.getElem?_cons_succ] at this
        simp [h0, h1]

/-- A run holds a byte without a value exactly when it cannot be read. -/
theorem Memory.range_eq_none {m : Memory} {i n : Nat} :
    m.range i n = none ↔ ∃ k, k < n ∧ m.read (i + k) = none := by
  induction n generalizing i with
  | zero => simp [Memory.range]
  | succ n ih =>
    simp only [Memory.range_succ]
    cases h0 : m.read i with
    | none => simpa using ⟨0, by omega, by simpa using h0⟩
    | some b =>
      cases h1 : m.range (i + 1) n with
      | none =>
        obtain ⟨k, hk, h⟩ := ih.mp h1
        simpa using ⟨k + 1, by omega, by rwa [show i + (k + 1) = i + 1 + k by omega]⟩
      | some bs =>
        have hall := (Memory.range_eq_some.mp h1).2
        have hl := (Memory.range_eq_some.mp h1).1
        simp only [reduceCtorEq, false_iff, not_exists, not_and]
        rintro (_ | k) hk h
        · simp [h0] at h
        · rw [show i + (k + 1) = i + 1 + k by omega, hall k (by omega)] at h
          simp at h
          omega

end Sys2Proof.Machine
end

