-- ==== Sys2Proof/Laws/State.lean ====
section
/-! SUPPORT. One lemma for each field of State and each update of it, so that no proof unfolds an
update. -/

namespace Sys2Proof.Machine

section
variable (s : State)

@[simp] theorem State.flagStart_cfg : (s.flagStart).cfg = s.cfg := rfl
@[simp] theorem State.flagStart_op : (s.flagStart).op = s.op := rfl
@[simp] theorem State.flagStart_msgid : (s.flagStart).msgid = s.msgid := rfl
@[simp] theorem State.flagStart_ilen : (s.flagStart).ilen = s.ilen := rfl
@[simp] theorem State.flagStart_busy : (s.flagStart).busy = true := rfl
@[simp] theorem State.flagStart_done : (s.flagStart).done = false := rfl
@[simp] theorem State.flagStart_status : (s.flagStart).status = s.status := rfl
@[simp] theorem State.flagStart_olen : (s.flagStart).olen = s.olen := rfl
@[simp] theorem State.flagStart_rmsgid : (s.flagStart).rmsgid = s.rmsgid := rfl
@[simp] theorem State.flagStart_errinfo : (s.flagStart).errinfo = s.errinfo := rfl
@[simp] theorem State.flagStart_ibuf : (s.flagStart).ibuf = s.ibuf := rfl
@[simp] theorem State.flagStart_obuf : (s.flagStart).obuf = s.obuf := rfl
@[simp] theorem State.flagStart_rdata : (s.flagStart).rdata = s.rdata := rfl
@[simp] theorem State.flagStart_cm : (s.flagStart).cm = s.cm := rfl
@[simp] theorem State.flagStart_ev : (s.flagStart).ev = s.ev := rfl
@[simp] theorem State.flagStart_left : (s.flagStart).left = s.left := rfl
@[simp] theorem State.flagStart_layer : (s.flagStart).layer = s.layer := rfl
@[simp] theorem State.flagStart_inbox : (s.flagStart).inbox = s.inbox := rfl
@[simp] theorem State.flagStart_draws : (s.flagStart).draws = s.draws := rfl

@[simp] theorem State.flagCommit_cfg : (s.flagCommit).cfg = s.cfg := rfl
@[simp] theorem State.flagCommit_op : (s.flagCommit).op = s.op := rfl
@[simp] theorem State.flagCommit_msgid : (s.flagCommit).msgid = s.msgid := rfl
@[simp] theorem State.flagCommit_ilen : (s.flagCommit).ilen = s.ilen := rfl
@[simp] theorem State.flagCommit_busy : (s.flagCommit).busy = false := rfl
@[simp] theorem State.flagCommit_done : (s.flagCommit).done = true := rfl
@[simp] theorem State.flagCommit_status : (s.flagCommit).status = s.status := rfl
@[simp] theorem State.flagCommit_olen : (s.flagCommit).olen = s.olen := rfl
@[simp] theorem State.flagCommit_rmsgid : (s.flagCommit).rmsgid = s.rmsgid := rfl
@[simp] theorem State.flagCommit_errinfo : (s.flagCommit).errinfo = s.errinfo := rfl
@[simp] theorem State.flagCommit_ibuf : (s.flagCommit).ibuf = s.ibuf := rfl
@[simp] theorem State.flagCommit_obuf : (s.flagCommit).obuf = s.obuf := rfl
@[simp] theorem State.flagCommit_rdata : (s.flagCommit).rdata = s.rdata := rfl
@[simp] theorem State.flagCommit_cm : (s.flagCommit).cm = s.cm := rfl
@[simp] theorem State.flagCommit_ev : (s.flagCommit).ev = s.ev := rfl
@[simp] theorem State.flagCommit_left : (s.flagCommit).left = 0 := rfl
@[simp] theorem State.flagCommit_layer : (s.flagCommit).layer = s.layer := rfl
@[simp] theorem State.flagCommit_inbox : (s.flagCommit).inbox = s.inbox := rfl
@[simp] theorem State.flagCommit_draws : (s.flagCommit).draws = s.draws := rfl

@[simp] theorem State.acceptStart_cfg : (s.acceptStart).cfg = s.cfg := rfl
@[simp] theorem State.acceptStart_op : (s.acceptStart).op = s.op := rfl
@[simp] theorem State.acceptStart_msgid : (s.acceptStart).msgid = s.msgid := rfl
@[simp] theorem State.acceptStart_ilen : (s.acceptStart).ilen = s.ilen := rfl
@[simp] theorem State.acceptStart_busy : (s.acceptStart).busy = true := rfl
@[simp] theorem State.acceptStart_done : (s.acceptStart).done = false := rfl
@[simp] theorem State.acceptStart_status : (s.acceptStart).status = s.status := rfl
@[simp] theorem State.acceptStart_olen : (s.acceptStart).olen = s.olen := rfl
@[simp] theorem State.acceptStart_rmsgid : (s.acceptStart).rmsgid = s.rmsgid := rfl
@[simp] theorem State.acceptStart_errinfo : (s.acceptStart).errinfo = s.errinfo := rfl
@[simp] theorem State.acceptStart_ibuf : (s.acceptStart).ibuf = s.ibuf := rfl
@[simp] theorem State.acceptStart_obuf : (s.acceptStart).obuf = s.obuf := rfl
@[simp] theorem State.acceptStart_rdata : (s.acceptStart).rdata = s.rdata := rfl
@[simp] theorem State.acceptStart_cm : (s.acceptStart).cm = s.cm := rfl
@[simp] theorem State.acceptStart_ev : (s.acceptStart).ev = s.ev := rfl
@[simp] theorem State.acceptStart_left : (s.acceptStart).left = Config.waitEdges s.op s.ilen := rfl
@[simp] theorem State.acceptStart_layer : (s.acceptStart).layer = s.layer := rfl
@[simp] theorem State.acceptStart_inbox : (s.acceptStart).inbox = s.inbox := rfl
@[simp] theorem State.acceptStart_draws : (s.acceptStart).draws = s.draws := rfl

@[simp] theorem State.commitOk_cfg (bs : List Byte) (id : Byte) :
    (s.commitOk bs id).cfg = s.cfg := rfl
@[simp] theorem State.commitOk_op (bs : List Byte) (id : Byte) : (s.commitOk bs id).op = s.op := rfl
@[simp] theorem State.commitOk_msgid (bs : List Byte) (id : Byte) :
    (s.commitOk bs id).msgid = s.msgid := rfl
@[simp] theorem State.commitOk_ilen (bs : List Byte) (id : Byte) :
    (s.commitOk bs id).ilen = s.ilen := rfl
@[simp] theorem State.commitOk_busy (bs : List Byte) (id : Byte) :
    (s.commitOk bs id).busy = false := rfl
@[simp] theorem State.commitOk_done (bs : List Byte) (id : Byte) :
    (s.commitOk bs id).done = true := rfl
@[simp] theorem State.commitOk_status (bs : List Byte) (id : Byte) :
    (s.commitOk bs id).status = .ok := rfl
@[simp] theorem State.commitOk_olen (bs : List Byte) (id : Byte) :
    (s.commitOk bs id).olen = BitVec.ofNat 16 bs.length := rfl
@[simp] theorem State.commitOk_rmsgid (bs : List Byte) (id : Byte) :
    (s.commitOk bs id).rmsgid = id := rfl
@[simp] theorem State.commitOk_errinfo (bs : List Byte) (id : Byte) :
    (s.commitOk bs id).errinfo = 0 := rfl
@[simp] theorem State.commitOk_ibuf (bs : List Byte) (id : Byte) :
    (s.commitOk bs id).ibuf = s.ibuf := rfl
@[simp] theorem State.commitOk_obuf (bs : List Byte) (id : Byte) :
    (s.commitOk bs id).obuf = Memory.ofBytes 0 bs := rfl
@[simp] theorem State.commitOk_rdata (bs : List Byte) (id : Byte) :
    (s.commitOk bs id).rdata = s.rdata := rfl
@[simp] theorem State.commitOk_cm (bs : List Byte) (id : Byte) : (s.commitOk bs id).cm = s.cm := rfl
@[simp] theorem State.commitOk_ev (bs : List Byte) (id : Byte) : (s.commitOk bs id).ev = s.ev := rfl
@[simp] theorem State.commitOk_left (bs : List Byte) (id : Byte) :
    (s.commitOk bs id).left = 0 := rfl
@[simp] theorem State.commitOk_layer (bs : List Byte) (id : Byte) :
    (s.commitOk bs id).layer = s.layer := rfl
@[simp] theorem State.commitOk_inbox (bs : List Byte) (id : Byte) :
    (s.commitOk bs id).inbox = s.inbox := rfl
@[simp] theorem State.commitOk_draws (bs : List Byte) (id : Byte) :
    (s.commitOk bs id).draws = s.draws := rfl

@[simp] theorem State.raise_cfg (f : Failure) : (s.raise f).cfg = s.cfg := rfl
@[simp] theorem State.raise_op (f : Failure) : (s.raise f).op = s.op := rfl
@[simp] theorem State.raise_msgid (f : Failure) : (s.raise f).msgid = s.msgid := rfl
@[simp] theorem State.raise_ilen (f : Failure) : (s.raise f).ilen = s.ilen := rfl
@[simp] theorem State.raise_busy (f : Failure) : (s.raise f).busy = false := rfl
@[simp] theorem State.raise_done (f : Failure) : (s.raise f).done = true := rfl
@[simp] theorem State.raise_status (f : Failure) : (s.raise f).status = f.kind := rfl
@[simp] theorem State.raise_olen (f : Failure) : (s.raise f).olen = 0 := rfl
@[simp] theorem State.raise_rmsgid (f : Failure) : (s.raise f).rmsgid = 0 := rfl
@[simp] theorem State.raise_errinfo (f : Failure) :
    (s.raise f).errinfo = BitVec.ofNat 16 f.info := rfl
@[simp] theorem State.raise_ibuf (f : Failure) : (s.raise f).ibuf = s.ibuf := rfl
@[simp] theorem State.raise_obuf (f : Failure) : (s.raise f).obuf = [] := rfl
@[simp] theorem State.raise_rdata (f : Failure) : (s.raise f).rdata = s.rdata := rfl
@[simp] theorem State.raise_cm (f : Failure) : (s.raise f).cm = s.cm := rfl
@[simp] theorem State.raise_ev (f : Failure) : (s.raise f).ev = s.ev := rfl
@[simp] theorem State.raise_left (f : Failure) : (s.raise f).left = 0 := rfl
@[simp] theorem State.raise_layer (f : Failure) : (s.raise f).layer = s.layer := rfl
@[simp] theorem State.raise_inbox (f : Failure) : (s.raise f).inbox = s.inbox := rfl
@[simp] theorem State.raise_draws (f : Failure) : (s.raise f).draws = s.draws := rfl

@[simp] theorem State.resetEdge_cfg : (s.resetEdge).cfg = s.cfg := rfl
@[simp] theorem State.resetEdge_op : (s.resetEdge).op = 0 := rfl
@[simp] theorem State.resetEdge_msgid : (s.resetEdge).msgid = 0 := rfl
@[simp] theorem State.resetEdge_ilen : (s.resetEdge).ilen = 0 := rfl
@[simp] theorem State.resetEdge_busy : (s.resetEdge).busy = false := rfl
@[simp] theorem State.resetEdge_done : (s.resetEdge).done = false := rfl
@[simp] theorem State.resetEdge_status : (s.resetEdge).status = .ok := rfl
@[simp] theorem State.resetEdge_olen : (s.resetEdge).olen = 0 := rfl
@[simp] theorem State.resetEdge_rmsgid : (s.resetEdge).rmsgid = 0 := rfl
@[simp] theorem State.resetEdge_errinfo : (s.resetEdge).errinfo = 0 := rfl
@[simp] theorem State.resetEdge_ibuf : (s.resetEdge).ibuf = [] := rfl
@[simp] theorem State.resetEdge_obuf : (s.resetEdge).obuf = [] := rfl
@[simp] theorem State.resetEdge_rdata : (s.resetEdge).rdata = none := rfl
@[simp] theorem State.resetEdge_cm : (s.resetEdge).cm = s.cm := rfl
@[simp] theorem State.resetEdge_ev : (s.resetEdge).ev = s.ev := rfl
@[simp] theorem State.resetEdge_left : (s.resetEdge).left = 0 := rfl
@[simp] theorem State.resetEdge_layer : (s.resetEdge).layer = s.layer := rfl
@[simp] theorem State.resetEdge_inbox : (s.resetEdge).inbox = s.inbox := rfl
@[simp] theorem State.resetEdge_draws : (s.resetEdge).draws = s.draws := rfl

@[simp] theorem State.present_cfg (st d1 d2 : Byte) : (s.present st d1 d2).cfg = s.cfg := rfl
@[simp] theorem State.present_op (st d1 d2 : Byte) : (s.present st d1 d2).op = s.op := rfl
@[simp] theorem State.present_msgid (st d1 d2 : Byte) : (s.present st d1 d2).msgid = s.msgid := rfl
@[simp] theorem State.present_ilen (st d1 d2 : Byte) : (s.present st d1 d2).ilen = s.ilen := rfl
@[simp] theorem State.present_busy (st d1 d2 : Byte) : (s.present st d1 d2).busy = s.busy := rfl
@[simp] theorem State.present_done (st d1 d2 : Byte) : (s.present st d1 d2).done = s.done := rfl
@[simp] theorem State.present_status (st d1 d2 : Byte) :
    (s.present st d1 d2).status = s.status := rfl
@[simp] theorem State.present_olen (st d1 d2 : Byte) : (s.present st d1 d2).olen = s.olen := rfl
@[simp] theorem State.present_rmsgid (st d1 d2 : Byte) :
    (s.present st d1 d2).rmsgid = s.rmsgid := rfl
@[simp] theorem State.present_errinfo (st d1 d2 : Byte) :
    (s.present st d1 d2).errinfo = s.errinfo := rfl
@[simp] theorem State.present_ibuf (st d1 d2 : Byte) : (s.present st d1 d2).ibuf = s.ibuf := rfl
@[simp] theorem State.present_obuf (st d1 d2 : Byte) : (s.present st d1 d2).obuf = s.obuf := rfl
@[simp] theorem State.present_rdata (st d1 d2 : Byte) : (s.present st d1 d2).rdata = s.rdata := rfl
@[simp] theorem State.present_cm (st d1 d2 : Byte) :
    (s.present st d1 d2).cm = ⟨true, st, d1, d2⟩ := rfl
@[simp] theorem State.present_ev (st d1 d2 : Byte) :
    (s.present st d1 d2).ev = dedDecode st d1 d2 := rfl
@[simp] theorem State.present_left (st d1 d2 : Byte) : (s.present st d1 d2).left = s.left := rfl
@[simp] theorem State.present_layer (st d1 d2 : Byte) : (s.present st d1 d2).layer = s.layer := rfl
@[simp] theorem State.present_inbox (st d1 d2 : Byte) : (s.present st d1 d2).inbox = s.inbox := rfl
@[simp] theorem State.present_draws (st d1 d2 : Byte) : (s.present st d1 d2).draws = s.draws := rfl

@[simp] theorem State.withdraw_cfg (st d1 d2 : Byte) : (s.withdraw st d1 d2).cfg = s.cfg := rfl
@[simp] theorem State.withdraw_op (st d1 d2 : Byte) : (s.withdraw st d1 d2).op = s.op := rfl
@[simp] theorem State.withdraw_msgid (st d1 d2 : Byte) :
    (s.withdraw st d1 d2).msgid = s.msgid := rfl
@[simp] theorem State.withdraw_ilen (st d1 d2 : Byte) : (s.withdraw st d1 d2).ilen = s.ilen := rfl
@[simp] theorem State.withdraw_busy (st d1 d2 : Byte) : (s.withdraw st d1 d2).busy = s.busy := rfl
@[simp] theorem State.withdraw_done (st d1 d2 : Byte) : (s.withdraw st d1 d2).done = s.done := rfl
@[simp] theorem State.withdraw_status (st d1 d2 : Byte) :
    (s.withdraw st d1 d2).status = s.status := rfl
@[simp] theorem State.withdraw_olen (st d1 d2 : Byte) : (s.withdraw st d1 d2).olen = s.olen := rfl
@[simp] theorem State.withdraw_rmsgid (st d1 d2 : Byte) :
    (s.withdraw st d1 d2).rmsgid = s.rmsgid := rfl
@[simp] theorem State.withdraw_errinfo (st d1 d2 : Byte) :
    (s.withdraw st d1 d2).errinfo = s.errinfo := rfl
@[simp] theorem State.withdraw_ibuf (st d1 d2 : Byte) : (s.withdraw st d1 d2).ibuf = s.ibuf := rfl
@[simp] theorem State.withdraw_obuf (st d1 d2 : Byte) : (s.withdraw st d1 d2).obuf = s.obuf := rfl
@[simp] theorem State.withdraw_rdata (st d1 d2 : Byte) :
    (s.withdraw st d1 d2).rdata = s.rdata := rfl
@[simp] theorem State.withdraw_cm (st d1 d2 : Byte) :
    (s.withdraw st d1 d2).cm = ⟨false, st, d1, d2⟩ := rfl
@[simp] theorem State.withdraw_ev (st d1 d2 : Byte) :
    (s.withdraw st d1 d2).ev = EvOut.any s.draws := rfl
@[simp] theorem State.withdraw_left (st d1 d2 : Byte) : (s.withdraw st d1 d2).left = s.left := rfl
@[simp] theorem State.withdraw_layer (st d1 d2 : Byte) :
    (s.withdraw st d1 d2).layer = s.layer := rfl
@[simp] theorem State.withdraw_inbox (st d1 d2 : Byte) :
    (s.withdraw st d1 d2).inbox = s.inbox := rfl
@[simp] theorem State.withdraw_draws (st d1 d2 : Byte) :
    (s.withdraw st d1 d2).draws = s.draws + EvOut.anyDraws := rfl

@[simp] theorem State.afterReadResult_cfg : (s.afterReadResult).cfg = s.cfg := rfl
@[simp] theorem State.afterReadResult_op : (s.afterReadResult).op = s.op := rfl
@[simp] theorem State.afterReadResult_msgid : (s.afterReadResult).msgid = s.msgid := rfl
@[simp] theorem State.afterReadResult_ilen : (s.afterReadResult).ilen = s.ilen := rfl
@[simp] theorem State.afterReadResult_busy : (s.afterReadResult).busy = s.busy := rfl
@[simp] theorem State.afterReadResult_done : (s.afterReadResult).done = s.done := rfl
@[simp] theorem State.afterReadResult_status : (s.afterReadResult).status = s.status := rfl
@[simp] theorem State.afterReadResult_olen : (s.afterReadResult).olen = s.olen := rfl
@[simp] theorem State.afterReadResult_rmsgid : (s.afterReadResult).rmsgid = s.rmsgid := rfl
@[simp] theorem State.afterReadResult_errinfo : (s.afterReadResult).errinfo = s.errinfo := rfl
@[simp] theorem State.afterReadResult_ibuf : (s.afterReadResult).ibuf = s.ibuf := rfl
@[simp] theorem State.afterReadResult_obuf : (s.afterReadResult).obuf = s.obuf := rfl
@[simp] theorem State.afterReadResult_rdata : (s.afterReadResult).rdata = s.rdata := rfl
@[simp] theorem State.afterReadResult_cm : (s.afterReadResult).cm = s.cm := rfl
@[simp] theorem State.afterReadResult_ev : (s.afterReadResult).ev = s.ev := rfl
@[simp] theorem State.afterReadResult_left : (s.afterReadResult).left = s.left := rfl
@[simp] theorem State.afterReadResult_layer : (s.afterReadResult).layer = s.layer := rfl
@[simp] theorem State.afterReadResult_inbox : (s.afterReadResult).inbox = s.inbox := rfl
@[simp] theorem State.afterReadResult_draws :
    (s.afterReadResult).draws = s.draws + 1 + s.readOlen := rfl

end

end Sys2Proof.Machine
end

