-- ==== Sys2Proof/Laws/Operands.lean ====
section
/-! SUPPORT. What a transaction's operand is, and that a transaction which answers ends in one of the
two commits. -/

namespace Sys2Proof.Machine

/-- The operand, byte by byte. -/
theorem State.operand_eq_some {s : State} {bytes : List Byte} :
    s.operand = some bytes ↔ s.operandIs bytes := by
  rw [State.operand, Memory.range_eq_some, State.operandIs]
  constructor
  · rintro ⟨hl, hr⟩
    exact ⟨hl.symm, fun k hk => by simpa using hr k (by omega)⟩
  · rintro ⟨hl, hr⟩
    exact ⟨hl.symm, fun k hk => by simpa using hr k (by omega)⟩

/-- There is no operand exactly when a byte of it has no value. -/
theorem State.operand_eq_none {s : State} :
    s.operand = none ↔ ∃ k, k < s.ilen.toNat ∧ s.ibuf.read k = none := by
  simp [State.operand, Memory.range_eq_none]

theorem State.withOperand_some {s : State} {bytes : List Byte} (h : s.operand = some bytes)
    (commit : List Byte → State) : s.withOperand commit = .next (commit bytes) := by
  simp [State.withOperand, h]

theorem State.withOperand_none {s : State} (h : s.operand = none) (commit : List Byte → State) :
    s.withOperand commit = .refused .unwrittenOperand := by
  simp [State.withOperand, h]

/-- What a transaction does with its operand: it commits on it or is refused. -/
theorem State.withOperand_next {s t : State} {commit : List Byte → State}
    (h : s.withOperand commit = .next t) : ∃ bytes, s.operand = some bytes ∧ t = commit bytes := by
  cases ho : s.operand with
  | none => rw [State.withOperand_none ho] at h; cases h
  | some bytes =>
    rw [State.withOperand_some ho] at h
    exact ⟨bytes, rfl, (Host.Outcome.next.inj h).symm⟩

/-- A result is never longer than the packed operand (R109, R128). -/
theorem unpack_length_le (p : List Byte) : (unpack p).length ≤ p.length := by
  induction h : p.length using Nat.strong_induction_on generalizing p with
  | _ n ih =>
    cases p with
    | nil => simp
    | cons top ds =>
      subst h
      rw [unpack_cons, List.length_append, restoreFrom_length, List.length_take]
      have := ih (ds.drop 7).length (by simp) (ds.drop 7) rfl
      rw [List.length_drop] at this
      simp only [List.length_cons]
      omega

theorem parse_ok_length {w raw : List Byte} {id : Byte} (h : parse w = .ok (id, raw)) :
    raw.length ≤ w.length := by
  unfold parse at h
  split at h
  · cases h
  · split at h
    · cases h
    · split at h
      · cases h
      · split at h
        · cases h
        · split at h
          · cases h
          · injection h with h
            injection h with _ h
            subst h
            refine le_trans (unpack_length_le _) ?_
            simp only [payloadOf, List.length_dropLast, List.length_drop]
            omega

/-- Each instruction of CMD is the transaction its OP code selects. -/
theorem runSelected_eq (s : State) : runSelected s = runPattern (.cmd s.op) s := by
  simp only [runSelected, runPattern, decode, decodeCmd]
  split_ifs <;> rfl

/-- The kinds CORE raises (R191). -/
def coreKind (k : Status) : Prop :=
  k = .headerMismatch ∨ k = .categoryMismatch ∨ k = .packedByteOutOfRange ∨ k = .bufferOverflow

theorem parse_error_kind {w : List Byte} {f : Failure} (h : parse w = .error f) :
    coreKind f.kind := by
  unfold parse at h
  unfold coreKind
  split at h
  · cases h; simp
  · split at h
    · cases h; simp
    · split at h
      · cases h; simp
      · split at h
        · cases h; simp
        · split at h
          · cases h; simp
          · cases h

/-- The first test of every transaction (R193): where OP and ILEN overflow, the commit is
BufferOverflow with `info` = ILEN, whatever IBUF holds. -/
theorem runSelected_overflow {s : State} (h : overflows s.cfg.bufCap s.op s.ilen.toNat = true) :
    runSelected s = .next (s.raise ⟨.bufferOverflow, s.ilen.toNat⟩) := by
  simp only [overflows, Bool.or_eq_true, Bool.and_eq_true, beq_iff_eq, decide_eq_true_eq] at h
  unfold runSelected
  by_cases h0 : s.op = 0
  · have : s.cfg.bufCap < s.ilen.toNat ∨ s.cfg.bufCap < packedLen s.ilen.toNat := by
      rcases h with (h | h) | h
      · exact .inl h
      · exact .inr h.2
      · rw [h0] at h; exact absurd h.1 (by decide)
    rw [if_pos h0, execBpEnc]
    split_ifs <;> first | rfl | omega
  by_cases h2 : s.op = 2
  · have : s.cfg.bufCap < s.ilen.toNat ∨ s.cfg.bufCap < 9 + packedLen s.ilen.toNat := by
      rcases h with (h | h) | h
      · exact .inl h
      · exact absurd h.1 h0
      · exact .inr h.2
    rw [if_neg h0, if_neg (by rw [h2]; decide), if_pos h2, execFcBuild]
    split_ifs <;> first | rfl | omega
  · have : s.cfg.bufCap < s.ilen.toNat := by
      rcases h with (h | h) | h
      · exact h
      · exact absurd h.1 h0
      · exact absurd h.1 h2
    rw [if_neg h0, execBpDec, if_pos this, if_neg h2, execFcParse, if_pos this, ite_self]
    rfl

/-- Everything BP.ENC can answer. -/
theorem execBpEnc_next {s t : State} (h : execBpEnc s = .next t) :
    ((s.cfg.bufCap < s.ilen.toNat ∨ s.cfg.bufCap < packedLen s.ilen.toNat) ∧
      t = s.raise ⟨.bufferOverflow, s.ilen.toNat⟩) ∨
    ∃ raw, s.operandIs raw ∧ packedLen raw.length ≤ s.cfg.bufCap ∧ t = s.commitOk (pack raw) 0 := by
  unfold execBpEnc at h
  split_ifs at h with h1 h2
  · exact .inl ⟨.inl h1, (Host.Outcome.next.inj h).symm⟩
  · exact .inl ⟨.inr h2, (Host.Outcome.next.inj h).symm⟩
  · obtain ⟨raw, hr, rfl⟩ := State.withOperand_next h
    have hr := State.operand_eq_some.mp hr
    exact .inr ⟨raw, hr, by rw [← hr.1]; omega, rfl⟩

/-- Everything BP.DEC can answer. -/
theorem execBpDec_next {s t : State} (h : execBpDec s = .next t) :
    (s.cfg.bufCap < s.ilen.toNat ∧ t = s.raise ⟨.bufferOverflow, s.ilen.toNat⟩) ∨
    ∃ p, s.operandIs p ∧ p.length ≤ s.cfg.bufCap ∧
      ((∃ k, highByte? p = some k ∧ t = s.raise ⟨.packedByteOutOfRange, k⟩) ∨
        (highByte? p = none ∧ t = s.commitOk (unpack p) 0)) := by
  unfold execBpDec at h
  split_ifs at h with h1
  · exact .inl ⟨h1, (Host.Outcome.next.inj h).symm⟩
  · obtain ⟨p, hr, rfl⟩ := State.withOperand_next h
    have hr := State.operand_eq_some.mp hr
    refine .inr ⟨p, hr, by rw [← hr.1]; omega, ?_⟩
    cases hb : highByte? p with
    | none => exact .inr ⟨rfl, rfl⟩
    | some k => exact .inl ⟨k, rfl, rfl⟩

/-- Everything FC.BUILD can answer. -/
theorem execFcBuild_next {s t : State} (h : execFcBuild s = .next t) :
    ((s.cfg.bufCap < s.ilen.toNat ∨ s.cfg.bufCap < 9 + packedLen s.ilen.toNat) ∧
      t = s.raise ⟨.bufferOverflow, s.ilen.toNat⟩) ∨
    ∃ raw, s.operandIs raw ∧ 9 + packedLen raw.length ≤ s.cfg.bufCap ∧
      t = s.commitOk (frame s.msgid raw) 0 := by
  unfold execFcBuild at h
  split_ifs at h with h1 h2
  · exact .inl ⟨.inl h1, (Host.Outcome.next.inj h).symm⟩
  · exact .inl ⟨.inr h2, (Host.Outcome.next.inj h).symm⟩
  · obtain ⟨raw, hr, rfl⟩ := State.withOperand_next h
    have hr := State.operand_eq_some.mp hr
    exact .inr ⟨raw, hr, by rw [← hr.1]; omega, rfl⟩

/-- Everything FC.PARSE can answer. -/
theorem execFcParse_next {s t : State} (h : execFcParse s = .next t) :
    (s.cfg.bufCap < s.ilen.toNat ∧ t = s.raise ⟨.bufferOverflow, s.ilen.toNat⟩) ∨
    (s.ilen.toNat < 9 ∧ t = s.raise ⟨.headerMismatch, s.ilen.toNat⟩) ∨
    ∃ w, s.operandIs w ∧ w.length ≤ s.cfg.bufCap ∧
      ((∃ f, parse w = .error f ∧ t = s.raise f) ∨
        ∃ id raw, parse w = .ok (id, raw) ∧ t = s.commitOk raw id) := by
  unfold execFcParse at h
  split_ifs at h with h1 h2
  · exact .inl ⟨h1, (Host.Outcome.next.inj h).symm⟩
  · exact .inr (.inl ⟨h2, (Host.Outcome.next.inj h).symm⟩)
  · obtain ⟨w, hr, rfl⟩ := State.withOperand_next h
    have hr := State.operand_eq_some.mp hr
    refine .inr (.inr ⟨w, hr, by rw [← hr.1]; omega, ?_⟩)
    match hp : parse w with
    | .error f => exact .inl ⟨f, rfl, rfl⟩
    | .ok (id, raw) => exact .inr ⟨id, raw, rfl, rfl⟩

/-- A transaction that answers made one of the two commits, a failure with a kind of CORE's (R190). -/
theorem runSelected_next {s t : State} (h : runSelected s = .next t) :
    (∃ bytes id, t = s.commitOk bytes id) ∨ ∃ f, coreKind f.kind ∧ t = s.raise f := by
  unfold runSelected at h
  split_ifs at h
  · rcases execBpEnc_next h with ⟨_, rfl⟩ | ⟨_, _, _, rfl⟩
    · exact .inr ⟨_, .inr (.inr (.inr rfl)), rfl⟩
    · exact .inl ⟨_, _, rfl⟩
  · rcases execBpDec_next h with ⟨_, rfl⟩ | ⟨_, _, _, ⟨_, _, rfl⟩ | ⟨_, rfl⟩⟩
    · exact .inr ⟨_, .inr (.inr (.inr rfl)), rfl⟩
    · exact .inr ⟨_, .inr (.inr (.inl rfl)), rfl⟩
    · exact .inl ⟨_, _, rfl⟩
  · rcases execFcBuild_next h with ⟨_, rfl⟩ | ⟨_, _, _, rfl⟩
    · exact .inr ⟨_, .inr (.inr (.inr rfl)), rfl⟩
    · exact .inl ⟨_, _, rfl⟩
  · rcases execFcParse_next h with ⟨_, rfl⟩ | ⟨_, rfl⟩ | ⟨_, _, _, ⟨_, hf, rfl⟩ | ⟨_, _, _, rfl⟩⟩
    · exact .inr ⟨_, .inr (.inr (.inr rfl)), rfl⟩
    · exact .inr ⟨_, .inl rfl, rfl⟩
    · exact .inr ⟨_, parse_error_kind hf, rfl⟩
    · exact .inl ⟨_, _, rfl⟩

end Sys2Proof.Machine
end

