-- ==== Sys2Proof/Laws/Host.lean ====
section
/-! SUPPORT. What the host's accesses and lines do, said once. -/

namespace Sys2Proof.Machine

@[simp] theorem State.writeReg_busy {s : State} (h : s.busy = true) (n : Nat) (v : Half) :
    s.writeReg n v = s := by
  simp [State.writeReg, h]

@[simp] theorem State.writeIbuf_busy {s : State} (h : s.busy = true) (k : Nat) (v : Byte) :
    s.writeIbuf k v = s := by
  simp [State.writeIbuf, h]

/-- A register write with the PFE idle changes one register, starts a transaction, or nothing. -/
theorem State.writeReg_idle {s : State} (h : s.busy = false) (n : Nat) (v : Half) :
    s.writeReg n v =
      if n = 0 then { s with op := v.setWidth 2 }
      else if n = 1 then { s with msgid := v.setWidth 8 }
      else if n = 2 then { s with ilen := v }
      else if n = 3 then s.acceptStart
      else s := by
  simp only [State.writeReg, h]
  match n with
  | 0 => rfl
  | 1 => rfl
  | 2 => rfl
  | 3 => rfl
  | _ + 4 => rfl

/-- A byte write with the PFE idle changes IBUF alone. -/
theorem State.writeIbuf_idle {s : State} (h : s.busy = false) (k : Nat) (v : Byte) :
    s.writeIbuf k v = if s.cfg.bufCap ≤ k then s else { s with ibuf := s.ibuf.write k v } := by
  simp [State.writeIbuf, h]

/-- While BUSY a port access changes the read port and the count of free values at most. -/
theorem State.busAccess_busy {s : State} (h : s.busy = true) (c : BusCycle) :
    ∃ r d, s.busAccess c = { s with rdata := r, draws := d } := by
  unfold State.busAccess
  split_ifs
  · exact ⟨_, _, rfl⟩
  · refine ⟨none, s.draws, ?_⟩
    unfold State.busWrite
    split_ifs <;> simp [h]
  · exact ⟨_, _, rfl⟩
  · exact ⟨_, _, rfl⟩

/-- The byte writes of a line while BUSY are lost. -/
theorem State.lineBytes_busy {s : State} (h : s.busy = true) (k : Nat) (bs : List Byte) :
    s.lineBytes k bs = { s with rdata := if bs = [] then s.rdata else none } := by
  induction bs generalizing k with
  | nil => rfl
  | cons b bs ih =>
    have hb : (({ s with rdata := if bs = [] then s.rdata else none } : State)).busy = true := h
    simp only [State.lineBytes, ih (k + 1), State.writeIbuf_busy hb]
    simp

/-- The byte writes of a line with the PFE idle change IBUF alone: the bytes stand from index `k` on,
as far as IBUF goes, and every other byte is as before. -/
theorem State.lineBytes_idle {s : State} (h : s.busy = false) (hw : s.ibuf.wf) (k : Nat)
    (bs : List Byte) :
    ∃ m, s.lineBytes k bs
        = { s with ibuf := m, rdata := if bs = [] then s.rdata else none } ∧
      m.wf ∧
      (∀ j, m.read j = if k ≤ j ∧ j < k + bs.length ∧ j < s.cfg.bufCap then bs[j - k]?
        else s.ibuf.read j) ∧
      ((∀ c ∈ s.ibuf, c.1 < s.cfg.bufCap) → ∀ c ∈ m, c.1 < s.cfg.bufCap) := by
  induction bs generalizing k with
  | nil => exact ⟨s.ibuf, rfl, hw, fun j => by simp [show ¬(k ≤ j ∧ j < k ∧ j < s.cfg.bufCap) by omega],
      fun hb => hb⟩
  | cons b bs ih =>
    obtain ⟨m, hm, hwf, hr, hbd⟩ := ih (k + 1)
    have step : s.lineBytes k (b :: bs) = { s with
        ibuf := if s.cfg.bufCap ≤ k then m else m.write k b, rdata := none } := by
      simp only [State.lineBytes, hm]
      rw [State.writeIbuf_idle (by exact h)]
      by_cases hk : s.cfg.bufCap ≤ k <;> simp only [hk, if_true, if_false]
    refine ⟨if s.cfg.bufCap ≤ k then m else m.write k b, by rw [step, if_neg (List.cons_ne_nil b bs)],
      ?_⟩
    by_cases hk : s.cfg.bufCap ≤ k
    · simp only [hk, if_true]
      refine ⟨hwf, fun j => ?_, hbd⟩
      rw [hr, if_neg (by omega), if_neg (by omega)]
    · simp only [hk, if_false]
      refine ⟨Memory.write_wf hwf k b, fun j => ?_, fun hb c hc => ?_⟩
      · rw [Memory.read_write hwf, hr]
        rcases Nat.lt_trichotomy j k with hj | rfl | hj
        · rw [if_neg (by omega), if_neg (by omega), if_neg (by omega)]
        · have : j < s.cfg.bufCap := by omega
          simp [this]
        · have e : j - k = (j - (k + 1)) + 1 := by omega
          rw [if_neg (by omega), List.length_cons, e, List.getElem?_cons_succ]
          by_cases hc : j < k + 1 + bs.length ∧ j < s.cfg.bufCap
          · rw [if_pos (by omega), if_pos (by omega)]
          · rw [if_neg (by omega), if_neg (by omega)]
      · rcases Memory.mem_write hc with rfl | hc
        · exact Nat.lt_of_not_le hk
        · exact hbd hb c hc

/-- The OP write of a line, with the PFE idle. -/
theorem State.lineReg_op {s : State} (h : s.busy = false) (v : Half) :
    s.lineReg 0 v = { s with op := v.setWidth 2, rdata := none } := by
  rw [State.lineReg, State.writeReg_idle h]; rfl

/-- The MSGID write of a line, with the PFE idle. -/
theorem State.lineReg_msgid {s : State} (h : s.busy = false) (v : Half) :
    s.lineReg 1 v = { s with msgid := v.setWidth 8, rdata := none } := by
  rw [State.lineReg, State.writeReg_idle h]; rfl

/-- The ILEN write of a line, with the PFE idle. -/
theorem State.lineReg_ilen {s : State} (h : s.busy = false) (v : Half) :
    s.lineReg 2 v = { s with ilen := v, rdata := none } := by
  rw [State.lineReg, State.writeReg_idle h]; rfl

/-- The START of a line, with the PFE idle. -/
theorem State.lineReg_start {s : State} (h : s.busy = false) (v : Half) :
    s.lineReg 3 v = { s.acceptStart with rdata := none } := by
  rw [State.lineReg, State.writeReg_idle h]; rfl

/-- A register write of a line begun while BUSY is lost. -/
theorem State.lineReg_busy {s : State} (h : s.busy = true) (n : Nat) (v : Half) :
    s.lineReg n v = { s with rdata := none } := by
  rw [State.lineReg, State.writeReg_busy h]

/-- What a line with the PFE idle writes to ILEN, and the free values it uses. -/
theorem State.lineLength_idle {s : State} (h : s.busy = false) (op : BitVec 2) (n : Nat) :
    s.lineLength op n = { s with
      ilen := if n ≤ 65535 then BitVec.ofNat 16 n else s.longLength op
      draws := if n ≤ 65535 then s.draws else s.draws + 1, rdata := none } := by
  by_cases hn : n ≤ 65535
  · simp only [State.lineLength, hn, if_true, State.lineReg_ilen h]
  · simp [State.lineLength, hn, h]

/-- The ILEN write of a line begun while BUSY is lost. -/
theorem State.lineLength_busy {s : State} (h : s.busy = true) (op : BitVec 2) (n : Nat) :
    s.lineLength op n = { s with rdata := none } := by
  by_cases hn : n ≤ 65535
  · simp only [State.lineLength, hn, if_true, State.lineReg_busy h]
  · simp [State.lineLength, hn, h]

/-- Where an operation overflows with any length that ILEN can say, it does with the one a longer
operand gives (log 26). -/
theorem State.overflows_longLength {s : State} {op : BitVec 2}
    (h : overflows s.cfg.bufCap op 65535 = true) :
    overflows s.cfg.bufCap op (s.longLength op).toNat = true := by
  unfold State.longLength
  by_cases ha : overflows s.cfg.bufCap op (Config.anyWord s.draws).toNat = true
  · simp [ha]
  · simp [h, ha]

/-- With a legal BUF_CAP every operation overflows with some ILEN, but BP.DEC and FC.PARSE where
BUF_CAP is 65535. -/
theorem overflows_max {bufCap : Nat} {op : BitVec 2} (hc : bufCap ≤ 65535)
    (h : bufCap < 65535 ∨ op = 0 ∨ op = 2) : overflows bufCap op 65535 = true := by
  have hp : packedLen 65535 = 74898 := rfl
  unfold overflows
  rcases h with h | rfl | rfl
  · simp [h]
  · simp only [hp]; simp; omega
  · simp only [hp]; simp; omega

/-- A line begun while BUSY writes nothing and starts nothing (R225). -/
theorem State.lineStart_busy {s : State} (h : s.busy = true) (op : BitVec 2) (id : Byte)
    (bs : List Byte) : s.lineStart op id bs = { s with rdata := none } := by
  have hb : ∀ r, ({ s with rdata := r } : State).busy = true := fun _ => h
  by_cases h2 : op = 2
  · simp only [State.lineStart, State.lineBytes_busy h, h2, if_true, State.lineLength_busy (hb _),
      State.lineReg_busy (hb _)]
  · simp only [State.lineStart, State.lineBytes_busy h, h2, if_false, State.lineLength_busy (hb _),
      State.lineReg_busy (hb _)]

/-- A line begun with the PFE idle: its operands are in place and its transaction is running. -/
theorem State.lineStart_idle {s : State} (h : s.busy = false) (hw : s.ibuf.wf) (op : BitVec 2)
    (id : Byte) (bs : List Byte) :
    ∃ (m : Memory) (n : Half),
      n = (if bs.length ≤ 65535 then BitVec.ofNat 16 bs.length else s.longLength op) ∧
      s.lineStart op id bs
        = { s with
            ibuf := m, rdata := none, ilen := n,
            draws := if bs.length ≤ 65535 then s.draws else s.draws + 1,
            msgid := if op = 2 then id else s.msgid, op := op, busy := true, done := false,
            left := Config.waitEdges op n } ∧
      m.wf ∧
      (∀ j, m.read j = if j < bs.length ∧ j < s.cfg.bufCap then bs[j]? else s.ibuf.read j) ∧
      ((∀ c ∈ s.ibuf, c.1 < s.cfg.bufCap) → ∀ c ∈ m, c.1 < s.cfg.bufCap) := by
  obtain ⟨m, hm, hwf, hr, hbd⟩ := State.lineBytes_idle h hw 0 bs
  refine ⟨m, _, rfl, ?_, hwf, fun j => by simpa using hr j, hbd⟩
  have hop : ((op.setWidth 16).setWidth 2 : BitVec 2) = op := by
    simp
  by_cases h2 : op = 2
  · subst h2
    simp only [State.lineStart, hm, if_true]
    rw [State.lineLength_idle (by exact h), State.lineReg_msgid (by exact h),
      State.lineReg_op (by exact h), State.lineReg_start (by exact h)]
    simp [State.acceptStart, State.flagStart]
    exact ⟨rfl, rfl⟩
  · simp only [State.lineStart, hm, h2, if_false]
    rw [State.lineLength_idle (by exact h), State.lineReg_op (by exact h),
      State.lineReg_start (by exact h)]
    simp [State.acceptStart, State.flagStart]
    exact ⟨rfl, rfl⟩

/-- What a line answers with the PFE idle: the commit of the transaction it started. -/
theorem State.line_idle {s : State} (h : s.busy = false) (hw : s.ibuf.wf) (op : BitVec 2)
    (id : Byte) (bs : List Byte) :
    ∃ (m : Memory) (n : Half),
      n = (if bs.length ≤ 65535 then BitVec.ofNat 16 bs.length else s.longLength op) ∧
      m.wf ∧
      (∀ j, m.read j = if j < bs.length ∧ j < s.cfg.bufCap then bs[j]? else s.ibuf.read j) ∧
      ((∀ c ∈ s.ibuf, c.1 < s.cfg.bufCap) → ∀ c ∈ m, c.1 < s.cfg.bufCap) ∧
      s.line op id bs = runSelected
        { s with
          ibuf := m, rdata := none, ilen := n,
          draws := if bs.length ≤ 65535 then s.draws else s.draws + 1,
          msgid := if op = 2 then id else s.msgid, op := op, busy := true, done := false,
          left := Config.waitEdges op n } := by
  obtain ⟨m, n, hn, hm, hwf, hr, hb⟩ := State.lineStart_idle h hw op id bs
  refine ⟨m, n, hn, hwf, hr, hb, ?_⟩
  rw [State.line, hm]
  rfl

/-- A line begun while BUSY is the commit of the transaction that was running (log 10). -/
theorem State.line_busy {s : State} (h : s.busy = true) (op : BitVec 2) (id : Byte)
    (bs : List Byte) : s.line op id bs = runSelected { s with rdata := none } := by
  have hb : ({ s with rdata := none } : State).busy = true := h
  simp [State.line, State.lineStart_busy h, State.awaitDone, hb]

end Sys2Proof.Machine
end

