-- ==== Sys2Proof/Laws/PerInstr.lean ====
section
/-! SUPPORT. The families of statements made instruction by instruction. -/

namespace Sys2Proof.Laws

open Sys2Proof.Machine

/-- The format column of spec/opcode_table.json. -/
inductive TableFormat where
  | cmd
  | frame
  | group
  | chmsg
deriving DecidableEq, Repr

/-- The format in which the hardware finds an encoded form (R70). -/
def patternFormat : Pattern → TableFormat
  | .cmd _ => .cmd
  | .group _ => .group
  | .frame _ => .frame
  | .chmsg _ _ _ => .chmsg

/-- The format of each row, as the table has it. -/
def rowFormat : Instr → TableFormat
  | .bpEnc => .cmd
  | .bpDec => .cmd
  | .fcBuild => .cmd
  | .fcParse => .cmd
  | .frame _ _ => .frame
  | .enter => .frame
  | .ackEntered => .frame
  | .exit => .frame
  | .led _ => .frame
  | .ledRing _ => .frame
  | .oledFb _ => .frame
  | .oledLabels _ _ => .frame
  | .group _ => .group
  | .encTurn _ _ => .chmsg
  | .encUndef _ _ => .chmsg
  | .btnPress _ _ => .chmsg
  | .btnRel0 _ => .chmsg
  | .btnRel _ _ => .chmsg
  | .pass _ _ _ => .chmsg

/-- Every row is encoded in the format the table gives it. -/
def EncodedInItsFormat.Statement (i : Instr) : Prop := patternFormat (encode i) = rowFormat i

theorem EncodedInItsFormat.bpEnc :
    EncodedInItsFormat.Statement .bpEnc := rfl

theorem EncodedInItsFormat.bpDec :
    EncodedInItsFormat.Statement .bpDec := rfl

theorem EncodedInItsFormat.fcBuild :
    EncodedInItsFormat.Statement .fcBuild := rfl

theorem EncodedInItsFormat.fcParse :
    EncodedInItsFormat.Statement .fcParse := rfl

theorem EncodedInItsFormat.frame (id : Byte) (packed : List Byte) :
    EncodedInItsFormat.Statement (.frame id packed) := rfl

theorem EncodedInItsFormat.enter :
    EncodedInItsFormat.Statement .enter := rfl

theorem EncodedInItsFormat.ackEntered :
    EncodedInItsFormat.Statement .ackEntered := rfl

theorem EncodedInItsFormat.exit :
    EncodedInItsFormat.Statement .exit := rfl

theorem EncodedInItsFormat.led (es : List LedEntry) :
    EncodedInItsFormat.Statement (.led es) := rfl

theorem EncodedInItsFormat.ledRing (es : List LedRingEntry) :
    EncodedInItsFormat.Statement (.ledRing es) := rfl

theorem EncodedInItsFormat.oledFb (fb : List Byte) :
    EncodedInItsFormat.Statement (.oledFb fb) := rfl

theorem EncodedInItsFormat.oledLabels (title : List Byte) (labels : List (List Byte)) :
    EncodedInItsFormat.Statement (.oledLabels title labels) := rfl

theorem EncodedInItsFormat.group (raw : List Byte) :
    EncodedInItsFormat.Statement (.group raw) := rfl

theorem EncodedInItsFormat.encTurn (c v : BitVec 7) :
    EncodedInItsFormat.Statement (.encTurn c v) := rfl

theorem EncodedInItsFormat.encUndef (c v : BitVec 7) :
    EncodedInItsFormat.Statement (.encUndef c v) := rfl

theorem EncodedInItsFormat.btnPress (n v : BitVec 7) :
    EncodedInItsFormat.Statement (.btnPress n v) := rfl

theorem EncodedInItsFormat.btnRel0 (n : BitVec 7) :
    EncodedInItsFormat.Statement (.btnRel0 n) := rfl

theorem EncodedInItsFormat.btnRel (n v : BitVec 7) :
    EncodedInItsFormat.Statement (.btnRel n v) := rfl

theorem EncodedInItsFormat.pass (st d1 d2 : Byte) :
    EncodedInItsFormat.Statement (.pass st d1 d2) := rfl

end Sys2Proof.Laws
end

