-- ==== Sys2Proof/Laws/Step.lean ====
section
/-! SUPPORT. What a step can do, said once: every step is made of a few elementary moves, so a
property that each of them keeps is kept by every step. -/

namespace Sys2Proof.Machine

/-- The row of a message is that message's pseudo-operation. -/
theorem exec_rowOfMessage (m : Message) (s : State) : exec (rowOfMessage m) s = s.sendMessage m := by
  cases m <;> rfl

/-- A property that each elementary move of the machine keeps. -/
structure KeptByMoves (P : State → Prop) : Prop where
  /-- A register write with the PFE idle (R25). -/
  op : ∀ s v, s.busy = false → P s → P { s with op := v }
  msgid : ∀ s v, s.busy = false → P s → P { s with msgid := v }
  ilen : ∀ s v, s.busy = false → P s → P { s with ilen := v }
  /-- The START strobe with the PFE idle (R28). -/
  start : ∀ s, s.busy = false → P s → P s.acceptStart
  /-- The write of an IBUF byte with the PFE idle (R50). -/
  ibuf : ∀ s k v, s.busy = false → k < s.cfg.bufCap → P s → P { s with ibuf := s.ibuf.write k v }
  /-- The read port, the free values, the layer's answer. -/
  rdata : ∀ s r, P s → P { s with rdata := r }
  draws : ∀ s n, P s → P { s with draws := n }
  layer : ∀ s l, P s → P { s with layer := l }
  /-- A clock edge of a running transaction (R229). -/
  wait : ∀ s n, s.busy = true → P s → P { s with left := n }
  /-- The reset edge (R220). -/
  reset : ∀ s, P s → P s.resetEdge
  /-- A transaction's commit (R190). -/
  commit : ∀ s t, P s → runSelected s = .next t → P t
  /-- A change at the DED's inputs (R33). -/
  present : ∀ s st d1 d2, P s → P (s.present st d1 d2)
  withdraw : ∀ s st d1 d2, P s → P (s.withdraw st d1 d2)

variable {P : State → Prop}

theorem KeptByMoves.writeReg (K : KeptByMoves P) {s : State} (n : Nat) (v : Half) (h : P s) :
    P (s.writeReg n v) := by
  cases hb : s.busy with
  | true => rwa [State.writeReg_busy hb]
  | false =>
    rw [State.writeReg_idle hb]
    split_ifs
    · exact K.op _ _ hb h
    · exact K.msgid _ _ hb h
    · exact K.ilen _ _ hb h
    · exact K.start _ hb h
    · exact h

theorem KeptByMoves.writeIbuf (K : KeptByMoves P) {s : State} (k : Nat) (v : Byte) (h : P s) :
    P (s.writeIbuf k v) := by
  cases hb : s.busy with
  | true => rwa [State.writeIbuf_busy hb]
  | false =>
    rw [State.writeIbuf_idle hb]
    split_ifs with hk
    · exact h
    · exact K.ibuf _ _ _ hb (Nat.lt_of_not_le hk) h

theorem KeptByMoves.busAccess (K : KeptByMoves P) {s : State} (c : BusCycle) (h : P s) :
    P (s.busAccess c) := by
  unfold State.busAccess
  split_ifs
  · exact K.rdata _ _ h
  · refine K.rdata _ _ ?_
    unfold State.busWrite
    split_ifs
    · exact K.writeReg _ _ h
    · exact K.writeIbuf _ _ h
    · exact h
  · exact K.rdata { s with draws := s.draws + 1 } _ (K.draws s _ h)
  · exact K.rdata _ _ h

theorem KeptByMoves.lineReg (K : KeptByMoves P) {s : State} (n : Nat) (v : Half) (h : P s) :
    P (s.lineReg n v) := K.rdata _ _ (K.writeReg n v h)

theorem KeptByMoves.lineBytes (K : KeptByMoves P) {s : State} (k : Nat) (bs : List Byte)
    (h : P s) : P (s.lineBytes k bs) := by
  induction bs generalizing k with
  | nil => exact h
  | cons b bs ih => exact K.rdata _ _ (K.writeIbuf k b (ih (k + 1)))

theorem KeptByMoves.lineLength (K : KeptByMoves P) {s : State} (op : BitVec 2) (n : Nat)
    (h : P s) : P (s.lineLength op n) := by
  unfold State.lineLength
  split_ifs with hn hb
  · exact K.lineReg _ _ h
  · exact K.rdata _ _ h
  · have hd := K.draws s (s.draws + 1) h
    exact K.rdata _ _ (K.ilen { s with draws := s.draws + 1 } _ (Bool.eq_false_iff.mpr hb) hd)

theorem KeptByMoves.line (K : KeptByMoves P) {s t : State} {op : BitVec 2} {id : Byte}
    {bs : List Byte} (h : P s) (ht : s.line op id bs = .next t) : P t := by
  have hs : P (s.lineStart op id bs) := by
    unfold State.lineStart
    refine K.lineReg _ _ (K.lineReg _ _ ?_)
    split_ifs
    · exact K.lineReg _ _ (K.lineLength _ _ (K.lineBytes _ _ h))
    · exact K.lineLength _ _ (K.lineBytes _ _ h)
  unfold State.line at ht
  unfold State.awaitDone at ht
  split_ifs at ht
  · exact K.commit _ _ hs ht
  · cases ht; exact hs

theorem KeptByMoves.sendMessage (K : KeptByMoves P) {s t : State} {m : Message} (h : P s)
    (ht : s.sendMessage m = .next t) : P t := by
  unfold State.sendMessage at ht
  split at ht
  · cases ht; exact K.layer _ _ h
  · split at ht
    · rename_i u hu
      cases ht; exact K.layer _ _ (K.line h hu)
    · cases ht
    · cases ht

theorem KeptByMoves.dispatchLine (K : KeptByMoves P) {s t : State} {w : List Byte} (h : P s)
    (ht : s.dispatchLine w = .next t) : P t := by
  unfold State.dispatchLine at ht
  split at ht
  · rename_i u hu
    cases ht; exact K.layer u.afterReadResult _ (K.draws _ _ (K.line h hu))
  · cases ht
  · cases ht

theorem KeptByMoves.copyLine (K : KeptByMoves P) {s : State} (h : P s) : P s.copyLine :=
  K.lineReg _ _ (K.lineBytes _ _ (K.draws _ _ h))

/-- The message rows and the channel-message rows; a CMD row only where OP selects it. -/
theorem KeptByMoves.runPattern (K : KeptByMoves P) {s t : State} {p : Pattern}
    (hp : ∀ op, p = .cmd op → op = s.op) (h : P s) (ht : runPattern p s = .next t) : P t := by
  cases p with
  | cmd op =>
    rw [hp op rfl, ← runSelected_eq] at ht
    exact K.commit _ _ h ht
  | group w =>
    unfold Machine.runPattern at ht
    split at ht
    · rename_i i hi
      simp only [decode] at hi
      unfold decodeGroup at hi
      split at hi
      · cases hi
      · split_ifs at hi
        cases hi
        exact K.line h ht
    · exact K.line h ht
  | frame w =>
    unfold Machine.runPattern at ht
    split at ht
    · rename_i i hi
      simp only [decode] at hi
      unfold decodeFrame at hi
      split at hi
      · cases hi
      · cases hi
        unfold rowOfFrame at ht
        split at ht
        · split at ht
          · rw [exec_rowOfMessage] at ht
            exact K.sendMessage h ht
          · exact K.line h ht
        · exact K.line h ht
    · exact K.line h ht
  | chmsg st d1 d2 =>
    simp only [Machine.runPattern, decode, decodeChMsg] at ht
    split_ifs at ht <;> cases ht <;> exact K.present _ _ _ _ h

theorem KeptByMoves.clockEdge (K : KeptByMoves P) {s t : State} {c : BusCycle} (h : P s)
    (ht : clockEdge c s = .next t) : P t := by
  unfold Machine.clockEdge at ht
  split_ifs at ht with hr hb
  · cases ht; exact K.reset _ h
  · obtain ⟨r, d, e⟩ := State.busAccess_busy hb c
    have hs := K.busAccess c h
    split at ht
    · exact K.runPattern (fun op ho => by cases ho; rw [e]) hs ht
    · cases ht; exact K.wait _ _ (by rw [e]; exact hb) hs
  · cases ht; exact K.busAccess c h

/-- A property that every elementary move keeps holds after a step, if it held once the host's next
action was taken off its list. -/
theorem KeptByMoves.step (K : KeptByMoves P) {s t : State} (h : P { s with inbox := s.inbox.tail })
    (ht : step s = .next t) : P t := by
  unfold Machine.step Machine.advance at ht
  split at ht
  · rename_i hi
    have h' : P s := by
      have e : ({ s with inbox := s.inbox.tail } : State) = s := by
        cases s; simp only at hi; simp [hi]
      rwa [e] at h
    exact K.clockEdge h' ht
  · rename_i a rest hi
    have h' : P { s with inbox := rest } := by simpa [hi] using h
    unfold Machine.hostAct at ht
    split at ht
    · exact K.clockEdge h' ht
    · split_ifs at ht
      · exact K.runPattern (by simp) h' ht
      · cases ht; exact K.withdraw _ _ _ _ h'
    · exact K.runPattern (by simp) h' ht
    · exact K.runPattern (by simp) h' ht
    · exact K.line h' ht
    · cases ht; exact K.copyLine h'
    · exact K.dispatchLine h' ht

end Sys2Proof.Machine
end

