-- ==== Sys2Proof/Tests/Slice0.lean ====
section
/-! SUPPORT. The model's own tests. Expected values are those of 95_test_vectors.md (S and V
numbers), of the encodings written out bit by bit from 30_encoding.md, or worked by hand from the
rule named. The second part shows, for each statement with hypotheses, values that meet them. -/

namespace Sys2Proof.Tests

open Sys2Proof Sys2Proof.Machine

/-- A running transaction with this MSGID on this operand. -/
def start (id : Byte) (raw : List Byte) : State :=
  { State.reset with
    msgid := id, ilen := BitVec.ofNat 16 raw.length, ibuf := Memory.ofBytes 0 raw, busy := true }

/-- The reset state with these host actions to come. -/
def todo (as : List HostAction) : State := { State.reset with inbox := as }

/-- STATUS, ERRINFO, OLEN, RMSGID and the bytes of OBUF after a commit. -/
def result : Result → Option (Status × Half × Half × Byte × List Byte)
  | .next t => some (t.status, t.errinfo, t.olen, t.rmsgid, t.obuf.map Prod.snd)
  | .fault _ => none
  | .refused _ => none

/-- The DED's outputs after a step. -/
def event : Result → Option EvOut
  | .next t => some t.ev
  | .fault _ => none
  | .refused _ => none

/-- Why a step gives no meaning. -/
def refusal : Result → Option Refusal
  | .next _ => none
  | .fault _ => none
  | .refused r => some r

/-! Well-formedness: an ill-formed term for each check. -/

theorem test_wf_frame_high_byte : (Instr.frame 0x7E [0x80]).wellFormed = false := by decide
theorem test_wf_frame_is_message : (Instr.frame 0x55 []).wellFormed = false := by decide
theorem test_wf_led_range : (Instr.led [⟨0, 0, 128, 0, 0⟩]).wellFormed = false := by decide
theorem test_wf_ledRing_range :
    (Instr.ledRing [⟨0, 0, 0, 0, 16384, false⟩]).wellFormed = false := by decide
theorem test_wf_oledFb_length : (Instr.oledFb [0]).wellFormed = false := by decide
theorem test_wf_oledLabels_title : (Instr.oledLabels [] []).wellFormed = false := by decide
theorem test_wf_oledLabels_label :
    (Instr.oledLabels (List.replicate 16 0) (List.replicate 16 [0])).wellFormed = false := by decide
theorem test_wf_group_empty : (Instr.group []).wellFormed = false := by decide
theorem test_wf_group_long : (Instr.group (List.replicate 8 0)).wellFormed = false := by decide
theorem test_wf_encTurn_controller : (Instr.encTurn 17 1).wellFormed = false := by decide
theorem test_wf_encTurn_value : (Instr.encTurn 1 16).wellFormed = false := by decide
theorem test_wf_encUndef_value : (Instr.encUndef 1 15).wellFormed = false := by decide
theorem test_wf_btnPress_velocity : (Instr.btnPress 0 0).wellFormed = false := by decide
theorem test_wf_btnRel0_note : (Instr.btnRel0 17).wellFormed = false := by decide
theorem test_wf_btnRel_note : (Instr.btnRel 17 0).wellFormed = false := by decide
theorem test_wf_pass_is_event : (Instr.pass 0xB0 1 1).wellFormed = false := by decide

/-! Decoding: for each constructor a word written out from its encoding. -/

theorem test_decode_cmd :
    decode (.cmd 0b00) = .ok .bpEnc ∧ decode (.cmd 0b01) = .ok .bpDec ∧
      decode (.cmd 0b10) = .ok .fcBuild ∧ decode (.cmd 0b11) = .ok .fcParse := by decide
/-- R72: top-bits 0000010, so that raw byte 1 has its high bit set (V24's group). -/
theorem test_decode_group :
    decode (.group [0b00000010, 0b00010001, 0b00100010]) = .ok (.group [0x11, 0xA2]) := by decide
/-- S10. -/
theorem test_decode_enter :
    decode (.frame [0xF0, 0x00, 0x21, 0x5B, 0x02, 0x01, 0x06, 0x55, 0xF7]) = .ok .enter := by decide
/-- V40. -/
theorem test_decode_ackEntered :
    decode (.frame [0xF0, 0x00, 0x21, 0x5B, 0x02, 0x01, 0x06, 0x53, 0xF7]) = .ok .ackEntered := by
  decide
/-- V41. -/
theorem test_decode_exit :
    decode (.frame [0xF0, 0x00, 0x21, 0x5B, 0x02, 0x01, 0x06, 0x00, 0xF7]) = .ok .exit := by decide
/-- S9. -/
theorem test_decode_led :
    decode (.frame [0xF0, 0x00, 0x21, 0x5B, 0x02, 0x01, 0x06, 0x01, 0x00, 0x03, 0x07, 0x7F, 0x00,
      0x40, 0xF7]) = .ok (.led [⟨3, 7, 127, 0, 64⟩]) := by decide
/-- V43, V95. -/
theorem test_decode_ledRing :
    decode (.frame [0xF0, 0x00, 0x21, 0x5B, 0x02, 0x01, 0x06, 0x04, 0x00, 0x0F, 0x01, 0x02, 0x03,
      0x7F, 0x7F, 0x01, 0x00, 0x02, 0x00, 0x00, 0x00, 0x00, 0x01, 0x00, 0xF7])
      = .ok (.ledRing [⟨15, 1, 2, 3, 16383, true⟩, ⟨2, 0, 0, 0, 1, false⟩]) := by decide
/-- V47: 146 groups `7F 2A ..`, then `03 2A 2A`. -/
theorem test_decode_oledFb :
    decode (.frame ([0xF0, 0x00, 0x21, 0x5B, 0x02, 0x01, 0x06, 0x02] ++
      (List.replicate 146 [0x7F, 0x2A, 0x2A, 0x2A, 0x2A, 0x2A, 0x2A, 0x2A]).flatten ++
      [0x03, 0x2A, 0x2A, 0xF7])) = .ok (.oledFb (List.replicate 1024 0xAA)) := by decide +kernel
/-- V48, in full. -/
theorem test_decode_oledLabels :
    decode (.frame [
      0xF0, 0x00, 0x21, 0x5B, 0x02, 0x01, 0x06, 0x03,
      0x00, 0x41, 0x41, 0x41, 0x41, 0x41, 0x41, 0x41, 0x00, 0x41, 0x41, 0x41, 0x41, 0x41, 0x41, 0x41,
      0x00, 0x41, 0x41, 0x61, 0x62, 0x63, 0x20, 0x61, 0x00, 0x62, 0x63, 0x20, 0x61, 0x62, 0x63, 0x20,
      0x00, 0x61, 0x62, 0x63, 0x20, 0x61, 0x62, 0x63, 0x00, 0x20, 0x61, 0x62, 0x63, 0x20, 0x61, 0x62,
      0x00, 0x63, 0x20, 0x61, 0x62, 0x63, 0x20, 0x61, 0x00, 0x62, 0x63, 0x20, 0x61, 0x62, 0x63, 0x20,
      0x00, 0x61, 0x62, 0x63, 0x20, 0x61, 0x62, 0x63, 0x00, 0x20, 0x61, 0x62, 0x63, 0x20, 0x61, 0x62,
      0x00, 0x63, 0x20, 0x61, 0x62, 0x63, 0x20, 0x61, 0x00, 0x62, 0x63, 0x20, 0xF7])
      = .ok (.oledLabels (List.replicate 16 0x41) (List.replicate 16 [0x61, 0x62, 0x63, 0x20])) := by
  decide +kernel
/-- V44: an id outside the schema. -/
theorem test_decode_frame :
    decode (.frame [0xF0, 0x00, 0x21, 0x5B, 0x02, 0x01, 0x06, 0x7E, 0x03, 0x00, 0x7F, 0x00, 0xF7])
      = .ok (.frame 0x7E [0x03, 0x00, 0x7F, 0x00]) := by decide
/-- V65, V70: status 1011 0000. -/
theorem test_decode_encoder :
    decode (.chmsg 0b10110000 0b00010000 0b00001000) = .ok (.encTurn 16 8) ∧
      decode (.chmsg 0b10110000 0b00000001 0b01110001) = .ok (.encUndef 1 0x71) := by decide
/-- V75, V77, V80: status 1001 0000 and 1000 0000. -/
theorem test_decode_button :
    decode (.chmsg 0b10010000 0b00001111 0b00000001) = .ok (.btnPress 15 1) ∧
      decode (.chmsg 0b10010000 0b00010000 0b00000000) = .ok (.btnRel0 16) ∧
      decode (.chmsg 0b10000000 0b00000101 0b01000000) = .ok (.btnRel 5 0x40) := by decide
/-- V71, V73, V78, V85, V86. -/
theorem test_decode_pass :
    decode (.chmsg 0xB0 0x00 0x05) = .ok (.pass 0xB0 0x00 0x05) ∧
      decode (.chmsg 0xB1 0x01 0x05) = .ok (.pass 0xB1 0x01 0x05) ∧
      decode (.chmsg 0x90 0x11 0x40) = .ok (.pass 0x90 0x11 0x40) ∧
      decode (.chmsg 0x30 0x01 0x01) = .ok (.pass 0x30 0x01 0x01) ∧
      decode (.chmsg 0xB0 0x01 0x81) = .ok (.pass 0xB0 0x01 0x81) := by decide
/-- V61c, V62a, V62e: no frame. -/
theorem test_decode_frame_refused :
    decode (.frame [0xF0, 0x00, 0x20, 0x5B, 0x02, 0x01, 0x06, 0x55, 0xF7])
        = .error (.notAFrame ⟨.headerMismatch, 2⟩) ∧
      decode (.frame [0xF0, 0x00, 0x21, 0x5B, 0x02, 0x01, 0x07, 0x55, 0xF7])
        = .error (.notAFrame ⟨.categoryMismatch, 6⟩) ∧
      decode (.frame [0xF0, 0x00, 0x21, 0x5B, 0x02, 0x01, 0x06, 0x01, 0x80, 0xF7])
        = .error (.notAFrame ⟨.packedByteOutOfRange, 8⟩) := by decide
/-- R72: too short, a byte at or above 0x80, a stray top bit. -/
theorem test_decode_group_refused :
    decode (.group [0x00]) = .error .groupLength ∧
      decode (.group [0x00, 0x80]) = .error .groupHighByte ∧
      decode (.group [0x02, 0x00]) = .error .groupStrayBits := by decide

/-- The words of opcode_table.json, as the table numbers their bits (logs 1 to 3). -/
theorem test_table_words :
    decodeTableWord 8 0x1 = some .bpDec ∧ decodeTableWord 64 0xF000215B02010655 = some .enter ∧
      decodeTableWord 64 0xF000215B02010601 = some (.led []) ∧
      decodeTableWord 64 0xF000215B0201067E = some (.frame 0x7E []) ∧
      decodeTableWord 24 0xB00101 = some (.encTurn 1 1) ∧
      decodeTableWord 8 0x7F = some (.group (List.replicate 7 0x80)) := by decide

/-! One step on a small state, for each instruction. -/

/-- V9, V15. -/
theorem test_bpEnc : result (exec .bpEnc (start 0x55
    [0x81, 0x02, 0x83, 0x04, 0x85, 0x06, 0x87, 0x08, 0x89]))
      = some (.ok, 0, 11, 0, [0x55, 1, 2, 3, 4, 5, 6, 7, 2, 8, 9]) := by decide
theorem test_bpEnc_overflow : result (exec .bpEnc { State.reset with ilen := 1793 })
    = some (.bufferOverflow, 1793, 0, 0, []) := by decide
/-- V27, V31. -/
theorem test_bpDec : result (exec .bpDec (start 0
    [0x01, 0x7F, 0x7F, 0x7F, 0x7F, 0x7F, 0x7F, 0x7F, 0x01, 0x00]))
      = some (.ok, 0, 8, 0, [0xFF, 0x7F, 0x7F, 0x7F, 0x7F, 0x7F, 0x7F, 0x80]) := by decide
theorem test_bpDec_high : result (exec .bpDec (start 0 [0x00, 0x01, 0xFF, 0x02, 0x80]))
    = some (.packedByteOutOfRange, 2, 0, 0, []) := by decide
/-- S11, V46. -/
theorem test_fcBuild : result (exec .fcBuild (start 0x01 [0, 0, 127, 0, 0, 4, 7, 0, 127, 0]))
    = some (.ok, 0, 21, 0, [0xF0, 0x00, 0x21, 0x5B, 0x02, 0x01, 0x06, 0x01, 0x00, 0x00, 0x00, 0x7F,
      0x00, 0x00, 0x04, 0x07, 0x00, 0x00, 0x7F, 0x00, 0xF7]) := by decide
theorem test_fcBuild_id : result (exec .fcBuild (start 0x99 [0xFF]))
    = some (.ok, 0, 11, 0, [0xF0, 0x00, 0x21, 0x5B, 0x02, 0x01, 0x06, 0x99, 0x01, 0x7F, 0xF7]) := by
  decide
/-- V60g, V62f. -/
theorem test_fcParse : result (exec .fcParse (start 0
    [0xF0, 0x00, 0x21, 0x5B, 0x02, 0x01, 0x06, 0x01, 0x03, 0x01, 0x02, 0xF7]))
      = some (.ok, 0, 2, 0x01, [0x81, 0x82]) := by decide
theorem test_fcParse_early_F7 : result (exec .fcParse (start 0
    [0xF0, 0x00, 0x21, 0x5B, 0x02, 0x01, 0x06, 0x01, 0x00, 0xF7, 0xF7]))
      = some (.packedByteOutOfRange, 9, 0, 0, []) := by decide
/-- V60d as a row. -/
theorem test_frame : result (exec (.frame 0x7E [0x03, 0x00, 0x7F, 0x00]) State.reset)
    = some (.ok, 0, 3, 0x7E, [0x80, 0xFF, 0x00]) := by decide
/-- S10, V40, V41. -/
theorem test_enter : result (exec .enter State.reset)
    = some (.ok, 0, 9, 0, [0xF0, 0x00, 0x21, 0x5B, 0x02, 0x01, 0x06, 0x55, 0xF7]) := by decide
theorem test_ackEntered : result (exec .ackEntered State.reset)
    = some (.ok, 0, 9, 0, [0xF0, 0x00, 0x21, 0x5B, 0x02, 0x01, 0x06, 0x53, 0xF7]) := by decide
theorem test_exit : result (exec .exit State.reset)
    = some (.ok, 0, 9, 0, [0xF0, 0x00, 0x21, 0x5B, 0x02, 0x01, 0x06, 0x00, 0xF7]) := by decide
/-- S11 as two entries. -/
theorem test_led : result (exec (.led [⟨0, 0, 127, 0, 0⟩, ⟨4, 7, 0, 127, 0⟩]) State.reset)
    = some (.ok, 0, 21, 0, [0xF0, 0x00, 0x21, 0x5B, 0x02, 0x01, 0x06, 0x01, 0x00, 0x00, 0x00, 0x7F,
      0x00, 0x00, 0x04, 0x07, 0x00, 0x00, 0x7F, 0x00, 0xF7]) := by decide
/-- V101: no frame. -/
theorem test_led_range : exec (.led [⟨0, 0, 200, 0, 0⟩]) State.reset
    = .next { State.reset with layer := .failed (.valueOutOfRange 0 .r) } := rfl
/-- V100, V102. -/
theorem test_ledRing : result (exec (.ledRing [⟨15, 1, 2, 3, 16383, true⟩, ⟨2, 0, 0, 0, 1, false⟩])
    State.reset)
      = some (.ok, 0, 25, 0, [0xF0, 0x00, 0x21, 0x5B, 0x02, 0x01, 0x06, 0x04, 0x00, 0x0F, 0x01, 0x02,
        0x03, 0x7F, 0x7F, 0x01, 0x00, 0x02, 0x00, 0x00, 0x00, 0x00, 0x01, 0x00, 0xF7]) := by decide
theorem test_ledRing_range : exec (.ledRing [⟨15, 1, 2, 3, 16384, true⟩]) State.reset
    = .next { State.reset with layer := .failed (.valueOutOfRange 0 .ringAmount) } := rfl
/-- R170: a framebuffer of another length. -/
theorem test_oledFb_length : exec (.oledFb [0xAA]) State.reset
    = .next { State.reset with layer := .failed (.invalidPayloadLength 1) } := rfl
/-- R170: fifteen labels. -/
theorem test_oledLabels_count :
    exec (.oledLabels (List.replicate 16 0x41) (List.replicate 15 [0x61, 0x62, 0x63, 0x20]))
      State.reset
    = .next { State.reset with layer := .failed (.invalidPayloadLength 76) } := rfl
/-- V5. -/
theorem test_group : result (exec (.group [1, 2, 3, 4, 5, 6, 0x87]) State.reset)
    = some (.ok, 0, 8, 0, [0x40, 1, 2, 3, 4, 5, 6, 7]) := by decide
/-- V63, V65. -/
theorem test_encTurn :
    event (exec (.encTurn 1 15) State.reset) = some ⟨true, .encTurn, 0, false, 0x0F, 0xFF, true, 0x0F⟩ ∧
    event (exec (.encTurn 16 8) State.reset)
      = some ⟨true, .encTurn, 15, false, 0x08, 0xF8, true, 0x08⟩ := by decide
/-- V67, V69. -/
theorem test_encUndef :
    event (exec (.encUndef 1 0) State.reset) = some ⟨true, .encUndef, 0, false, 0, 0, false, 0⟩ ∧
    event (exec (.encUndef 1 0x7F) State.reset)
      = some ⟨true, .encUndef, 0, false, 0, 0, false, 0x7F⟩ := by decide
/-- V76. -/
theorem test_btnPress : event (exec (.btnPress 16 0x40) State.reset)
    = some ⟨true, .button, 16, true, 0, 0, false, 0⟩ := by decide
/-- V77. -/
theorem test_btnRel0 : event (exec (.btnRel0 16) State.reset)
    = some ⟨true, .button, 16, false, 0, 0, false, 0⟩ := by decide
/-- V80. -/
theorem test_btnRel : event (exec (.btnRel 5 0x40) State.reset)
    = some ⟨true, .button, 5, false, 0, 0, false, 0⟩ := by decide
/-- V73. -/
theorem test_pass : event (exec (.pass 0xB1 0x01 0x05) State.reset)
    = some ⟨true, .pass, 0, false, 0, 0, false, 0⟩ := by decide

/-! The step: the placed instruction runs first, and the host's own actions. -/

/-- R221 for FC.PARSE: HeaderMismatch with ERRINFO = 0. -/
theorem test_step_fcParse : result (step (State.reset.withFetchWord 8 0x3))
    = some (.headerMismatch, 0, 0, 0, []) := by decide
theorem test_step_frame : result (step (State.reset.withFetchWord 64 0xF000215B02010653))
    = some (.ok, 0, 9, 0, [0xF0, 0x00, 0x21, 0x5B, 0x02, 0x01, 0x06, 0x53, 0xF7]) := by decide
theorem test_step_chmsg : event (step (State.reset.withFetchWord 24 0x901000))
    = some ⟨true, .button, 16, false, 0, 0, false, 0⟩ := by decide
/-- V62a as a frame the host names, V29 as a group. -/
theorem test_step_illegal_frame :
    result (step (todo [.frameRow [0xF0, 0x00, 0x21, 0x5B, 0x02, 0x01, 0x07, 0x55, 0xF7]]))
      = some (.categoryMismatch, 6, 0, 0, []) := by decide
theorem test_step_illegal_group : result (step (todo [.groupRow [0x00, 0x80]]))
    = some (.packedByteOutOfRange, 1, 0, 0, []) := by decide
/-- R81 (b), R105 (the worked bytes of R105): a stray bit and a lone top-bits byte decode. -/
theorem test_step_noncanonical_group :
    result (step (todo [.groupRow [0x7E, 0x10]])) = some (.ok, 0, 1, 0, [0x10]) ∧
      result (step (todo [.groupRow [0x05]])) = some (.ok, 0, 0, 0, []) :=
  ⟨by decide, by decide⟩
/-- Lines of R87: eight bytes packed (two groups), and an id outside the schema framed. -/
theorem test_step_lines :
    result (step (todo [.line 0 0 [1, 2, 3, 4, 5, 6, 0x87, 0x88]]))
      = some (.ok, 0, 10, 0, [0x40, 1, 2, 3, 4, 5, 6, 7, 1, 8]) ∧
    result (step (todo [.line 2 0x99 []]))
      = some (.ok, 0, 9, 0, [0xF0, 0x00, 0x21, 0x5B, 0x02, 0x01, 0x06, 0x99, 0xF7]) :=
  ⟨by decide, by decide⟩
/-- R27: ILEN says 65535 and no more; beyond that it takes one free value (log 26). -/
theorem test_line_length :
    (State.reset.lineLength 2 65535).ilen = 0xFFFF ∧ (State.reset.lineLength 2 65536).draws = 8 ∧
      ({ State.reset with busy := true } : State).lineLength 2 65536
        = { State.reset with busy := true } := ⟨rfl, rfl, rfl⟩
/-- R193, worked by hand for BUF_CAP = 65535: 57335 bytes make a frame of 65535 and 57336 one of
65536; no ILEN overflows BP.DEC or FC.PARSE. -/
theorem test_overflows :
    overflows 65535 2 57335 = false ∧ overflows 65535 2 57336 = true ∧
      overflows 65535 1 65535 = false ∧ overflows 65535 3 65535 = false ∧
      overflows 65534 3 65535 = true ∧ overflows 65535 0 65535 = true := by decide
/-- R222: an operand byte that was never written. -/
theorem test_unwritten : refusal (exec .bpEnc { State.reset with ilen := 1 })
    = some .unwrittenOperand := by decide
/-- Program 2, line 4: the write of an IBUF byte while idle (R56). -/
theorem test_ibuf_write : ∃ t, step (todo [.cycle { sel := 1, addr := 9, we := true, wdata := 0x188 }])
    = .next t ∧ t.ibuf = [(9, 0x88)] := ⟨_, rfl, rfl⟩
/-- R29: STAT after PackedByteOutOfRange reads 0x0062. -/
theorem test_stat_read :
    ({ State.reset with done := true, status := .packedByteOutOfRange } : State).regValue 0xFFFF 4
      = 0x62 := by decide
/-- R30, R226: ERRINFO while BUSY is the free value. -/
theorem test_busy_read : ({ State.reset with busy := true } : State).regValue 0xFFFF 7 = 0xFFFF := by
  decide

/-! The statements' hypotheses can be met: one witness for each clause, at a boundary where there is
one. -/

theorem start_operandIs (id : Byte) (raw : List Byte) (h : raw.length ≤ 65535) :
    (start id raw).operandIs raw := by
  refine ⟨?_, fun k _ => Memory.read_ofBytes_zero raw k⟩
  show (BitVec.ofNat 16 raw.length).toNat = raw.length
  rw [BitVec.toNat_ofNat]; omega

theorem below_replicate (n : Nat) : ∀ b ∈ List.replicate n (0x7F : Byte), b < 0x80#8 := by
  intro b hb
  rw [List.eq_of_mem_replicate hb]; decide

theorem UnpackInvertsPack_witness : highByte? [0x05] = none := by decide
theorem PackedBytesByIndex_witness :
    7 < (List.replicate 8 (0xFF : Byte)).length ∧ 7 * 1 < (List.replicate 8 (0xFF : Byte)).length := by
  decide
theorem PackByteLaws_witness :
    (∀ b ∈ [0x7F], b < 0x80#8) ∧ (0 < 1 ∧ 7 * 0 < 1) ∧ (List.replicate 7 (0xFF : Byte)).length % 7 = 0 := by
  decide
theorem UnpackAcceptsLoneAndStrayBits_witness :
    ([] : List Byte).length % 8 = 0 ∧ (List.replicate 6 (0x10 : Byte)).length < 7 ∧
      ∀ i, i < 6 → (0x7F : Byte).getLsbD i = (0x3F : Byte).getLsbD i := by decide
theorem CanonicalPackedSequences_witness :
    (∀ b ∈ [0x05], b < 0x80#8) ∧ unpack (pack [0x80]) = unpack (pack [0x80]) := by decide
theorem DispatchInvertsEncode_witness :
    messageInRange (.led [⟨15, 15, 127, 127, 127⟩]) ∧
      messageInRange (.ledRing [⟨15, 127, 127, 127, 16383, true⟩]) ∧
      messageInRange (.oledFramebuffer (List.replicate 1024 0xFF)) ∧
      messageInRange (.oledLabels (List.replicate 16 0) (List.replicate 16 [0, 0, 0, 0])) := by
  refine ⟨by simp [messageInRange, ledEntryInRange], by simp [messageInRange, ledRingEntryInRange],
    List.length_replicate, List.length_replicate, List.length_replicate, ?_⟩
  intro l hl
  rw [List.eq_of_mem_replicate hl]; rfl
theorem SchemaDecodeErrors_witness_id :
    (0x05 : Byte) ≠ 0x55 ∧ (0x05 : Byte) ≠ 0x53 ∧ (0x05 : Byte) ≠ 0x00 ∧ (0x05 : Byte) ≠ 0x01 ∧
      (0x05 : Byte) ≠ 0x04 ∧ (0x05 : Byte) ≠ 0x02 ∧ (0x05 : Byte) ≠ 0x03 := by decide
theorem SchemaDecodeErrors_witness_length :
    [(0 : Byte)].length ≠ 0 ∧ (List.replicate 6 (0 : Byte)).length % 5 ≠ 0 ∧
      (List.replicate 8 (0 : Byte)).length % 7 ≠ 0 ∧ (List.replicate 1023 (0 : Byte)).length ≠ 1024 ∧
      (List.replicate 81 (0 : Byte)).length ≠ 80 := by
  simp only [List.length_replicate]; decide
theorem SchemaDecodeErrors_witness_led :
    (∀ e ∈ ([⟨15, 15, 127, 127, 127⟩] : List LedEntry), ledEntryInRange e) ∧ 15 < (16 : Byte).toNat ∧
      127 < (128 : Byte).toNat ∧ (15 : Byte).toNat ≤ 15 ∧ (127 : Byte).toNat ≤ 127 := by
  refine ⟨by simp [ledEntryInRange], ?_⟩; decide
/-- Every field of the second entry at its bound and one above it. -/
theorem SchemaDecodeErrors_witness_ledRing :
    (∀ e ∈ ([⟨15, 127, 127, 127, 16383, true⟩] : List LedRingEntry), ledRingEntryInRange e) ∧
      (15 < (16 : Byte).toNat ∧ 127 < (128 : Byte).toNat ∧ 1 < (2 : Byte).toNat) ∧
      (15 : Byte).toNat ≤ 15 ∧ (127 : Byte).toNat ≤ 127 := by
  refine ⟨by simp [ledRingEntryInRange], ?_⟩; decide
theorem CommitsWriteTheResultAlone_witness :
    (List.replicate 65535 (0xFF : Byte)).length ≤ 65535 ∧
      (⟨.bufferOverflow, 65535⟩ : Failure).info ≤ 65535 := by
  rw [List.length_replicate]; decide
/-- The longest operand that fits (V14). -/
theorem BpEncPacksItsOperand_witness :
    (start 0x55 (List.replicate 1792 0xFF)).cfg.legal ∧
      (start 0x55 (List.replicate 1792 0xFF)).operandIs (List.replicate 1792 0xFF) ∧
      packedLen (List.replicate 1792 (0xFF : Byte)).length
        ≤ (start 0x55 (List.replicate 1792 0xFF)).cfg.bufCap := by
  refine ⟨by decide, start_operandIs _ _ ?_, ?_⟩ <;> rw [List.length_replicate] <;> decide
theorem BpDecUnpacksItsOperand_witness :
    (start 0 (List.replicate 2048 0x7F)).cfg.legal ∧
      (start 0 (List.replicate 2048 0x7F)).operandIs (List.replicate 2048 0x7F) ∧
      (List.replicate 2048 (0x7F : Byte)).length ≤ (start 0 (List.replicate 2048 0x7F)).cfg.bufCap ∧
      ∀ b ∈ List.replicate 2048 (0x7F : Byte), b < 0x80#8 := by
  refine ⟨by decide, start_operandIs _ _ ?_, ?_, below_replicate _⟩ <;> rw [List.length_replicate] <;>
    decide
/-- The longest payload that fits (V49). -/
theorem FcBuildFramesItsOperand_witness :
    (start 0x99 (List.replicate 1784 0xFF)).cfg.legal ∧
      (start 0x99 (List.replicate 1784 0xFF)).operandIs (List.replicate 1784 0xFF) ∧
      9 + packedLen (List.replicate 1784 (0xFF : Byte)).length
        ≤ (start 0x99 (List.replicate 1784 0xFF)).cfg.bufCap := by
  refine ⟨by decide, start_operandIs _ _ ?_, ?_⟩ <;> rw [List.length_replicate] <;> decide
theorem FcParseTakesTheFrameApart_witness :
    let w : List Byte :=
      [0xF0, 0x00, 0x21, 0x5B, 0x02, 0x01, 0x06, 0x99] ++ List.replicate 2039 0x7F ++ [0xF7]
    (start 0 w).cfg.legal ∧ (start 0 w).operandIs w ∧
      9 + (List.replicate 2039 (0x7F : Byte)).length ≤ (start 0 w).cfg.bufCap ∧
      ∀ b ∈ List.replicate 2039 (0x7F : Byte), b < 0x80#8 := by
  refine ⟨by decide, start_operandIs _ _ ?_, ?_, below_replicate _⟩
  · simp only [List.length_append, List.length_replicate, List.length_cons, List.length_nil]; decide
  · rw [List.length_replicate]; decide
theorem FcParseHeaderAndCategoryFailures_witness_short :
    (start 0 (List.replicate 8 0xF0)).cfg.legal ∧ (start 0 (List.replicate 8 0xF0)).ilen.toNat < 9 := by
  decide
theorem FcParseHeaderAndCategoryFailures_witness_header :
    let w : List Byte := [0xF0, 0x00, 0x21, 0x5B, 0x02, 0x00, 0x06, 0x55, 0xF7]
    (start 0 w).cfg.legal ∧ (start 0 w).operandIs w ∧ w.length ≤ (start 0 w).cfg.bufCap ∧
      9 ≤ w.length ∧ (∀ j, j < 5 → w[j]? = [0xF0#8, 0x00, 0x21, 0x5B, 0x02, 0x01][j]?) ∧
      w[5]? ≠ [0xF0#8, 0x00, 0x21, 0x5B, 0x02, 0x01][5]? :=
  ⟨by decide, start_operandIs _ _ (by decide), by decide, by decide, by decide, by decide⟩
theorem FcParseHeaderAndCategoryFailures_witness_terminator :
    let w : List Byte := [0xF0, 0x00, 0x21, 0x5B, 0x02, 0x01, 0x07, 0x55, 0x00]
    (start 0 w).cfg.legal ∧ (start 0 w).operandIs w ∧ w.length ≤ (start 0 w).cfg.bufCap ∧
      9 ≤ w.length ∧ (∀ j, j < 6 → w[j]? = [0xF0#8, 0x00, 0x21, 0x5B, 0x02, 0x01][j]?) ∧
      w[w.length - 1]? ≠ some 0xF7 :=
  ⟨by decide, start_operandIs _ _ (by decide), by decide, by decide, by decide, by decide⟩
theorem FcParseHeaderAndCategoryFailures_witness_category :
    let w : List Byte := [0xF0, 0x00, 0x21, 0x5B, 0x02, 0x01, 0x86, 0x01, 0xF7]
    (start 0 w).cfg.legal ∧ (start 0 w).operandIs w ∧ w.length ≤ (start 0 w).cfg.bufCap ∧
      9 ≤ w.length ∧ (∀ j, j < 6 → w[j]? = [0xF0#8, 0x00, 0x21, 0x5B, 0x02, 0x01][j]?) ∧
      w[w.length - 1]? = some 0xF7 ∧ w[6]? ≠ some 0x06 :=
  ⟨by decide, start_operandIs _ _ (by decide), by decide, by decide, by decide, by decide, by decide⟩
theorem HighPackedByteFails_witness_bpDec :
    let w : List Byte := List.replicate 2047 0x7F ++ 0x80 :: []
    (start 0 w).cfg.legal ∧ (start 0 w).operandIs w ∧
      (List.replicate 2047 (0x7F : Byte)).length + 1 + ([] : List Byte).length
        ≤ (start 0 w).cfg.bufCap ∧
      (∀ x ∈ List.replicate 2047 (0x7F : Byte), x < 0x80#8) ∧ 0x80#8 ≤ 0x80 := by
  refine ⟨by decide, start_operandIs _ _ ?_, ?_, below_replicate _, by decide⟩
  · simp only [List.length_append, List.length_replicate, List.length_cons, List.length_nil]; decide
  · rw [List.length_replicate]; decide
theorem HighPackedByteFails_witness_fcParse :
    let w : List Byte := [0xF0, 0x00, 0x21, 0x5B, 0x02, 0x01, 0x06, 0x01] ++
      (List.replicate 2038 0x7F ++ 0x80 :: []) ++ [0xF7]
    (start 0 w).cfg.legal ∧ (start 0 w).operandIs w ∧
      10 + (List.replicate 2038 (0x7F : Byte)).length + ([] : List Byte).length
        ≤ (start 0 w).cfg.bufCap ∧
      (∀ x ∈ List.replicate 2038 (0x7F : Byte), x < 0x80#8) ∧ 0x80#8 ≤ 0x80 := by
  refine ⟨by decide, start_operandIs _ _ ?_, ?_, below_replicate _, by decide⟩
  · simp only [List.length_append, List.length_replicate, List.length_cons, List.length_nil]; decide
  · rw [List.length_replicate]; decide
/-- V16, V15, V50. -/
theorem BufferOverflowComesFirst_witness :
    State.reset.cfg.legal ∧
      ({ State.reset with ilen := 2049 } : State).cfg.bufCap < (2049 : Half).toNat ∧
      ({ State.reset with ilen := 1793 } : State).cfg.bufCap < packedLen (1793 : Half).toNat ∧
      ({ State.reset with ilen := 1785 } : State).cfg.bufCap < 9 + packedLen (1785 : Half).toNat := by
  decide
theorem UnwrittenOperandIsRefused_witness :
    let s : State := { State.reset with ilen := 1 }
    0 < s.ilen.toNat ∧ s.ibuf.read 0 = none ∧ s.ilen.toNat ≤ s.cfg.bufCap ∧
      packedLen s.ilen.toNat ≤ s.cfg.bufCap ∧ 9 + packedLen s.ilen.toNat ≤ s.cfg.bufCap := by decide
theorem UnwrittenOperandIsRefused_witness_fcParse :
    let s : State := { start 0 (List.replicate 8 0xF0) with ilen := 9 }
    8 < s.ilen.toNat ∧ s.ibuf.read 8 = none ∧ s.ilen.toNat ≤ s.cfg.bufCap ∧ 9 ≤ s.ilen.toNat := by
  decide
theorem FirstStartAfterReset_witness :
    result (exec .fcBuild ({ State.reset with op := 2, msgid := 0xFF } : State).acceptStart)
      = some (.ok, 0, 9, 0, [0xF0, 0x00, 0x21, 0x5B, 0x02, 0x01, 0x06, 0xFF, 0xF7]) := by decide
theorem OperandsAloneDetermineTheResult_witness :
    let s := start 0x55 [0x81]
    let s' : State := { s with olen := 7, status := .bufferOverflow, rmsgid := 3, ev := .pass }
    s'.op = s.op ∧ s'.msgid = s.msgid ∧ s'.ilen = s.ilen ∧ s'.cfg.bufCap = s.cfg.bufCap ∧
      (∀ k, k < s.ilen.toNat → s'.ibuf.read k = s.ibuf.read k) ∧
      ∃ t, runPattern (.cmd s.op) s = .next t :=
  ⟨rfl, rfl, rfl, rfl, fun _ _ => rfl, _, rfl⟩
theorem TransactionEndsInOneCommit_witness :
    (start 0 [0x80]).cfg.legal ∧ Instr.bpDec ∈ [Instr.bpEnc, .bpDec, .fcBuild, .fcParse] ∧
      ∃ t, exec .bpDec (start 0 [0x80]) = .next t := ⟨by decide, by decide, _, rfl⟩
theorem idle_witness :
    State.reset.cfg.legal ∧ State.reset.ibuf.wf ∧ State.reset.busy = false ∧ State.reset.flagsLegal ∧
      State.reset.statusLegal := by decide
theorem EnterAckExitBuildTheirFrames_witness : State.reset.cfg.legal ∧ State.reset.busy = false := by
  decide
/-- 356 entries are the most that fit, 357 overflow, 13107 are the most that ILEN can say. -/
theorem LedBuildsOrOverflows_witness :
    (∀ n, ∀ e ∈ List.replicate n (⟨15, 15, 127, 127, 127⟩ : LedEntry), ledEntryInRange e) ∧
      9 + packedLen (5 * 356) ≤ State.reset.cfg.bufCap ∧
      State.reset.cfg.bufCap < 9 + packedLen (5 * 357) ∧ 5 * 13107 ≤ 65535 := by
  refine ⟨fun n e he => ?_, by decide, by decide, by decide⟩
  rw [List.eq_of_mem_replicate he]; simp [ledEntryInRange]
theorem LedRingBuildsOrOverflows_witness :
    (∀ n, ∀ e ∈ List.replicate n (⟨15, 127, 127, 127, 16383, true⟩ : LedRingEntry),
        ledRingEntryInRange e) ∧
      9 + packedLen (7 * 254) ≤ State.reset.cfg.bufCap ∧
      State.reset.cfg.bufCap < 9 + packedLen (7 * 255) ∧ 7 * 9362 ≤ 65535 := by
  refine ⟨fun n e he => ?_, by decide, by decide, by decide⟩
  rw [List.eq_of_mem_replicate he]; simp [ledRingEntryInRange]
theorem OledRowsBuildTheirFrames_witness :
    (List.replicate 1024 (0xAA : Byte)).length = 1024 ∧ (List.replicate 16 (0x41 : Byte)).length = 16 ∧
      (List.replicate 16 [(0 : Byte), 0, 0, 0]).length = 16 ∧
      ∀ l ∈ List.replicate 16 [(0 : Byte), 0, 0, 0], l.length = 4 := by
  refine ⟨List.length_replicate, List.length_replicate, List.length_replicate, fun l hl => ?_⟩
  rw [List.eq_of_mem_replicate hl]; rfl
theorem InvalidRecordsProduceNothing_witness :
    (15 < (⟨16, 0, 0, 0, 0⟩ : LedEntry).enc) ∧
      ((⟨15, 15, 127, 127, 128⟩ : LedEntry).g ≤ 127 ∧ 127 < (⟨15, 15, 127, 127, 128⟩ : LedEntry).b) ∧
      ((⟨15, 127, 127, 127, 16384, true⟩ : LedRingEntry).b ≤ 127 ∧
        16383 < (⟨15, 127, 127, 127, 16384, true⟩ : LedRingEntry).ringAmount) ∧
      (List.replicate 1023 (0 : Byte)).length ≠ 1024 ∧
      ¬((List.replicate 15 (0 : Byte)).length = 16) := by
  simp only [List.length_replicate]; decide
theorem FrameRowIsParsed_witness :
    9 + (List.replicate 2039 (0x7F : Byte)).length ≤ State.reset.cfg.bufCap ∧
      State.reset.cfg.bufCap < 9 + (List.replicate 2040 (0x7F : Byte)).length ∧
      9 + (List.replicate 65526 (0x7F : Byte)).length ≤ 65535 ∧
      (∀ b ∈ List.replicate 2039 (0x7F : Byte), b < 0x80#8) ∧ 0x80#8 ≤ 0x80 := by
  simp only [List.length_replicate]
  exact ⟨by decide, by decide, by decide, below_replicate _, by decide⟩
theorem IllegalBytesMakeTheirFailureCommit_witness :
    (todo [.frameRow [0xF0]]).inbox = .frameRow [0xF0] :: [] ∧ (todo [.frameRow [0xF0]]).cfg.legal ∧
      (todo [.frameRow [0xF0]]).ibuf.wf ∧ (todo [.frameRow [0xF0]]).busy = false ∧
      [(0xF0 : Byte)].length ≤ (todo [.frameRow [0xF0]]).cfg.bufCap ∧
      parse [0xF0] = .error ⟨.headerMismatch, 1⟩ ∧
      [(0x7F : Byte), 0x80] = [0x7F] ++ 0x80 :: [] ∧
      (∀ x ∈ [(0x7F : Byte)], x < 0x80#8) ∧ 0x80#8 ≤ 0x80 := by decide
/-- More bytes than BUF_CAP that `parse` rejects, and the same bytes with the high one first. -/
theorem IllegalBytesMakeTheirFailureCommit_witness_long :
    let w : List Byte := 0x80 :: List.replicate 2048 0
    State.reset.cfg.bufCap < w.length ∧ w.length ≤ 65535 ∧
      parse w = .error ⟨.headerMismatch, 0⟩ ∧ w = [] ++ 0x80 :: List.replicate 2048 0 := by
  refine ⟨?_, ?_, ?_, rfl⟩
  · rw [List.length_cons, List.length_replicate]; decide
  · rw [List.length_cons, List.length_replicate]; decide
  · rw [parse, if_neg (by rw [List.length_cons, List.length_replicate]; decide)]; rfl
/-- One byte, nine bytes, more than BUF_CAP, and a stray bit in the lowest and in the highest
place. -/
theorem GroupBytesOfNoRowAreUnpacked_witness :
    (todo [.groupRow [0x05]]).inbox = .groupRow [0x05] :: [] ∧ (todo [.groupRow [0x05]]).cfg.legal ∧
      (todo [.groupRow [0x05]]).ibuf.wf ∧ (todo [.groupRow [0x05]]).busy = false ∧
      ([(0x05 : Byte)].length < 2 ∧ ∀ b ∈ [(0x05 : Byte)], b < 0x80#8) ∧
      8 < (List.replicate 9 (0x7F : Byte)).length ∧
      ([(0x02 : Byte), 0x10].length - 1 ≤ 1 ∧ ([(0x02 : Byte), 0x10].getD 0 0).getLsbD 1 = true) ∧
      ([(0x40 : Byte), 0, 0, 0, 0, 0, 0].length - 1 ≤ 6 ∧
        ([(0x40 : Byte), 0, 0, 0, 0, 0, 0].getD 0 0).getLsbD 6 = true) := by decide
theorem GroupBytesOfNoRowAreUnpacked_witness_long :
    State.reset.cfg.bufCap < (List.replicate 2049 (0x7F : Byte)).length ∧
      (List.replicate 2049 (0x7F : Byte)).length ≤ 65535 ∧
      ∀ b ∈ List.replicate 2049 (0x7F : Byte), b < 0x80#8 := by
  refine ⟨?_, ?_, below_replicate _⟩ <;> rw [List.length_replicate] <;> decide
theorem GroupRowIsPacked_witness :
    1 ≤ [(0xFF : Byte)].length ∧ (List.replicate 7 (0xFF : Byte)).length ≤ 7 := by decide
theorem RowsBegunWhileBusyAreLost_witness :
    (start 0 [0x81]).busy = true ∧ encodeMsg (.led []) = .ok (0x01, []) ∧
      ∃ t, runPattern (.cmd (start 0 [0x81]).op) { start 0 [0x81] with rdata := none } = .next t :=
  ⟨rfl, rfl, _, rfl⟩
theorem OperandBeyondIlenOverflows_witness :
    65535 < (List.replicate 65536 (0 : Byte)).length ∧
      65535 < 9 + (List.replicate 65527 (0 : Byte)).length ∧
      65535 < 5 * (List.replicate 13108 (⟨0, 0, 0, 0, 0⟩ : LedEntry)).length ∧
      65535 < 7 * (List.replicate 9363 (⟨0, 0, 0, 0, 0, false⟩ : LedRingEntry)).length := by
  simp only [List.length_replicate]; decide
/-- The length is that of 65536 zeros; the rest holds of any such sequence. -/
theorem OperandBeyondIlenOverflows_witness_bytes :
    (List.replicate 65535 (0 : Byte)).length = 65535 ∧
    ∀ l : List Byte, l.length = 65535 → 65535 < (0 :: l).length ∧
      (todo [.groupRow (0 :: l)]).inbox = .groupRow (0 :: l) :: [] ∧
      (todo [.frameRow (0 :: l)]).inbox = .frameRow (0 :: l) :: [] ∧
      decode (.frame (0 :: l)) = .error (.notAFrame ⟨.headerMismatch, 0⟩) := by
  refine ⟨List.length_replicate, fun l hl => ⟨by rw [List.length_cons, hl]; decide, rfl, rfl, ?_⟩⟩
  have hp : parse (0 :: l) = .error ⟨.headerMismatch, 0⟩ := by
    rw [parse, if_neg (by rw [List.length_cons, hl]; decide)]; rfl
  simp only [decode, decodeFrame, hp]
theorem EncoderTurnDrivesBothReadings_witness :
    1 ≤ (16 : BitVec 7).toNat ∧ (16 : BitVec 7).toNat ≤ 16 ∧ 1 ≤ (15 : BitVec 7).toNat ∧
      (15 : BitVec 7).toNat ≤ 15 ∧ State.reset.cfg.encResolve = .both ∧
      ({ State.reset with cfg := { encResolve := .cw } } : State).cfg.encResolve = .cw ∧
      ({ State.reset with cfg := { encResolve := .ccw } } : State).cfg.encResolve = .ccw := by decide
theorem EncoderUndefinedValueHasNoDelta_witness :
    1 ≤ (1 : BitVec 7).toNat ∧ (16 : BitVec 7).toNat ≤ 16 ∧ (0 : BitVec 7).toNat = 0 ∧
      16 ≤ (16 : BitVec 7).toNat := by decide
theorem ButtonRowsReportPressAndRelease_witness :
    (16 : BitVec 7).toNat ≤ 16 ∧ 1 ≤ (1 : BitVec 7).toNat := by decide
theorem OtherMessagesPassThrough_witness :
    let other (st d1 d2 : Byte) : Prop := ¬(d1.toNat < 128 ∧ d2.toNat < 128 ∧
      ((st = 0xB0 ∧ 1 ≤ d1.toNat ∧ d1.toNat ≤ 16) ∨ ((st = 0x90 ∨ st = 0x80) ∧ d1.toNat ≤ 16)))
    other 0xB0 0 5 ∧ other 0xB0 17 5 ∧ other 0x90 17 0x40 ∧ other 0xB0 1 0x81 ∧ other 0xF0 1 1 := by
  decide
theorem ChannelMessageClasses_witness :
    (1 ≤ (16 : Byte).toNat ∧ (16 : Byte).toNat ≤ 16 ∧ 1 ≤ (15 : Byte).toNat ∧ (15 : Byte).toNat ≤ 15) ∧
      ((0 : Byte).toNat = 0 ∧ 16 ≤ (16 : Byte).toNat ∧ (127 : Byte).toNat ≤ 127) ∧
      ¬((0 : Byte).toNat ≤ 127 ∧ (((0xB1 : Byte) = 0xB0 ∧ 1 ≤ (1 : Byte).toNat ∧ (1 : Byte).toNat ≤ 16) ∨
        (((0xB1 : Byte) = 0x90 ∨ (0xB1 : Byte) = 0x80) ∧ (1 : Byte).toNat ≤ 16))) := by decide
theorem DecoderLaws_witness :
    (dedDecode 0xB0 16 15).kind = .encTurn ∧ (dedDecode 0xB0 16 127).kind = .encUndef ∧
      (dedDecode 0x90 16 127).kind = .button := by decide
theorem ClassifiedDecoderAgrees_witness : (0x80 : Byte).msb = true := by decide
theorem UnitsShareNothing_witness :
    (∃ t, clockEdge BusCycle.idle State.reset = .next t) ∧
      (todo [.drive true 0xB0 1 1]).inbox = [.drive true 0xB0 1 1] ∧
      (todo [.drive false 0xB0 1 1]).inbox = [.drive false 0xB0 1 1] := ⟨⟨_, rfl⟩, rfl, rfl⟩
theorem StepRunsTheDecodedInstruction_witness :
    ((start 0 []).inbox = [] ∧ (start 0 []).busy = true ∧ (start 0 []).left = 0 ∧
        decode (.cmd (start 0 []).op) = .ok .bpEnc) ∧
      BusCycle.idle.rst = false ∧ decode (.chmsg 0xB0 16 15) = .ok (.encTurn 16 15) ∧
      decode (.frame [0xF0, 0x00, 0x21, 0x5B, 0x02, 0x01, 0x06, 0x55, 0xF7]) = .ok .enter ∧
      decode (.group [0x01, 0x00]) = .ok (.group [0x80]) := by decide
theorem StartStrobe_witness :
    State.reset.busy = false ∧ 0 < ({ start 0 [] with left := 1 } : State).left ∧
      (start 0 []).busy = true ∧ (start 0 []).left = 0 := by decide
theorem HostWritesWhileIdle_witness :
    State.reset.busy = false ∧ 4 ≤ (4 : Half).toNat ∧ (2047 : Half).toNat < State.reset.cfg.bufCap ∧
      State.reset.ibuf.wf ∧ State.reset.cfg.bufCap ≤ (2048 : Half).toNat := by decide
theorem HostWritesWhileBusyAreIgnored_witness :
    let c : BusCycle := { sel := 1, addr := 0, we := true, wdata := 0xFFFF }
    (start 0 []).busy = true ∧ c.rst = false ∧ c.we = true ∧ (start 0 []).left = 0 ∧
      0 < ({ start 0 [] with left := 1 } : State).left := by decide
theorem HostReads_witness :
    ((start 0 []).busy = true ∧ (start 0 []).left = 0 ∧
        0 < ({ start 0 [] with left := 1 } : State).left) ∧
      State.reset.busy = false ∧ 8 ≤ (8 : Half).toNat ∧ (0 : Half).toNat < (start 0 [0x81]).cfg.bufCap ∧
      (start 0 [0x81]).ibuf.read (0 : Half).toNat = some 0x81 ∧
      ({ State.reset with obuf := [(0, 0x81)] } : State).obuf.read (0 : Half).toNat = some 0x81 := by
  decide
theorem ResetEdgeClearsThePfe_witness : ({ rst := true } : BusCycle).rst = true := rfl
theorem RunningTransactionCommits_witness :
    (start 0 [0x81]).busy = true ∧ (start 0 [0x81]).inbox = [] ∧
      ∀ k, k < (start 0 [0x81]).ilen.toNat → ∃ b, (start 0 [0x81]).ibuf.read k = some b := by
  refine ⟨rfl, rfl, fun k hk => ⟨0x81, ?_⟩⟩
  have : k = 0 := by
    have h1 : (start 0 [0x81]).ilen.toNat = 1 := rfl
    omega
  subst this; rfl
theorem LineIsTheTransactionOpSelects_witness :
    (todo [.line 2 0x99 [0x81]]).inbox = .line 2 0x99 [0x81] :: [] ∧
      decode (.cmd 2) = .ok .fcBuild ∧ (todo [.line 2 0x99 [0x81]]).busy = false ∧
      (todo [.line 2 0x99 [0x81]]).ibuf.wf ∧
      ({ start 0 [0x81] with inbox := [.line 0 0 []] } : State).busy = true ∧
      (List.replicate 65535 (0 : Byte)).length ≤ 65535 ∧
      65535 < (List.replicate 65536 (0 : Byte)).length := by
  simp only [List.length_replicate]; decide
theorem CopyMovesTheResult_witness :
    let s : State := { todo [.copy] with olen := 2, obuf := [(0, 0x01), (1, 0x7F)] }
    s.inbox = .copy :: [] ∧ s.busy = false ∧ s.ibuf.wf ∧ s.resultIs [0x01, 0x7F] ∧
      [(0x01 : Byte), 0x7F].length ≤ s.cfg.bufCap := by
  refine ⟨rfl, rfl, by decide, ⟨rfl, fun k => ?_⟩, by decide⟩
  exact Memory.read_ofBytes_zero [0x01, 0x7F] k
theorem DispatchParsesAndDecodes_witness :
    let w : List Byte := [0xF0, 0x00, 0x21, 0x5B, 0x02, 0x01, 0x06, 0x53, 0xF7]
    (todo [.dispatch w]).inbox = .dispatch w :: [] ∧ (todo [.dispatch w]).cfg.legal ∧
      (todo [.dispatch w]).ibuf.wf ∧ (todo [.dispatch w]).busy = false ∧
      w.length ≤ (todo [.dispatch w]).cfg.bufCap ∧ parse w = .ok (0x53, []) ∧
      decodeMsg 0x53 [] = .ok .ackEntered ∧ decodeMsg 0x05 [] = .error (.unknownMessage 0x05) ∧
      parse [0xF0] = .error ⟨.headerMismatch, 1⟩ :=
  ⟨rfl, by decide, by decide, rfl, by decide, by decide, by decide, by decide, by decide⟩
theorem DecodeInvertsEncode_witness :
    (Instr.led [⟨15, 15, 127, 127, 127⟩]).wellFormed = true ∧
      (Instr.frame 0xFF [0x7F]).wellFormed = true ∧
      (Instr.group (List.replicate 7 0xFF)).wellFormed = true ∧
      (Instr.encTurn 16 15).wellFormed = true ∧ (Instr.pass 0xB0 17 15).wellFormed = true := by decide
theorem EncodeInvertsDecode_witness : decode (.chmsg 0xB0 0x10 0x0F) = .ok (.encTurn 16 15) := by decide
theorem IllegalEncodingsAreRefused_witness :
    decode (.frame [0xF0]) = .error (.notAFrame ⟨.headerMismatch, 1⟩) ∧
      decode (.group [0x00]) = .error .groupLength ∧ decode (.group [0x80, 0x00]) = .error .groupHighByte ∧
      decode (.group [0x40, 0x00]) = .error .groupStrayBits ∧
      (([] : List Byte).length < 2 ∧ 8 < (List.replicate 9 (0 : Byte)).length) ∧
      (2 ≤ [(0x00 : Byte), 0x80].length ∧ [(0 : Byte), 0, 0, 0, 0, 0, 0, 0x80].length ≤ 8 ∧
        ∃ b ∈ [(0x00 : Byte), 0x80], 0x80#8 ≤ b) ∧
      ((∀ b ∈ [(0x02 : Byte), 0x10], b < 0x80#8) ∧ [(0x02 : Byte), 0x10].length - 1 ≤ 1 ∧
        ([(0x02 : Byte), 0x10].getD 0 0).getLsbD 1 = true) ∧
      parse [0xF0] = .error ⟨.headerMismatch, 1⟩ := by decide
/-- The hypotheses of the statements about every step (that the whole of `legal` holds of the reset
state is a statement of its own; here its parts that a witness needs). -/
theorem EveryStep_witness :
    State.reset.flagsLegal ∧ State.reset.statusLegal ∧ State.reset.buffersLegal ∧
      State.reset.resultLegal ∧ ∃ t, step State.reset = .next t :=
  ⟨by decide, by decide, ⟨by decide, by decide, fun _ h => by cases h⟩, by decide, _, rfl⟩

end Sys2Proof.Tests
end

section
/-! Lengths of packed sequences and frames (R102, R123), and of the payload of an OledLabels record
(R164, R170). -/

namespace Sys2Proof.Machine

theorem pack_length (raw : List Byte) : (pack raw).length = packedLen raw.length := by
  induction h : raw.length using Nat.strong_induction_on generalizing raw with
  | _ n ih =>
    subst h
    cases raw with
    | nil => rfl
    | cons r rs =>
      have hrest := ih ((r :: rs).drop 7).length (by simp) _ rfl
      rw [pack_cons, List.length_append, packGroup_length, hrest]
      simp only [packedLen, List.length_take, List.length_drop, List.length_cons]
      omega

theorem frame_length (id : Byte) (raw : List Byte) :
    (frame id raw).length = 9 + packedLen raw.length := by
  simp only [frame, wire, hdr, List.length_append, List.length_cons, List.length_nil, pack_length]
  omega

theorem le_packedLen (n : Nat) : n ≤ packedLen n := Nat.le_add_right _ _

theorem labelsShape_iff {title : List Byte} {labels : List (List Byte)} :
    labelsShape title labels = true ↔
      title.length = 16 ∧ labels.length = 16 ∧ ∀ l ∈ labels, l.length = 4 := by
  simp [labelsShape, and_assoc]

theorem flattenLabels_length {title : List Byte} {labels : List (List Byte)}
    (h : labelsShape title labels = true) : (flattenLabels title labels).length = 80 := by
  obtain ⟨ht, hl, hall⟩ := labelsShape_iff.mp h
  have hlens : labels.map List.length = List.replicate 16 4 :=
    List.eq_replicate_iff.mpr ⟨by simp [hl], by simpa using hall⟩
  rw [flattenLabels, List.length_append, List.length_flatten, hlens, ht]
  rfl

end Sys2Proof.Machine
end

section
/-! A message row with the PFE idle whose frame fits: the one FC.BUILD it stands for commits its
frame (R88, R124, R173). -/

namespace Sys2Proof.Machine

theorem execFcBuild_of_fits {s : State} {raw : List Byte} (ho : s.operandIs raw)
    (hfit : 9 + packedLen raw.length ≤ s.cfg.bufCap) :
    execFcBuild s = .next (s.commitOk (frame s.msgid raw) 0) := by
  have hle := le_packedLen raw.length
  have hlen : s.ilen.toNat = raw.length := ho.1
  rw [execFcBuild, hlen, if_neg (by omega), if_neg (by omega),
    State.withOperand_some (State.operand_eq_some.mpr ho)]

/-- A success commit leaves what R195 says, where OLEN's 16 bits can say the result's length. -/
theorem State.commitOk_succeeded (s : State) {bytes : List Byte} (id : Byte)
    (h : bytes.length ≤ 65535) : (s.commitOk bytes id).succeeded bytes id := by
  refine ⟨⟨rfl, rfl, rfl⟩, rfl, rfl, rfl, ?_, Memory.read_ofBytes_zero bytes⟩
  rw [State.commitOk_olen, BitVec.toNat_ofNat]
  exact Nat.mod_eq_of_lt (by omega)

/-- FC.BUILD's line with the PFE idle, where the frame fits: the commit of its frame, in a state that
has the line's operands in place. -/
theorem State.line_fcBuild_of_fits {s : State} {id : Byte} {raw : List Byte} (hcap : s.cfg.legal)
    (hw : s.ibuf.wf) (hb : s.busy = false) (hfit : 9 + packedLen raw.length ≤ s.cfg.bufCap) :
    ∃ u : State, s.line 2 id raw = .next (u.commitOk (frame id raw) 0) ∧
      u.op = 2 ∧ u.msgid = id ∧ u.ilen.toNat = raw.length ∧
      (∀ k, u.ibuf.read k = if k < raw.length then raw[k]? else s.ibuf.read k) ∧
      u.rdata = none ∧ s.sameBesidePfe u := by
  obtain ⟨-, hcap⟩ := hcap
  have hle := le_packedLen raw.length
  have hlen : raw.length ≤ 65535 := by omega
  obtain ⟨m, n, hn, -, hread, -, hline⟩ := State.line_idle hb hw 2 id raw
  rw [if_pos hlen] at hn
  rw [if_pos hlen, if_pos rfl] at hline
  have hilen : n.toNat = raw.length := by
    rw [hn, BitVec.toNat_ofNat]; exact Nat.mod_eq_of_lt (by omega)
  have hibuf : ∀ k, m.read k = if k < raw.length then raw[k]? else s.ibuf.read k := fun k => by
    have hbound : (k < raw.length ∧ k < s.cfg.bufCap) ↔ k < raw.length := by omega
    simp only [hread, hbound]
  have hoperand : ∀ k, k < raw.length → m.read k = raw[k]? := fun k hk => by
    rw [hibuf, if_pos hk]
  exact ⟨_, hline.trans (execFcBuild_of_fits ⟨hilen, hoperand⟩ hfit), rfl, rfl, hilen, hibuf, rfl,
    rfl, rfl, rfl, rfl, rfl⟩

theorem State.sendMessage_builds {s : State} {m : Message} {id : Byte} {raw : List Byte}
    (he : encodeMsg m = .ok (id, raw)) (hcap : s.cfg.legal) (hw : s.ibuf.wf) (hb : s.busy = false)
    (hfit : 9 + packedLen raw.length ≤ s.cfg.bufCap) :
    ∃ t, s.sendMessage m = .next t ∧ s.builds t id raw := by
  obtain ⟨u, hline, hop, hmsgid, hilen, hibuf, hrdata, hsame⟩ :=
    State.line_fcBuild_of_fits (id := id) hcap hw hb hfit
  have hframe : (frame id raw).length ≤ 65535 := by
    rw [frame_length]; exact hfit.trans hcap.2
  refine ⟨{ u.commitOk (frame id raw) 0 with layer := .built }, ?_, ?_⟩
  · simp only [State.sendMessage, he, hline, State.buildResult, State.commitOk_status, if_true]
  · exact ⟨u.commitOk_succeeded 0 hframe, hop, hmsgid, hilen, hibuf, rfl, hrdata, hsame⟩

theorem State.builds_olen {s t : State} {id : Byte} {raw : List Byte} (h : s.builds t id raw) :
    t.olen.toNat = 9 + packedLen raw.length := by
  obtain ⟨⟨-, -, -, -, holen, -⟩, -⟩ := h
  rw [holen, frame_length]

/-- Settles O27: both payloads have a fixed length, and R10's least BUF_CAP is the longer of the two
frames. -/
theorem oledRowsBuildTheirFrames : Obligations.OledRowsBuildTheirFrames := by
  refine ⟨fun s fb hcap hw hb hfb => ?_, fun s title labels hcap hw hb ht hl hall => ?_⟩
  · have hsize : 9 + packedLen fb.length = 1180 := by rw [hfb]; rfl
    have he : encodeMsg (.oledFramebuffer fb) = .ok (0x02, fb) := if_pos hfb
    obtain ⟨t, hrun, hbuilds⟩ := State.sendMessage_builds he hcap hw hb (hsize.trans_le hcap.1)
    exact ⟨t, hrun, hbuilds, (State.builds_olen hbuilds).trans hsize⟩
  · have hshape := labelsShape_iff.mpr ⟨ht, hl, hall⟩
    have hsize : 9 + packedLen (flattenLabels title labels).length = 101 := by
      rw [flattenLabels_length hshape]; rfl
    have he : encodeMsg (.oledLabels title labels) = .ok (0x03, flattenLabels title labels) :=
      if_pos hshape
    have hfit : 9 + packedLen (flattenLabels title labels).length ≤ s.cfg.bufCap := by
      rw [hsize]; exact le_trans (by decide) hcap.1
    obtain ⟨t, hrun, hbuilds⟩ := State.sendMessage_builds he hcap hw hb hfit
    exact ⟨t, hrun, hbuilds, (State.builds_olen hbuilds).trans hsize⟩

end Sys2Proof.Machine
end

section
/-! What no step touches: the parameters, and the host's list beyond its first action (R10, R20). -/

namespace Sys2Proof.Machine

/-- The parameters and the host's list are these. -/
def State.HasCfgInbox (cfg : Params) (inbox : List HostAction) (s : State) : Prop :=
  s.cfg = cfg ∧ s.inbox = inbox

/-- A commit writes the result and the flags alone, so it keeps both (R195, R196). -/
theorem State.HasCfgInbox.of_runSelected {cfg : Params} {inbox : List HostAction} {s t : State}
    (h : s.HasCfgInbox cfg inbox) (ht : runSelected s = .next t) : t.HasCfgInbox cfg inbox := by
  rcases runSelected_next ht with ⟨bytes, id, rfl⟩ | ⟨f, -, rfl⟩
  · exact h
  · exact h

theorem State.HasCfgInbox.keptByMoves (cfg : Params) (inbox : List HostAction) :
    KeptByMoves (State.HasCfgInbox cfg inbox) where
  op _ _ _ h := h
  msgid _ _ _ h := h
  ilen _ _ _ h := h
  start _ _ h := h
  ibuf _ _ _ _ _ h := h
  rdata _ _ h := h
  draws _ _ h := h
  layer _ _ h := h
  wait _ _ _ h := h
  reset _ h := h
  commit _ _ h ht := h.of_runSelected ht
  present _ _ _ _ h := h
  withdraw _ _ _ _ h := h

/-- Settles O58: no elementary move of a step writes a parameter or the host's list, and the type of
faults is empty. -/
theorem stepsKeepTheParameters : Obligations.StepsKeepTheParameters := by
  refine ⟨fun s t ht => ?_, fun _ f => nomatch f⟩
  exact (State.HasCfgInbox.keptByMoves s.cfg s.inbox.tail).step ⟨rfl, rfl⟩ ht

end Sys2Proof.Machine
end

section
/-! The invariant of every step (R29, R33, R50, R191): each part is kept by the elementary moves of
`KeptByMoves`. -/

namespace Sys2Proof.Machine

/-- A transaction that answers commits a result that fits OBUF, or a failure of CORE's (R193). -/
theorem runSelected_next_fits {s t : State} (h : runSelected s = .next t) :
    (∃ bytes id, bytes.length ≤ s.cfg.bufCap ∧ t = s.commitOk bytes id) ∨
      ∃ f, coreKind f.kind ∧ t = s.raise f := by
  have hoverflow : coreKind .bufferOverflow := .inr (.inr (.inr rfl))
  unfold runSelected at h
  split_ifs at h
  · rcases execBpEnc_next h with ⟨-, ht⟩ | ⟨raw, -, hfit, ht⟩
    · exact .inr ⟨_, hoverflow, ht⟩
    · exact .inl ⟨_, _, (pack_length raw).trans_le hfit, ht⟩
  · rcases execBpDec_next h with ⟨-, ht⟩ | ⟨p, -, hfit, ⟨k, -, ht⟩ | ⟨-, ht⟩⟩
    · exact .inr ⟨_, hoverflow, ht⟩
    · exact .inr ⟨_, .inr (.inr (.inl rfl)), ht⟩
    · exact .inl ⟨_, _, (unpack_length_le p).trans hfit, ht⟩
  · rcases execFcBuild_next h with ⟨-, ht⟩ | ⟨raw, -, hfit, ht⟩
    · exact .inr ⟨_, hoverflow, ht⟩
    · exact .inl ⟨_, _, (frame_length _ raw).trans_le hfit, ht⟩
  · rcases execFcParse_next h with ⟨-, ht⟩ | ⟨-, ht⟩ | ⟨w, -, hfit, ⟨f, hf, ht⟩ | ⟨id, raw, hp, ht⟩⟩
    · exact .inr ⟨_, hoverflow, ht⟩
    · exact .inr ⟨_, .inl rfl, ht⟩
    · exact .inr ⟨_, parse_error_kind hf, ht⟩
    · exact .inl ⟨_, _, (parse_ok_length hp).trans hfit, ht⟩

/-- Every answer of the decoder has `ev_valid` set (R144). -/
theorem dedDecode_valid (st d1 d2 : Byte) : (dedDecode st d1 d2).valid = true := by
  simp only [dedDecode]
  split_ifs <;> rfl

theorem coreKind_ne_ok {k : Status} (h : coreKind k) : k ≠ .ok := by
  rcases h with rfl | rfl | rfl | rfl <;> decide

theorem State.raise_statusLegal (s : State) {f : Failure} (h : coreKind f.kind) :
    (s.raise f).statusLegal := by
  rcases h with h | h | h | h <;> simp [State.statusLegal, h]

/-- The flags and STATUS need nothing else of the state (R29, R191). -/
theorem flagsStatusLegal_keptByMoves :
    KeptByMoves fun s => s.flagsLegal ∧ s.statusLegal where
  op _ _ _ h := h
  msgid _ _ _ h := h
  ilen _ _ _ h := h
  start s _ h := ⟨⟨rfl, fun hb => nomatch hb⟩, h.2⟩
  ibuf _ _ _ _ _ h := h
  rdata _ _ h := h
  draws _ _ h := h
  layer _ _ h := h
  wait s n hb h := ⟨⟨h.1.1, fun hb' => absurd (hb.symm.trans hb') (by decide)⟩, h.2⟩
  reset _ _ := ⟨⟨rfl, fun _ => rfl⟩, .inl rfl⟩
  commit s t _ ht := by
    rcases runSelected_next ht with ⟨bytes, id, rfl⟩ | ⟨f, hf, rfl⟩
    · exact ⟨⟨rfl, fun _ => rfl⟩, .inl rfl⟩
    · exact ⟨⟨rfl, fun _ => rfl⟩, s.raise_statusLegal hf⟩
  present _ _ _ _ h := h
  withdraw _ _ _ _ h := h

/-- Settles O57: every elementary move keeps both parts. -/
theorem everyStepKeepsStatusLegal : Obligations.EveryStepKeepsStatusLegal :=
  fun _ _ hflags hstatus ht => flagsStatusLegal_keptByMoves.step ⟨hflags, hstatus⟩ ht

/-- The canonical form of the buffers: only an IBUF write, a commit and a reset touch them (R50). -/
theorem buffersLegal_keptByMoves : KeptByMoves State.buffersLegal where
  op _ _ _ h := h
  msgid _ _ _ h := h
  ilen _ _ _ h := h
  start _ _ h := h
  ibuf s k v _ hk h := by
    obtain ⟨hi, ho, hbound⟩ := h
    refine ⟨Memory.write_wf hi k v, ho, fun c hc => ?_⟩
    rcases Memory.mem_write hc with rfl | hc
    · exact hk
    · exact hbound c hc
  rdata _ _ h := h
  draws _ _ h := h
  layer _ _ h := h
  wait _ _ _ h := h
  reset _ _ := ⟨.nil, .nil, fun _ hc => nomatch hc⟩
  commit s t h ht := by
    obtain ⟨hi, -, hbound⟩ := h
    rcases runSelected_next ht with ⟨bytes, id, rfl⟩ | ⟨f, -, rfl⟩
    · exact ⟨hi, Memory.ofBytes_wf bytes 0, hbound⟩
    · exact ⟨hi, .nil, hbound⟩
  present _ _ _ _ h := h
  withdraw _ _ _ _ h := h

theorem State.commitOk_resultLegal {s : State} {bytes : List Byte} (id : Byte) (hcap : s.cfg.legal)
    (hfit : bytes.length ≤ s.cfg.bufCap) : (s.commitOk bytes id).resultLegal := by
  obtain ⟨-, hcap⟩ := hcap
  have holen : (s.commitOk bytes id).olen.toNat = bytes.length := by
    rw [State.commitOk_olen, BitVec.toNat_ofNat]
    exact Nat.mod_eq_of_lt (by omega)
  refine ⟨?_, holen.trans_le hfit, fun h => absurd rfl h, fun _ => rfl⟩
  rw [holen, State.commitOk_obuf, Memory.map_fst_ofBytes, List.range_eq_range']

theorem State.raise_resultLegal (s : State) {f : Failure} (hf : coreKind f.kind) :
    (s.raise f).resultLegal :=
  ⟨rfl, Nat.zero_le _, fun _ => ⟨rfl, rfl⟩, fun h => absurd h (coreKind_ne_ok hf)⟩

/-- The result registers agree with OBUF; that OLEN's 16 bits say the result's length rests on R10's
bound on BUF_CAP. -/
theorem resultLegal_keptByMoves : KeptByMoves fun s => s.cfg.legal ∧ s.resultLegal where
  op _ _ _ h := h
  msgid _ _ _ h := h
  ilen _ _ _ h := h
  start _ _ h := h
  ibuf _ _ _ _ _ h := h
  rdata _ _ h := h
  draws _ _ h := h
  layer _ _ h := h
  wait _ _ _ h := h
  reset s h := ⟨h.1, rfl, Nat.zero_le _, fun _ => ⟨rfl, rfl⟩, fun _ => rfl⟩
  commit s t h ht := by
    rcases runSelected_next_fits ht with ⟨bytes, id, hfit, rfl⟩ | ⟨f, hf, rfl⟩
    · exact ⟨h.1, State.commitOk_resultLegal id h.1 hfit⟩
    · exact ⟨h.1, s.raise_resultLegal hf⟩
  present _ _ _ _ h := h
  withdraw _ _ _ _ h := h

/-- The DED's outputs follow its inputs: only a change at the inputs touches either (R20, R33). -/
theorem dedLegal_keptByMoves : KeptByMoves State.dedLegal where
  op _ _ _ h := h
  msgid _ _ _ h := h
  ilen _ _ _ h := h
  start _ _ h := h
  ibuf _ _ _ _ _ h := h
  rdata _ _ h := h
  draws _ _ h := h
  layer _ _ h := h
  wait _ _ _ h := h
  reset _ h := h
  commit s t h ht := by
    rcases runSelected_next ht with ⟨bytes, id, rfl⟩ | ⟨f, -, rfl⟩
    · exact h
    · exact h
  present s st d1 d2 _ := ⟨dedDecode_valid st d1 d2, fun _ => rfl⟩
  withdraw _ _ _ _ _ := ⟨rfl, fun h => nomatch h⟩

/-- Settles O55: each part of legality is kept by every step, and a step leaves the parameters. -/
theorem everyStepKeepsTheStateLegal : Obligations.EveryStepKeepsTheStateLegal := by
  rintro s t ⟨hcfg, hbuffers, hflags, hstatus, hresult, hded⟩ ht
  obtain ⟨hflags', hstatus'⟩ := everyStepKeepsStatusLegal s t hflags hstatus ht
  obtain ⟨hcfg', hresult'⟩ := resultLegal_keptByMoves.step ⟨hcfg, hresult⟩ ht
  exact ⟨hcfg', buffersLegal_keptByMoves.step hbuffers ht, hflags', hstatus', hresult',
    dedLegal_keptByMoves.step hded ht⟩

/-- Settles O56: nothing is running, no buffer byte has a value and the DED's outputs are free. -/
theorem resetIsLegal : Obligations.ResetIsLegal := by
  refine ⟨by decide, ⟨.nil, .nil, fun _ hc => nomatch hc⟩, ⟨rfl, fun _ => rfl⟩, .inl rfl, ?_, ?_⟩
  · exact ⟨rfl, Nat.zero_le _, fun h => absurd rfl h, fun _ => rfl⟩
  · exact ⟨rfl, fun h => nomatch h⟩

end Sys2Proof.Machine
end

section
/-! What a transaction answers on an operand that fits the buffers (R108, R109, R128). -/

namespace Sys2Proof.Machine

/-- A failure commit leaves what R196 says, where ERRINFO's 16 bits can say the info. -/
theorem State.raise_failedWith (s : State) {f : Failure} (h : f.info ≤ 65535) :
    (s.raise f).failedWith f.kind f.info := by
  refine ⟨⟨rfl, rfl, rfl⟩, rfl, ?_, rfl, rfl, fun _ => rfl⟩
  rw [State.raise_errinfo, BitVec.toNat_ofNat]
  exact Nat.mod_eq_of_lt (by omega)

theorem execBpEnc_of_fits {s : State} {raw : List Byte} (ho : s.operandIs raw)
    (hfit : packedLen raw.length ≤ s.cfg.bufCap) :
    execBpEnc s = .next (s.commitOk (pack raw) 0) := by
  have hle := le_packedLen raw.length
  have hlen : s.ilen.toNat = raw.length := ho.1
  rw [execBpEnc, hlen, if_neg (by omega), if_neg (by omega),
    State.withOperand_some (State.operand_eq_some.mpr ho)]

section
variable {s : State} {p : List Byte} (ho : s.operandIs p) (hfit : p.length ≤ s.cfg.bufCap)
include ho hfit

theorem execBpDec_of_lowBytes (hp : highByte? p = none) :
    execBpDec s = .next (s.commitOk (unpack p) 0) := by
  rw [execBpDec, ho.1, if_neg (by omega), State.withOperand_some (State.operand_eq_some.mpr ho), hp]

theorem execBpDec_of_highByte {k : Nat} (hp : highByte? p = some k) :
    execBpDec s = .next (s.raise ⟨.packedByteOutOfRange, k⟩) := by
  rw [execBpDec, ho.1, if_neg (by omega), State.withOperand_some (State.operand_eq_some.mpr ho), hp]

theorem execFcParse_of_parse_ok {id : Byte} {raw : List Byte} (hp : parse p = .ok (id, raw)) :
    execFcParse s = .next (s.commitOk raw id) := by
  have hlong : ¬ p.length < 9 := fun hshort => by
    rw [parse, if_pos hshort] at hp
    cases hp
  rw [execFcParse, ho.1, if_neg (by omega), if_neg hlong,
    State.withOperand_some (State.operand_eq_some.mpr ho), hp]

/-- A sequence of fewer than 9 bytes too, whose bytes FC.PARSE does not read (log 20). -/
theorem execFcParse_of_parse_error {f : Failure} (hp : parse p = .error f) :
    execFcParse s = .next (s.raise f) := by
  rw [execFcParse, ho.1, if_neg (by omega)]
  by_cases hshort : p.length < 9
  · rw [parse, if_pos hshort] at hp
    cases hp
    rw [if_pos hshort]
  · rw [if_neg hshort, State.withOperand_some (State.operand_eq_some.mpr ho), hp]

end

end Sys2Proof.Machine
end

section
/-! A transaction and its operand: refused where a byte of it was never written (R36, R222), a
function of the operands alone (R21, R34), and the first START after reset (R221). -/

namespace Sys2Proof.Machine

/-- Settles O20: a byte of the operand has no value, so it cannot be read, and no test that would
answer before it is read applies. -/
theorem unwrittenOperandIsRefused : Obligations.UnwrittenOperandIsRefused := by
  intro s i k hk hread hlen hrow
  have hnone := State.operand_eq_none.mpr ⟨k, hk, hread⟩
  have hcap : ¬ s.cfg.bufCap < s.ilen.toNat := Nat.not_lt.mpr hlen
  rcases hrow with ⟨rfl, hfit⟩ | rfl | ⟨rfl, hfit⟩ | ⟨rfl, hfit⟩
  · rw [exec, execBpEnc, if_neg hcap, if_neg (Nat.not_lt.mpr hfit), State.withOperand_none hnone]
  · rw [exec, execBpDec, if_neg hcap, State.withOperand_none hnone]
  · rw [exec, execFcBuild, if_neg hcap, if_neg (Nat.not_lt.mpr hfit), State.withOperand_none hnone]
  · rw [exec, execFcParse, if_neg hcap, if_neg (Nat.not_lt.mpr hfit), State.withOperand_none hnone]

/-- The two states have the same result registers and OBUF. -/
def State.SameResult (t t' : State) : Prop :=
  t'.status = t.status ∧ t'.errinfo = t.errinfo ∧ t'.olen = t.olen ∧ t'.rmsgid = t.rmsgid ∧
    ∀ k, t'.obuf.read k = t.obuf.read k

/-- Where the first run commits, so does the second, with the same result. -/
def CommitsAlike (r r' : Result) : Prop :=
  ∀ t, r = .next t → ∃ t', r' = .next t' ∧ t.SameResult t'

theorem State.raise_sameResult (s s' : State) (f : Failure) : (s.raise f).SameResult (s'.raise f) :=
  ⟨rfl, rfl, rfl, rfl, fun _ => rfl⟩

theorem State.commitOk_sameResult (s s' : State) (bytes : List Byte) (id : Byte) :
    (s.commitOk bytes id).SameResult (s'.commitOk bytes id) :=
  ⟨rfl, rfl, rfl, rfl, fun _ => rfl⟩

theorem CommitsAlike.next {t t' : State} (h : t.SameResult t') :
    CommitsAlike (.next t) (.next t') := by
  rintro _ ⟨⟩
  exact ⟨t', rfl, h⟩

theorem CommitsAlike.withOperand {s s' : State} {commit commit' : List Byte → State}
    (ho : s'.operand = s.operand) (h : ∀ bytes, (commit bytes).SameResult (commit' bytes)) :
    CommitsAlike (s.withOperand commit) (s'.withOperand commit') := by
  intro t ht
  obtain ⟨bytes, hbytes, rfl⟩ := State.withOperand_next ht
  exact ⟨_, State.withOperand_some (ho.trans hbytes) commit', h bytes⟩

/-- The operand is the bytes `IBUF[0..ILEN)` and nothing else of IBUF (R51). -/
theorem State.operand_congr {s s' : State} (hilen : s'.ilen = s.ilen)
    (hread : ∀ k, k < s.ilen.toNat → s'.ibuf.read k = s.ibuf.read k) : s'.operand = s.operand := by
  ext bytes
  simp only [State.operand_eq_some, State.operandIs, hilen]
  refine and_congr_right fun hlen => forall₂_congr fun k hk => ?_
  rw [hread k (by omega)]

section
variable {s s' : State} (hcap : s'.cfg.bufCap = s.cfg.bufCap) (hilen : s'.ilen = s.ilen)
  (ho : s'.operand = s.operand)
include hcap hilen ho

theorem execBpEnc_commitsAlike : CommitsAlike (execBpEnc s) (execBpEnc s') := by
  simp only [execBpEnc, State.overflow, hcap, hilen]
  split_ifs
  · exact .next (s.raise_sameResult s' _)
  · exact .next (s.raise_sameResult s' _)
  · exact .withOperand ho fun raw => s.commitOk_sameResult s' _ _

theorem execBpDec_commitsAlike : CommitsAlike (execBpDec s) (execBpDec s') := by
  simp only [execBpDec, State.overflow, hcap, hilen]
  split_ifs
  · exact .next (s.raise_sameResult s' _)
  · refine .withOperand ho fun p => ?_
    cases highByte? p with
    | none => exact s.commitOk_sameResult s' _ _
    | some k => exact s.raise_sameResult s' _

theorem execFcBuild_commitsAlike (hid : s'.msgid = s.msgid) :
    CommitsAlike (execFcBuild s) (execFcBuild s') := by
  simp only [execFcBuild, State.overflow, hcap, hilen, hid]
  split_ifs
  · exact .next (s.raise_sameResult s' _)
  · exact .next (s.raise_sameResult s' _)
  · exact .withOperand ho fun raw => s.commitOk_sameResult s' _ _

theorem execFcParse_commitsAlike : CommitsAlike (execFcParse s) (execFcParse s') := by
  simp only [execFcParse, State.overflow, hcap, hilen]
  split_ifs
  · exact .next (s.raise_sameResult s' _)
  · exact .next (s.raise_sameResult s' _)
  · refine .withOperand ho fun w => ?_
    cases parse w with
    | error f => exact s.raise_sameResult s' f
    | ok r => exact s.commitOk_sameResult s' _ _

theorem runSelected_commitsAlike (hop : s'.op = s.op) (hid : s'.msgid = s.msgid) :
    CommitsAlike (runSelected s) (runSelected s') := by
  simp only [runSelected, hop]
  split_ifs
  · exact execBpEnc_commitsAlike hcap hilen ho
  · exact execBpDec_commitsAlike hcap hilen ho
  · exact execFcBuild_commitsAlike hcap hilen ho hid
  · exact execFcParse_commitsAlike hcap hilen ho

end

/-- Settles O22: each test and each commit of a transaction reads the operands alone. -/
theorem operandsAloneDetermineTheResult : Obligations.OperandsAloneDetermineTheResult := by
  intro s s' t hop hid hilen hcap hread ht
  rw [← runSelected_eq] at ht ⊢
  exact runSelected_commitsAlike hcap hilen (State.operand_congr hilen hread) hop hid t ht

/-- Settles O21: the operand is empty, so every transaction reads it without a byte of IBUF. -/
theorem firstStartAfterReset : Obligations.FirstStartAfterReset := by
  refine ⟨⟨rfl, rfl, rfl, rfl, rfl, rfl, rfl, rfl, rfl, fun _ => ⟨rfl, rfl⟩⟩, ?_⟩
  intro op id s
  have hempty : s.operandIs [] := ⟨rfl, fun _ hk => nomatch hk⟩
  have hcap : s.cfg.bufCap = 2048 := rfl
  refine ⟨fun _ => ?_, fun _ => ?_, fun _ => ?_, fun _ => ?_⟩
  · exact ⟨_, execBpEnc_of_fits hempty (Nat.zero_le _), s.commitOk_succeeded 0 (Nat.zero_le _)⟩
  · exact ⟨_, execBpDec_of_lowBytes hempty (Nat.zero_le _) rfl,
      s.commitOk_succeeded 0 (Nat.zero_le _)⟩
  · exact ⟨_, execFcBuild_of_fits hempty (by rw [hcap]; decide),
      s.commitOk_succeeded 0 ((frame_length id []).trans_le (by decide))⟩
  · exact ⟨_, execFcParse_of_parse_error hempty (Nat.zero_le _) rfl,
      s.raise_failedWith (Nat.zero_le _)⟩

end Sys2Proof.Machine
end

section
/-! What the next step is, by the head of the host's list. -/

namespace Sys2Proof.Machine

theorem step_of_inbox_nil {s : State} (h : s.inbox = []) : step s = clockEdge BusCycle.idle s := by
  rw [step, advance, h]

theorem step_of_inbox_cons {s : State} {a : HostAction} {rest : List HostAction}
    (h : s.inbox = a :: rest) : step s = hostAct a { s with inbox := rest } := by
  rw [step, advance, h]

theorem runPattern_of_decode_ok {p : Pattern} {i : Instr} (h : decode p = .ok i) (s : State) :
    runPattern p s = exec i s := by
  rw [runPattern, h]

theorem runPattern_of_decode_error {p : Pattern} {why : Reject} (h : decode p = .error why)
    (s : State) : runPattern p s = runRejected p s := by
  rw [runPattern, h]

end Sys2Proof.Machine
end

section
/-! The layer's payloads by length (R162, R163), and the `info` of a failure against the length of
the operand (R107, R126, R127). -/

namespace Sys2Proof.Machine

theorem firstFault_eq_none {α : Type} {check : α → Option Field} {es : List α}
    (h : ∀ e ∈ es, check e = none) (k : Nat) : firstFault check k es = none := by
  induction es generalizing k with
  | nil => rfl
  | cons e es ih =>
    have hrest : ∀ e ∈ es, check e = none := fun e he => h e (.tail _ he)
    rw [firstFault, h e (.head _)]
    exact ih hrest (k + 1)

theorem firstAbove_cons_of_le {f : Field} {v bound : Nat} (h : v ≤ bound)
    (rest : List (Field × Nat × Nat)) : firstAbove ((f, v, bound) :: rest) = firstAbove rest :=
  if_neg (Nat.not_lt.mpr h)

theorem ledEntryFault_eq_none {e : LedEntry} (h : ledEntryInRange e) : ledEntryFault e = none := by
  obtain ⟨henc, hled, hr, hg, hb⟩ := h
  rw [ledEntryFault, firstAbove_cons_of_le henc, firstAbove_cons_of_le hled,
    firstAbove_cons_of_le hr, firstAbove_cons_of_le hg, firstAbove_cons_of_le hb]
  rfl

theorem ledRingEntryFault_eq_none {e : LedRingEntry} (h : ledRingEntryInRange e) :
    ledRingEntryFault e = none := by
  obtain ⟨henc, hr, hg, hb, hring⟩ := h
  rw [ledRingEntryFault, firstAbove_cons_of_le henc, firstAbove_cons_of_le hr,
    firstAbove_cons_of_le hg, firstAbove_cons_of_le hb, firstAbove_cons_of_le hring]
  rfl

theorem encodeMsg_led {es : List LedEntry} (h : ∀ e ∈ es, ledEntryInRange e) :
    encodeMsg (.led es) = .ok (0x01, flattenLed es) := by
  rw [encodeMsg, firstFault_eq_none fun e he => ledEntryFault_eq_none (h e he)]

theorem encodeMsg_ledRing {es : List LedRingEntry} (h : ∀ e ∈ es, ledRingEntryInRange e) :
    encodeMsg (.ledRing es) = .ok (0x04, flattenLedRing es) := by
  rw [encodeMsg, firstFault_eq_none fun e he => ledRingEntryFault_eq_none (h e he)]

theorem flattenLed_length (es : List LedEntry) : (flattenLed es).length = 5 * es.length := by
  induction es with
  | nil => rfl
  | cons e es ih =>
    have hcons : flattenLed (e :: es) = ledBytes e ++ flattenLed es := rfl
    rw [hcons, List.length_append, ih, List.length_cons, Nat.mul_succ, Nat.add_comm]
    rfl

theorem flattenLedRing_length (es : List LedRingEntry) :
    (flattenLedRing es).length = 7 * es.length := by
  induction es with
  | nil => rfl
  | cons e es ih =>
    have hcons : flattenLedRing (e :: es) = ledRingBytes e ++ flattenLedRing es := rfl
    rw [hcons, List.length_append, ih, List.length_cons, Nat.mul_succ, Nat.add_comm]
    rfl

theorem wire_length (id : Byte) (packed : List Byte) :
    (wire id packed).length = 9 + packed.length := by
  simp only [wire, hdr, List.length_append, List.length_cons, List.length_nil]
  omega

theorem highByte?_lt_length {p : List Byte} {k : Nat} (h : highByte? p = some k) : k < p.length :=
  (List.findIdx?_eq_some_iff_findIdx_eq.mp h).1

theorem mismatchFrom_lt {i k : Nat} {cs ws : List Byte} (h : mismatchFrom i cs ws = some k) :
    k < i + cs.length := by
  induction cs generalizing i ws with
  | nil => cases h
  | cons c cs ih =>
    rw [List.length_cons]
    cases ws with
    | nil => cases h; omega
    | cons w ws =>
      rw [mismatchFrom] at h
      split_ifs at h
      · have := ih h
        omega
      · cases h; omega

/-- ERRINFO of a failed parse is an offset of the wire buffer, or its length (R126, R127). -/
theorem parse_error_info_le {w : List Byte} {f : Failure} (h : parse w = .error f) :
    f.info ≤ w.length := by
  unfold parse at h
  split at h
  · cases h; exact le_refl _
  · next hlong =>
    split at h
    · next k hk =>
      have hlt : k < 6 := mismatchFrom_lt (cs := hdr) hk
      cases h
      exact (hlt.trans_le (by omega)).le
    · split at h
      · cases h; exact Nat.sub_le _ _
      · split at h
        · cases h; exact le_trans (by decide) (Nat.not_lt.mp hlong)
        · split at h
          · next k hk =>
            have hlt : k < (payloadOf w).length := highByte?_lt_length hk
            rw [payloadOf, List.length_dropLast, List.length_drop] at hlt
            cases h
            show 8 + k ≤ w.length
            omega
          · cases h

end Sys2Proof.Machine
end

section
/-! A line of more than 65535 bytes with the PFE idle (log 26): what it leaves, and that its
transaction fails with BufferOverflow wherever some ILEN makes it overflow (R193, D11). -/

namespace Sys2Proof.Machine

theorem runSelected_committed {s t : State} (h : runSelected s = .next t) : t.committed := by
  rcases runSelected_next h with ⟨_, _, rfl⟩ | ⟨_, -, rfl⟩
  · exact ⟨rfl, rfl, rfl⟩
  · exact ⟨rfl, rfl, rfl⟩

/-- BP.DEC's commit on this packed operand (R109). -/
def State.IsUnpackOf (p : List Byte) (t : State) : Prop :=
  (highByte? p = none → t.succeeded (unpack p) 0) ∧
    ∀ k, highByte? p = some k → t.failedWith .packedByteOutOfRange k

/-- FC.PARSE's commit on this wire buffer (R128). -/
def State.IsParseOf (w : List Byte) (t : State) : Prop :=
  (∀ id raw, parse w = .ok (id, raw) → t.succeeded raw id) ∧
    ∀ f, parse w = .error f → t.failedWith f.kind f.info

theorem State.operandIs_length_le {s : State} {bytes : List Byte} (h : s.operandIs bytes) :
    bytes.length ≤ 65535 := h.1 ▸ Nat.le_of_lt_succ s.ilen.isLt

theorem runSelected_bpDec {u : State} {p : List Byte} (hop : u.op = 1) (ho : u.operandIs p)
    (hfit : p.length ≤ u.cfg.bufCap) : ∃ t, runSelected u = .next t ∧ t.IsUnpackOf p := by
  have hlen := State.operandIs_length_le ho
  have hrun : runSelected u = execBpDec u := by rw [runSelected, hop]; rfl
  cases hp : highByte? p with
  | none =>
    refine ⟨_, hrun.trans (execBpDec_of_lowBytes ho hfit hp), fun _ => ?_, fun k hk => ?_⟩
    · exact u.commitOk_succeeded 0 ((unpack_length_le p).trans hlen)
    · cases hp.symm.trans hk
  | some k =>
    refine ⟨_, hrun.trans (execBpDec_of_highByte ho hfit hp), fun hn => ?_, fun j hj => ?_⟩
    · cases hp.symm.trans hn
    · cases hp.symm.trans hj
      exact u.raise_failedWith (f := ⟨_, k⟩) ((highByte?_lt_length hp).le.trans hlen)

theorem runSelected_fcParse {u : State} {w : List Byte} (hop : u.op = 3) (ho : u.operandIs w)
    (hfit : w.length ≤ u.cfg.bufCap) : ∃ t, runSelected u = .next t ∧ t.IsParseOf w := by
  have hlen := State.operandIs_length_le ho
  have hrun : runSelected u = execFcParse u := by rw [runSelected, hop]; rfl
  cases hp : parse w with
  | ok r =>
    obtain ⟨id, raw⟩ := r
    refine ⟨_, hrun.trans (execFcParse_of_parse_ok ho hfit hp), fun i x hx => ?_, fun f hf => ?_⟩
    · cases hp.symm.trans hx
      exact u.commitOk_succeeded id ((parse_ok_length hp).trans hlen)
    · cases hp.symm.trans hf
  | error f =>
    refine ⟨_, hrun.trans (execFcParse_of_parse_error ho hfit hp), fun i x hx => ?_, fun g hg => ?_⟩
    · cases hp.symm.trans hx
    · cases hp.symm.trans hg
      exact u.raise_failedWith ((parse_error_info_le hp).trans hlen)

section
variable {s : State} {bytes : List Byte}

/-- A commit is outside all that the line wrote (R195, R196). -/
theorem State.wroteLongLine_of_runSelected {u t : State} {op : BitVec 2} {id : Byte}
    (h : s.wroteLongLine u op id bytes) (ht : runSelected u = .next t) :
    s.wroteLongLine t op id bytes ∧ t.layer = u.layer ∧ t.ilen = u.ilen := by
  rcases runSelected_next ht with ⟨_, _, rfl⟩ | ⟨_, -, rfl⟩
  · exact ⟨h, rfl, rfl⟩
  · exact ⟨h, rfl, rfl⟩

/-- The commit that a long line waits for is that of the transaction on the operands it left. -/
theorem State.line_long (hcap : s.cfg.legal) (hw : s.ibuf.wf) (hb : s.busy = false)
    (hlong : 65535 < bytes.length) (op : BitVec 2) (id : Byte) :
    ∃ u : State, s.line op id bytes = runSelected u ∧ s.wroteLongLine u op id bytes ∧
      u.layer = s.layer := by
  obtain ⟨-, hcap⟩ := hcap
  obtain ⟨m, n, hn, -, hread, -, hline⟩ := State.line_idle hb hw op id bytes
  have hnot : ¬ bytes.length ≤ 65535 := Nat.not_le.mpr hlong
  simp only [hnot, if_false] at hn hline
  have hibuf : ∀ k, m.read k = if k < s.cfg.bufCap then bytes[k]? else s.ibuf.read k := fun k => by
    have hbound : (k < bytes.length ∧ k < s.cfg.bufCap) ↔ k < s.cfg.bufCap := by omega
    simp only [hread, hbound]
  exact ⟨_, hline, ⟨rfl, rfl, hn, rfl, hibuf, rfl, rfl, rfl, rfl, rfl⟩, rfl⟩

theorem State.line_long_overflows (hcap : s.cfg.legal) (hw : s.ibuf.wf) (hb : s.busy = false)
    (hlong : 65535 < bytes.length) {op : BitVec 2} (id : Byte)
    (hover : s.cfg.bufCap < 65535 ∨ op = 0 ∨ op = 2) :
    ∃ t : State, s.line op id bytes = .next t ∧ s.wroteLongLine t op id bytes ∧
      t.layer = s.layer ∧ t.failedWith .bufferOverflow t.ilen.toNat := by
  obtain ⟨u, hline, hwrote, hlayer⟩ := State.line_long hcap hw hb hlong op id
  have hoverflow : overflows u.cfg.bufCap u.op u.ilen.toNat = true := by
    obtain ⟨hop, -, hilen, -, -, -, hcfg, -⟩ := hwrote
    rw [hcfg, hop, hilen]
    exact State.overflows_longLength (overflows_max hcap.2 hover)
  exact ⟨_, hline.trans (runSelected_overflow hoverflow), hwrote, hlayer,
    u.raise_failedWith (Nat.le_of_lt_succ u.ilen.isLt)⟩

/-- Where BUF_CAP is 65535, IBUF holds as much of a long line as ILEN says. -/
theorem State.wroteLongLine_operandIs {u : State} {op : BitVec 2} {id : Byte}
    (h : s.wroteLongLine u op id bytes) (hmax : s.cfg.bufCap = 65535)
    (hlong : 65535 < bytes.length) : u.operandIs (bytes.take u.ilen.toNat) := by
  obtain ⟨-, -, -, -, hibuf, -⟩ := h
  have hn : u.ilen.toNat < 65536 := u.ilen.isLt
  have hlen : (bytes.take u.ilen.toNat).length = u.ilen.toNat := by
    rw [List.length_take]; omega
  refine ⟨hlen.symm, fun k hk => ?_⟩
  rw [hibuf, if_pos (by omega), List.getElem?_take_of_lt (by omega)]

/-- A long line of BP.DEC or FC.PARSE: BufferOverflow, but where BUF_CAP is 65535 whatever the
transaction makes (`C`) of the bytes that ILEN says. -/
theorem State.line_long_cases {op : BitVec 2} {C : List Byte → State → Prop}
    (hcommit : ∀ (u : State) (p : List Byte), u.op = op → u.operandIs p → p.length ≤ u.cfg.bufCap →
      ∃ t, runSelected u = .next t ∧ C p t)
    (hcap : s.cfg.legal) (hw : s.ibuf.wf) (hb : s.busy = false) (hlong : 65535 < bytes.length) :
    ∃ t : State, s.line op 0 bytes = .next t ∧ s.wroteLongLine t op 0 bytes ∧ t.layer = s.layer ∧
      t.committed ∧ (s.cfg.bufCap < 65535 → t.failedWith .bufferOverflow t.ilen.toNat) ∧
      (s.cfg.bufCap = 65535 → C (bytes.take t.ilen.toNat) t) := by
  rcases Nat.lt_or_eq_of_le hcap.2 with hless | hmax
  · obtain ⟨t, hline, hwrote, hlayer, hfailed⟩ :=
      State.line_long_overflows hcap hw hb hlong (op := op) 0 (.inl hless)
    exact ⟨t, hline, hwrote, hlayer, hfailed.1, fun _ => hfailed, fun h => absurd h hless.ne⟩
  · obtain ⟨u, hline, hwrote, hlayer⟩ := State.line_long hcap hw hb hlong op 0
    have hoperand := State.wroteLongLine_operandIs hwrote hmax hlong
    have hfit : (bytes.take u.ilen.toNat).length ≤ u.cfg.bufCap := by
      obtain ⟨-, -, -, -, -, -, hcfg, -⟩ := hwrote
      rw [hcfg, hmax, ← hoperand.1]
      exact Nat.le_of_lt_succ u.ilen.isLt
    obtain ⟨t, ht, hC⟩ := hcommit u _ hwrote.1 hoperand hfit
    obtain ⟨hwrote', hlayer', hilen⟩ := State.wroteLongLine_of_runSelected hwrote ht
    exact ⟨t, hline.trans ht, hwrote', hlayer'.trans hlayer, runSelected_committed ht,
      fun h => absurd h hmax.not_lt, fun _ => hilen.symm ▸ hC⟩

/-- A message row's one FC.BUILD, and the failure the layer returns as it is (R161, R178). -/
theorem State.sendMessage_long {m : Message} {id : Byte} (he : encodeMsg m = .ok (id, bytes))
    (hcap : s.cfg.legal) (hw : s.ibuf.wf) (hb : s.busy = false) (hlong : 65535 < bytes.length) :
    ∃ t : State, s.sendMessage m = .next t ∧ s.wroteLongLine t 2 id bytes ∧
      t.failedWith .bufferOverflow t.ilen.toNat ∧
      t.layer = .failed (.core ⟨.bufferOverflow, t.ilen.toNat⟩) := by
  obtain ⟨u, hline, hwrote, -, hfailed⟩ :=
    State.line_long_overflows hcap hw hb hlong id (.inr (.inr rfl))
  have hlayer : u.buildResult = .failed (.core ⟨.bufferOverflow, u.ilen.toNat⟩) := by
    obtain ⟨-, hstatus, hinfo, -⟩ := hfailed
    rw [State.buildResult, hstatus, hinfo]; rfl
  refine ⟨{ u with layer := u.buildResult }, ?_, hwrote, hfailed, hlayer⟩
  rw [State.sendMessage, he]
  simp only [hline]

end

theorem decodeGroup_long {w : List Byte} (h : 8 < w.length) :
    decodeGroup w = .error .groupLength := by
  cases w with
  | nil => rfl
  | cons top ds => exact if_pos (.inr (Nat.lt_of_succ_lt_succ h))

/-- Settles O33: every form is a line of more than 65535 bytes. -/
theorem operandBeyondIlenOverflows : Obligations.OperandBeyondIlenOverflows := by
  intro s hcap hw hb
  refine ⟨fun raw hlong => ?_, fun id packed hlong => ?_, fun es hes hlong => ?_,
    fun es hes hlong => ?_, fun w rest hin hlong => ?_, fun w rest why hin hdec hlong => ?_⟩
  · exact State.line_long_overflows hcap hw hb hlong 0 (.inr (.inl rfl))
  · exact State.line_long_cases @runSelected_fcParse hcap hw hb
      (hlong.trans_eq (wire_length id packed).symm)
  · exact State.sendMessage_long (encodeMsg_led hes) hcap hw hb
      (hlong.trans_eq (flattenLed_length es).symm)
  · exact State.sendMessage_long (encodeMsg_ledRing hes) hcap hw hb
      (hlong.trans_eq (flattenLedRing_length es).symm)
  · have hdec : decode (.group w) = .error .groupLength := decodeGroup_long (by omega)
    rw [(step_of_inbox_cons hin).trans (runPattern_of_decode_error hdec _)]
    exact State.line_long_cases @runSelected_bpDec (s := { s with inbox := rest }) hcap hw hb
      hlong
  · rw [(step_of_inbox_cons hin).trans (runPattern_of_decode_error hdec _)]
    exact State.line_long_cases @runSelected_fcParse (s := { s with inbox := rest }) hcap hw hb
      hlong

/-- Settles O60: the line's operands are in place, and the transaction it started is the one that OP
selects. -/
theorem lineIsTheTransactionOpSelects : Obligations.LineIsTheTransactionOpSelects := by
  intro s rest op id bytes i hin hdec
  have hstep : step s = ({ s with inbox := rest } : State).line op id bytes :=
    step_of_inbox_cons hin
  have hexec : ∀ u : State, u.op = op → runSelected u = exec i u := fun u hu => by
    rw [runSelected_eq, hu, runPattern_of_decode_ok hdec]
  refine ⟨fun hb hw => ?_, fun hb hw hcap hlong hover => ?_, fun hb => ?_⟩
  · obtain ⟨m, n, hn, hwf, hread, -, hline⟩ :=
      State.line_idle (s := { s with inbox := rest }) hb hw op id bytes
    exact ⟨m, n, hwf, hn, hread, hstep.trans (hline.trans (hexec _ rfl))⟩
  · obtain ⟨t, hline, -, -, hfailed⟩ :=
      State.line_long_overflows (s := { s with inbox := rest }) hcap hw hb hlong id hover
    exact ⟨t, hstep.trans hline, hfailed⟩
  · rw [hstep, State.line_busy (by exact hb), runSelected_eq]

end Sys2Proof.Machine
end

section
/-! One clock edge (R61, R229): what the edge does around its access, what each access does, and the
instruction that a step runs (R23). -/

namespace Sys2Proof.Machine

section
variable {s : State} {c : BusCycle}

theorem clockEdge_idle (hr : c.rst = false) (hb : s.busy = false) :
    clockEdge c s = .next (s.busAccess c) := by
  rw [clockEdge, hr, hb]; rfl

theorem clockEdge_waiting (hr : c.rst = false) (hb : s.busy = true) (hl : 0 < s.left) :
    clockEdge c s = .next { s.busAccess c with left := s.left - 1 } := by
  obtain ⟨n, hn⟩ := Nat.exists_eq_add_one.mpr hl
  rw [clockEdge, hr, hb, hn]; rfl

theorem clockEdge_committing (hr : c.rst = false) (hb : s.busy = true) (hl : s.left = 0) :
    clockEdge c s = runPattern (.cmd s.op) (s.busAccess c) := by
  rw [clockEdge, hr, hb, hl]; rfl

end

section
variable (s : State)

theorem State.busAccess_none {c : BusCycle} (h : c.sel = 3) :
    s.busAccess c = { s with rdata := none } := if_pos h

theorem State.busAccess_writeReg (a v : Half) :
    s.busAccess { sel := 0, addr := a, we := true, wdata := v }
      = { s.writeReg a.toNat v with rdata := none } := rfl

theorem State.busAccess_writeIbuf (a v : Half) :
    s.busAccess { sel := 1, addr := a, we := true, wdata := v }
      = { s.writeIbuf a.toNat (v.setWidth 8) with rdata := none } := rfl

theorem State.busAccess_writeObuf (a v : Half) :
    s.busAccess { sel := 2, addr := a, we := true, wdata := v } = { s with rdata := none } := rfl

end

/-- Settles O44: with BUSY = 0 the edge is its access alone, and each write changes one
location or none. -/
theorem hostWritesWhileIdle : Obligations.HostWritesWhileIdle := by
  intro s a v hb
  simp only [clockEdge_idle (hb := hb), State.busAccess_writeReg, State.busAccess_writeIbuf,
    State.busAccess_writeObuf, State.writeReg_idle hb, State.writeIbuf_idle hb]
  refine ⟨?_, ?_, ?_, fun ha => ?_, fun ha hw => ?_, fun ha => ?_, trivial⟩
  · rintro rfl; rfl
  · rintro rfl; rfl
  · rintro rfl; rfl
  · rw [if_neg (by omega), if_neg (by omega), if_neg (by omega), if_neg (by omega)]
  · rw [if_neg (Nat.not_le.mpr ha)]
    exact ⟨_, rfl, Memory.write_wf hw _ _, Memory.read_write hw _ _⟩
  · rw [if_pos ha]

/-- Settles O43: a write of register 3 is the START strobe where BUSY is 0, nothing where it is 1,
and the edge goes on around it. -/
theorem startStrobe : Obligations.StartStrobe := by
  refine ⟨fun s v hb => ?_, fun s v hb hl => ?_, fun s v hb hl => ?_,
    fun s => ⟨rfl, fun hb => ?_, fun hb hl => ?_, fun hb hl => ?_⟩⟩
  · rw [clockEdge_idle rfl hb, State.busAccess_writeReg, State.writeReg_idle hb]
    rfl
  · rw [clockEdge_waiting rfl hb hl, State.busAccess_writeReg, State.writeReg_busy hb]
  · rw [clockEdge_committing rfl hb hl, State.busAccess_writeReg, State.writeReg_busy hb]
  · exact clockEdge_idle rfl hb
  · exact clockEdge_waiting rfl hb hl
  · exact clockEdge_committing rfl hb hl

section
variable {s : State}

theorem State.regValue_olen (hb : s.busy = false) (any : Half) : s.regValue any 5 = s.olen := by
  rw [State.regValue, hb]; rfl

theorem State.regValue_rmsgid (hb : s.busy = false) (any : Half) :
    s.regValue any 6 = s.rmsgid.setWidth 16 := by
  rw [State.regValue, hb]; rfl

theorem State.regValue_errinfo (hb : s.busy = false) (any : Half) :
    s.regValue any 7 = s.errinfo := by
  rw [State.regValue, hb]; rfl

theorem State.regValue_beyond {n : Nat} (hn : 8 ≤ n) (any : Half) : s.regValue any n = 0 := by
  obtain ⟨k, rfl⟩ := Nat.exists_eq_add_of_le' hn
  rfl

theorem State.ibufValue_of_read {k : Nat} {b : Byte} (hk : k < s.cfg.bufCap)
    (h : s.ibuf.read k = some b) (any : Byte) : s.ibufValue any k = b := by
  rw [State.ibufValue, if_neg (Nat.not_le.mpr hk), h]; rfl

theorem State.obufValue_of_read {k : Nat} {b : Byte} (hb : s.busy = false) (hk : k < s.cfg.bufCap)
    (h : s.obuf.read k = some b) (any : Byte) : s.obufValue any k = b := by
  rw [State.obufValue, hb, if_neg (by decide), if_neg (Nat.not_le.mpr hk), h]; rfl

end

/-- STAT bit by bit (R29). -/
theorem statWord_getLsbD (busy done : Bool) (status : BitVec 4) (i : Nat) :
    (statWord busy done status).getLsbD i =
      if i = 0 then busy else if i = 1 then done
      else if i < 4 then false else status.getLsbD (i - 4) := by
  rcases i with _ | _ | i
  · simp [statWord]
  · simp [statWord]
  · rcases Nat.lt_or_ge i 6 with hi | hi
    · simp [statWord, show i + 2 < 16 by omega]
    · have hbeyond : status.getLsbD (i - 2) = false := BitVec.getLsbD_of_ge _ _ (by omega)
      simp [statWord, hbeyond]

/-- Settles O46: the edge goes on around the access, and the value read is the register's or the
buffer byte's, whatever the free value drawn. -/
theorem hostReads : Obligations.HostReads := by
  intro s sel a
  refine ⟨s.busValue (Config.anyWord s.draws) { sel := sel, addr := a, re := true }, _, rfl, ?_⟩
  have haccess : s.busAccess { sel := sel, addr := a, re := true }
      = if sel = 3 then { s with rdata := none }
        else { s with
          rdata := some (s.busValue (Config.anyWord s.draws) { sel := sel, addr := a, re := true }),
          draws := s.draws + 1 } := rfl
  refine ⟨haccess, fun hb => ?_, fun hb hl => ?_, fun hb hl => ?_, ?_⟩
  · rw [clockEdge_idle rfl hb, haccess]
  · rw [clockEdge_waiting rfl hb hl, haccess]
  · rw [clockEdge_committing rfl hb hl, haccess]
  refine ⟨?_, ?_, ?_, ?_, ?_, ?_, ?_, ?_, ?_, ?_, ?_⟩
  · rintro rfl rfl; rfl
  · rintro rfl rfl; rfl
  · rintro rfl rfl; rfl
  · rintro rfl rfl; rfl
  · rintro rfl rfl
    set any := if s.busy then (Config.anyWord s.draws).setWidth 4 else s.status.code with hany
    have hx : s.busValue (Config.anyWord s.draws) { sel := 0, addr := 4, re := true }
      = statWord s.busy s.done any := rfl
    simp only [hx, statWord_getLsbD]
    refine ⟨rfl, rfl, rfl, rfl, fun i hi => ?_, fun hb i hi => ?_⟩
    · rw [if_neg (by omega), if_neg (by omega), if_neg (by omega)]
      exact BitVec.getLsbD_of_ge _ _ (by omega)
    · rw [if_neg (by omega), if_neg (by omega), if_neg (by omega), Nat.add_sub_cancel_left, hany,
        hb]
      rfl
  · rintro rfl rfl hb; exact State.regValue_olen hb _
  · rintro rfl rfl hb; exact State.regValue_rmsgid hb _
  · rintro rfl rfl hb; exact State.regValue_errinfo hb _
  · rintro rfl ha; exact State.regValue_beyond ha _
  · rintro b rfl ha hread
    exact congrArg (BitVec.setWidth 16) (State.ibufValue_of_read ha hread _)
  · rintro b rfl ha hb hread
    exact congrArg (BitVec.setWidth 16) (State.obufValue_of_read hb ha hread _)

/-- Settles O42: the head of the host's list gives the encoded form, and its decoding the
instruction. -/
theorem stepRunsTheDecodedInstruction : Obligations.StepRunsTheDecodedInstruction := by
  refine ⟨fun s i hin hb hl hdec => ?_, fun s c rest i hin hb hl hr hdec => ?_,
    fun s st d1 d2 rest i hin hdec => ?_, fun s w rest i hin hdec => ?_,
    fun s w rest i hin hdec => ?_⟩
  · rw [step_of_inbox_nil hin, clockEdge_committing rfl hb hl, runPattern_of_decode_ok hdec,
      State.busAccess_none s rfl]
  · rw [step_of_inbox_cons hin]
    exact (clockEdge_committing (s := { s with inbox := rest }) hr hb hl).trans
      (runPattern_of_decode_ok hdec _)
  · exact (step_of_inbox_cons hin).trans (runPattern_of_decode_ok hdec _)
  · exact (step_of_inbox_cons hin).trans (runPattern_of_decode_ok hdec _)
  · exact (step_of_inbox_cons hin).trans (runPattern_of_decode_ok hdec _)

end Sys2Proof.Machine
end

section
/-! The PFE and the DED share nothing (R20, R33): what a clock edge leaves of the DED, and a channel
message of the PFE. -/

namespace Sys2Proof.Machine

/-- A data byte is its 7-bit field (R78). -/
theorem setWidth_of_msb_false {d : Byte} (h : d.msb = false) : (d.setWidth 7).setWidth 8 = d := by
  have hlt : d.toNat < 2 ^ 7 := BitVec.toNat_lt_of_msb_false h
  apply BitVec.eq_of_toNat_eq
  simp
  omega

/-- A channel message is its three bytes at the DED's inputs, whatever row it is (R79, R144). -/
theorem exec_decodeChMsg (st d1 d2 : Byte) (s : State) :
    exec (decodeChMsg st d1 d2) s = .next (s.present st d1 d2) := by
  unfold decodeChMsg
  split
  · next hevent =>
    simp only [isEventMessage, Bool.and_eq_true, Bool.or_eq_true, Bool.not_eq_true', beq_iff_eq]
      at hevent
    obtain ⟨⟨hd1, hd2⟩, hst⟩ := hevent
    have h1 := setWidth_of_msb_false hd1
    have h2 := setWidth_of_msb_false hd2
    simp only
    split_ifs with hB hturn h9 hzero
    · simp only [exec, execEncTurn, h1, h2, hB]
    · simp only [exec, execEncUndef, h1, h2, hB]
    · rw [hzero] at h2
      simp only [exec, execBtnRel0, h1, ← h2, h9]
      rfl
    · simp only [exec, execBtnPress, h1, h2, h9]
    · have h8 : st = 0x80 := by tauto
      simp only [exec, execBtnRel, h1, h2, h8]
  · rfl

theorem State.writeReg_ded (s : State) (n : Nat) (v : Half) :
    (s.writeReg n v).cm = s.cm ∧ (s.writeReg n v).ev = s.ev := by
  cases hb : s.busy with
  | true => rw [State.writeReg_busy hb]; exact ⟨rfl, rfl⟩
  | false => rw [State.writeReg_idle hb]; split_ifs <;> exact ⟨rfl, rfl⟩

theorem State.writeIbuf_ded (s : State) (k : Nat) (v : Byte) :
    (s.writeIbuf k v).cm = s.cm ∧ (s.writeIbuf k v).ev = s.ev := by
  unfold State.writeIbuf
  split_ifs <;> exact ⟨rfl, rfl⟩

theorem State.busAccess_ded (s : State) (c : BusCycle) :
    (s.busAccess c).cm = s.cm ∧ (s.busAccess c).ev = s.ev := by
  unfold State.busAccess State.busWrite
  split_ifs
  · exact ⟨rfl, rfl⟩
  · exact s.writeReg_ded _ _
  · exact s.writeIbuf_ded _ _
  all_goals exact ⟨rfl, rfl⟩

theorem runSelected_ded {s t : State} (h : runSelected s = .next t) :
    t.cm = s.cm ∧ t.ev = s.ev := by
  rcases runSelected_next h with ⟨_, _, rfl⟩ | ⟨_, -, rfl⟩
  · exact ⟨rfl, rfl⟩
  · exact ⟨rfl, rfl⟩

theorem clockEdge_ded {s t : State} {c : BusCycle} (h : clockEdge c s = .next t) :
    t.cm = s.cm ∧ t.ev = s.ev := by
  have haccess := s.busAccess_ded c
  unfold clockEdge at h
  split_ifs at h with hr hb
  · cases h; exact ⟨rfl, rfl⟩
  · split at h
    · obtain ⟨r, d, e⟩ := State.busAccess_busy hb c
      have hop : (s.busAccess c).op = s.op := by rw [e]
      rw [← hop, ← runSelected_eq] at h
      obtain ⟨hcm, hev⟩ := runSelected_ded h
      exact ⟨hcm.trans haccess.1, hev.trans haccess.2⟩
    · cases h; exact haccess
  · cases h; exact haccess

theorem State.samePfe_present (s : State) (st d1 d2 : Byte) : s.samePfe (s.present st d1 d2) := by
  simp [State.samePfe]

theorem State.samePfe_withdraw (s : State) (st d1 d2 : Byte) :
    s.samePfe (s.withdraw st d1 d2) := by
  simp [State.samePfe]

/-- Settles O41: neither an access nor a commit writes a port of the DED, and a drive writes
nothing else. -/
theorem unitsShareNothing : Obligations.UnitsShareNothing := by
  refine ⟨fun s t c ht => clockEdge_ded ht, fun s rest st d1 d2 hin => ?_,
    fun s rest st d1 d2 hin => ?_⟩
  · refine ⟨_, (step_of_inbox_cons hin).trans (exec_decodeChMsg st d1 d2 _), rfl, rfl, ?_⟩
    exact State.samePfe_present _ st d1 d2
  · exact ⟨_, step_of_inbox_cons hin, rfl, rfl, State.samePfe_withdraw _ st d1 d2⟩

end Sys2Proof.Machine
end

section
/-! Host writes while BUSY (R59, R225): the edge is the one without the access. -/

namespace Sys2Proof.Machine

theorem State.busWrite_busy {s : State} (h : s.busy = true) (c : BusCycle) :
    s.busWrite c = s := by
  unfold State.busWrite
  split_ifs
  · exact State.writeReg_busy h _ _
  · exact State.writeIbuf_busy h _ _
  · rfl

/-- A write in any space, the one that is no location included, leaves `bus_rdata` not valid and
nothing else while BUSY. -/
theorem State.busAccess_write_busy {s : State} (h : s.busy = true) {c : BusCycle}
    (hw : c.we = true) : s.busAccess c = { s with rdata := none } := by
  rw [State.busAccess, if_pos hw, State.busWrite_busy h, ite_self]

/-- Settles O45: the access of a write while BUSY is lost, and the edge goes on around it. -/
theorem hostWritesWhileBusyAreIgnored : Obligations.HostWritesWhileBusyAreIgnored := by
  intro s c hb hr hw
  have haccess := State.busAccess_write_busy hb hw
  refine ⟨fun hl => ?_, fun hl => ?_⟩
  · rw [clockEdge_waiting hr hb hl, haccess]
  · rw [clockEdge_committing hr hb hl, haccess]

end Sys2Proof.Machine
end

section
/-! The bit-packer bit by bit (R72, R80): bytes below 0x80, one group and its restoring, and a
packed sequence group by group. -/

namespace Sys2Proof.Machine

theorem lt_0x80_iff_bit7 {b : Byte} : b < 0x80#8 ↔ b.getLsbD 7 = false := by
  have hmsb : b.msb = b.getLsbD 7 := BitVec.msb_eq_getLsbD_last b
  have hlt : b < 0x80#8 ↔ b.toNat < 128 := BitVec.lt_def
  have hbit := BitVec.msb_eq_false_iff_two_mul_lt (x := b)
  rw [← hmsb, hlt, hbit]
  omega

theorem highByte?_eq_none_iff {p : List Byte} : highByte? p = none ↔ ∀ b ∈ p, b < 0x80#8 := by
  simp [highByte?, List.findIdx?_eq_none_iff]

theorem highByte?_append_cons {pre : List Byte} {b : Byte} (hpre : ∀ x ∈ pre, x < 0x80#8)
    (hb : 0x80#8 ≤ b) (post : List Byte) : highByte? (pre ++ b :: post) = some pre.length := by
  have hnone : pre.findIdx? (fun x => decide (0x80#8 ≤ x)) = none := highByte?_eq_none_iff.mpr hpre
  rw [highByte?, List.findIdx?_append, hnone, List.findIdx?_cons]
  simp [hb]

theorem mask_getLsbD (b : Byte) (i : Nat) :
    (b &&& 0x7F#8).getLsbD i = (decide (i < 7) && b.getLsbD i) := by
  have hmask : (0x7F#8).getLsbD i = decide (i < 7) := by
    rcases Nat.lt_or_ge i 8 with hi | hi
    · interval_cases i <;> rfl
    · rw [BitVec.getLsbD_of_ge _ _ hi]
      simp; omega
  rw [BitVec.getLsbD_and, hmask, Bool.and_comm]

theorem mask_lt (b : Byte) : b &&& 0x7F#8 < 0x80#8 := by
  simp [lt_0x80_iff_bit7]

/-- One data byte restored, as the byte at position `k` of its group (R80). -/
def restoreByte (top : Byte) (k : Nat) (d : Byte) : Byte :=
  (d &&& 0x7F#8) ||| (((top >>> k) &&& 1#8) <<< 7)

theorem restoreFrom_cons (top : Byte) (k : Nat) (d : Byte) (ds : List Byte) :
    restoreFrom top k (d :: ds) = restoreByte top k d :: restoreFrom top (k + 1) ds := rfl

theorem restoreByte_getLsbD (top : Byte) (k : Nat) (d : Byte) {i : Nat} (hi : i < 8) :
    (restoreByte top k d).getLsbD i = if i = 7 then top.getLsbD k else d.getLsbD i := by
  rw [restoreByte, BitVec.getLsbD_or, mask_getLsbD, BitVec.getLsbD_shiftLeft, BitVec.getLsbD_and,
    BitVec.getLsbD_ushiftRight]
  rcases eq_or_ne i 7 with rfl | hne
  · simp
  · simp [show i < 7 by omega, hne]

theorem restoreFrom_mask {top : Byte} {i : Nat} {raw : List Byte}
    (h : ∀ j, j < raw.length → top.getLsbD (i + j) = (raw.getD j 0).getLsbD 7) :
    restoreFrom top i (raw.map (· &&& 0x7F#8)) = raw := by
  induction raw generalizing i with
  | nil => rfl
  | cons r rs ih =>
    have htop : top.getLsbD i = r.getLsbD 7 := h 0 (Nat.succ_pos _)
    have hrest : ∀ j, j < rs.length → top.getLsbD (i + 1 + j) = (rs.getD j 0).getLsbD 7 :=
      fun j hj => by
        have := h (j + 1) (Nat.succ_lt_succ hj)
        rwa [← Nat.add_assoc, Nat.add_right_comm, List.getD_cons_succ] at this
    have hbyte : restoreByte top i (r &&& 0x7F#8) = r := by
      apply BitVec.eq_of_getLsbD_eq
      intro j hj
      rw [restoreByte_getLsbD _ _ _ hj, mask_getLsbD]
      rcases eq_or_ne j 7 with rfl | hne
      · simp [htop]
      · simp [hne, show j < 7 by omega]
    rw [List.map_cons, restoreFrom_cons, hbyte, ih hrest]

theorem restoreFrom_packGroup {raw : List Byte} (h : raw.length ≤ 8) :
    restoreFrom (topBitsFrom 0 raw) 0 (raw.map (· &&& 0x7F#8)) = raw := by
  refine restoreFrom_mask fun j hj => ?_
  rw [topBitsFrom_getLsbD]
  simp [show j < 8 by omega]

theorem map_mask_restoreFrom (top : Byte) (i : Nat) {ds : List Byte} (h : ∀ d ∈ ds, d < 0x80#8) :
    (restoreFrom top i ds).map (· &&& 0x7F#8) = ds := by
  induction ds generalizing i with
  | nil => rfl
  | cons d ds ih =>
    have hd := lt_0x80_iff_bit7.mp (h d (.head _))
    have hbyte : restoreByte top i d &&& 0x7F#8 = d := by
      apply BitVec.eq_of_getLsbD_eq
      intro j hj
      rw [mask_getLsbD, restoreByte_getLsbD _ _ _ hj]
      rcases eq_or_ne j 7 with rfl | hne
      · rw [hd]; rfl
      · simp [hne, show j < 7 by omega]
    rw [restoreFrom_cons, List.map_cons, hbyte, ih _ fun x hx => h x (.tail _ hx)]

/-- The high bits that restoring gives are the top-bits byte's, as far as there are data bytes. -/
theorem restoreFrom_getD_bit7 (top : Byte) (i : Nat) (ds : List Byte) (j : Nat) :
    ((restoreFrom top i ds).getD j 0).getLsbD 7
      = (decide (j < ds.length) && top.getLsbD (i + j)) := by
  induction ds generalizing i j with
  | nil => simp [restoreFrom]
  | cons d ds ih =>
    rw [restoreFrom_cons]
    cases j with
    | zero =>
      rw [List.getD_cons_zero, restoreByte_getLsbD top i d (by decide), List.length_cons]
      simp
    | succ j =>
      rw [List.getD_cons_succ, ih, List.length_cons, Nat.add_assoc, Nat.add_comm 1 j]
      simp

/-- A group is the packing of what it restores to exactly where no stray top-bits bit is set
(R72). -/
theorem packGroup_restoreFrom_iff {top : Byte} {ds : List Byte} (htop : top < 0x80#8)
    (hds : ∀ d ∈ ds, d < 0x80#8) :
    packGroup (restoreFrom top 0 ds) = top :: ds ↔
      ∀ i, ds.length ≤ i → i < 7 → top.getLsbD i = false := by
  have hbit : ∀ i, (topBitsFrom 0 (restoreFrom top 0 ds)).getLsbD i
      = (decide (i < 8) && (decide (i < ds.length) && top.getLsbD i)) := fun i => by
    rw [topBitsFrom_getLsbD, Nat.sub_zero, restoreFrom_getD_bit7]
    simp
  rw [packGroup, map_mask_restoreFrom top 0 hds, List.cons.injEq, and_iff_left rfl]
  constructor
  · intro heq i hi _
    rw [← heq, hbit]
    simp [Nat.not_lt.mpr hi]
  · intro hstray
    apply BitVec.eq_of_getLsbD_eq
    intro i hi
    rw [hbit]
    rcases Nat.lt_or_ge i ds.length with hlt | hge
    · simp [hlt, hi]
    · have : top.getLsbD i = false := by
        rcases eq_or_ne i 7 with rfl | hne
        · exact lt_0x80_iff_bit7.mp htop
        · exact hstray i hge (by omega)
      simp [this]

/-- The bits of a group's top-bits byte (R72). -/
theorem topBits_getLsbD_of_length_le {raw : List Byte} (h7 : raw.length ≤ 7) {i : Nat}
    (hi : i < 8) :
    (topBitsFrom 0 raw).getLsbD i = (decide (i < 7) && (raw.getD i 0).getLsbD 7) := by
  rw [topBitsFrom_getLsbD, Nat.sub_zero]
  rcases Nat.lt_or_ge i 7 with h | h
  · simp [h, hi]
  · rw [List.getD_eq_default _ _ (h7.trans h)]
    simp [Nat.not_lt.mpr h]

theorem packGroup_lt {raw : List Byte} (h : raw.length ≤ 7) : ∀ b ∈ packGroup raw, b < 0x80#8 := by
  intro b hb
  rcases List.mem_cons.mp hb with rfl | hb
  · rw [lt_0x80_iff_bit7, topBits_getLsbD_of_length_le h (by decide)]
    rfl
  · obtain ⟨r, -, rfl⟩ := List.mem_map.mp hb
    exact mask_lt r

/-- Induction over a byte sequence by groups of 7 (R100). -/
theorem groupwise_induction {motive : List Byte → Prop} (nil : motive [])
    (group : ∀ raw, raw ≠ [] → motive (raw.drop 7) → motive raw) (raw : List Byte) :
    motive raw := by
  induction h : raw.length using Nat.strong_induction_on generalizing raw with
  | _ n ih =>
    rcases eq_or_ne raw [] with rfl | hne
    · exact nil
    · have hpos := List.length_pos_iff.mpr hne
      exact group raw hne (ih (raw.drop 7).length (by rw [List.length_drop]; omega) _ rfl)

theorem pack_of_ne_nil {raw : List Byte} (h : raw ≠ []) :
    pack raw = packGroup (raw.take 7) ++ pack (raw.drop 7) := by
  cases raw with
  | nil => exact absurd rfl h
  | cons r rs => exact pack_cons r rs

theorem pack_lt (raw : List Byte) : ∀ b ∈ pack raw, b < 0x80#8 := by
  induction raw using groupwise_induction with
  | nil => intro b hb; cases hb
  | group raw hne ih =>
    intro b hb
    rw [pack_of_ne_nil hne, List.mem_append] at hb
    rcases hb with hb | hb
    · exact packGroup_lt (List.length_take_le 7 raw) b hb
    · exact ih b hb

theorem highByte?_pack (raw : List Byte) : highByte? (pack raw) = none :=
  highByte?_eq_none_iff.mpr (pack_lt raw)

/-- The first group is full, or there is none after it. -/
theorem firstGroup_full_or_last (raw : List Byte) :
    (packGroup (raw.take 7)).length = 8 ∨
      (packGroup (raw.take 7)).length ≤ 8 ∧ pack (raw.drop 7) = [] := by
  rw [packGroup_length, List.length_take]
  rcases Nat.lt_or_ge raw.length 7 with hshort | hfull
  · exact .inr ⟨by omega, by rw [List.drop_eq_nil_of_le hshort.le, pack_nil]⟩
  · exact .inl (by omega)

/-- The first 8 packed bytes are the first group, the others the packing of what follows it. -/
theorem take_pack {raw : List Byte} (h : raw ≠ []) :
    (pack raw).take 8 = packGroup (raw.take 7) := by
  rw [pack_of_ne_nil h]
  rcases firstGroup_full_or_last raw with hfull | ⟨hlen, hlast⟩
  · exact List.take_left' hfull
  · rw [hlast, List.append_nil, List.take_of_length_le hlen]

theorem drop_pack (raw : List Byte) : (pack raw).drop 8 = pack (raw.drop 7) := by
  rcases eq_or_ne raw [] with rfl | hne
  · rfl
  rw [pack_of_ne_nil hne]
  rcases firstGroup_full_or_last raw with hfull | ⟨hlen, hlast⟩
  · exact List.drop_left' hfull
  · rw [hlast, List.append_nil, List.drop_eq_nil_of_le hlen]

/-- Unpacking takes a packed sequence apart again (R103). -/
theorem unpack_pack (raw : List Byte) : unpack (pack raw) = raw := by
  induction raw using groupwise_induction with
  | nil => rfl
  | group raw hne ih =>
    have hhead := take_pack hne
    have hrest := drop_pack raw
    cases hp : pack raw with
    | nil => rw [hp] at hhead; cases hhead
    | cons top ds =>
      rw [hp, packGroup] at hhead
      rw [hp] at hrest
      obtain ⟨rfl, hds⟩ := List.cons.inj hhead
      have hdrop : ds.drop 7 = pack (raw.drop 7) := hrest
      have hlen : (raw.take 7).length ≤ 8 := (List.length_take_le 7 raw).trans (by decide)
      rw [unpack_cons, hds, hdrop, ih, restoreFrom_packGroup hlen, List.take_append_drop]

theorem drop_pack_groups (raw : List Byte) (g : Nat) :
    (pack raw).drop (8 * g) = pack (raw.drop (7 * g)) := by
  induction g with
  | zero => rfl
  | succ g ih => rw [Nat.mul_succ, ← List.drop_drop, ih, drop_pack, List.drop_drop, ← Nat.mul_succ]

/-- Byte `k` of group `g` of a packed sequence is byte `k` of the packing of that group. -/
theorem pack_getElem?_group {raw : List Byte} {g k : Nat} (hg : 7 * g < raw.length) (hk : k < 8) :
    (pack raw)[8 * g + k]? = (packGroup ((raw.drop (7 * g)).take 7))[k]? := by
  have hne : raw.drop (7 * g) ≠ [] := by
    rw [Ne, List.drop_eq_nil_iff]; omega
  rw [← List.getElem?_drop, drop_pack_groups, ← take_pack hne, List.getElem?_take_of_lt hk]

/-- Settles O3: raw byte `j` is data byte `j % 7` of group `j / 7`. -/
theorem packedBytesByIndex : Obligations.PackedBytesByIndex := by
  intro raw
  refine ⟨fun j hj => ?_,
    fun g hg => ⟨topBitsFrom 0 ((raw.drop (7 * g)).take 7), ?_, fun i hi => ?_⟩⟩
  · have hmod : j % 7 < 7 := Nat.mod_lt j (by decide)
    have hdiv : 7 * (j / 7) + j % 7 = j := Nat.div_add_mod j 7
    rw [Nat.add_assoc, Nat.add_comm 1, pack_getElem?_group (by omega) (by omega), packGroup,
      List.getElem?_cons_succ, List.getElem?_map, List.getElem?_take_of_lt hmod,
      List.getElem?_drop, hdiv, List.getElem?_eq_getElem hj, List.getD_eq_getElem _ _ hj]
    rfl
  · exact pack_getElem?_group (k := 0) hg (by decide)
  · rw [topBits_getLsbD_of_length_le (List.length_take_le 7 _) hi]
    rcases Nat.lt_or_ge i 7 with h | h
    · rw [List.getD_eq_getElem?_getD, List.getElem?_take_of_lt h, List.getElem?_drop,
        ← List.getD_eq_getElem?_getD]
    · rw [decide_eq_false (Nat.not_lt.mpr h), Bool.false_and, Bool.false_and]

end Sys2Proof.Machine
end

section
/-! The layer's two directions (R168 to R177): a payload decodes to a message exactly where that
message encodes to the payload. -/

namespace Sys2Proof.Machine

theorem firstAbove_eq_none_iff {fields : List (Field × Nat × Nat)} :
    firstAbove fields = none ↔ ∀ x ∈ fields, x.2.1 ≤ x.2.2 := by
  induction fields with
  | nil => simp [firstAbove]
  | cons x rest ih =>
    obtain ⟨f, v, bound⟩ := x
    rcases Nat.lt_or_ge bound v with h | h
    · simp [firstAbove, h]
    · simp [firstAbove_cons_of_le h, ih, h]

theorem firstFault_eq_none_iff {α : Type} {check : α → Option Field} {k : Nat} {es : List α} :
    firstFault check k es = none ↔ ∀ e ∈ es, check e = none := by
  refine ⟨fun h => ?_, fun h => firstFault_eq_none h k⟩
  induction es generalizing k with
  | nil => intro e he; cases he
  | cons e es ih =>
    rw [firstFault] at h
    cases he : check e with
    | none => rw [he] at h; simpa [he] using ih h
    | some f => rw [he] at h; cases h

theorem ledEntryFault_eq_none_iff {e : LedEntry} : ledEntryFault e = none ↔ ledEntryInRange e := by
  simp [ledEntryFault, firstAbove_eq_none_iff, ledEntryInRange]

theorem ledRingEntryFault_eq_none_iff {e : LedRingEntry} :
    ledRingEntryFault e = none ↔ ledRingEntryInRange e := by
  simp [ledRingEntryFault, firstAbove_eq_none_iff, ledRingEntryInRange]

theorem encodeMsg_led_iff {es : List LedEntry} {id : Byte} {raw : List Byte} :
    encodeMsg (.led es) = .ok (id, raw) ↔
      id = 0x01 ∧ (∀ e ∈ es, ledEntryInRange e) ∧ flattenLed es = raw := by
  simp only [← ledEntryFault_eq_none_iff, ← firstFault_eq_none_iff (k := 0), encodeMsg]
  cases firstFault ledEntryFault 0 es with
  | none => simp [eq_comm]
  | some x => simp

theorem encodeMsg_ledRing_iff {es : List LedRingEntry} {id : Byte} {raw : List Byte} :
    encodeMsg (.ledRing es) = .ok (id, raw) ↔
      id = 0x04 ∧ (∀ e ∈ es, ledRingEntryInRange e) ∧ flattenLedRing es = raw := by
  simp only [← ledRingEntryFault_eq_none_iff, ← firstFault_eq_none_iff (k := 0), encodeMsg]
  cases firstFault ledRingEntryFault 0 es with
  | none => simp [eq_comm]
  | some x => simp

/-- A number that fits a byte is read back from it. -/
theorem toNat_ofNat_byte {v bound : Nat} (h : v ≤ bound) (hb : bound < 256 := by decide) :
    (BitVec.ofNat 8 v).toNat = v := by
  rw [BitVec.toNat_ofNat]; exact Nat.mod_eq_of_lt (by omega)

/-- R175 against R162: five bytes are an entry exactly where they are its bytes. -/
theorem decodeLedEntry_eq_ok_iff {k : Nat} {enc led r g b : Byte} {e : LedEntry} :
    decodeLedEntry k enc led r g b = .ok e ↔
      ledEntryInRange e ∧ ledBytes e = [enc, led, r, g, b] := by
  rw [decodeLedEntry]
  constructor
  · intro h
    split at h
    · cases h
    · next hfault =>
      cases h
      exact ⟨ledEntryFault_eq_none_iff.mp hfault, by simp [ledBytes]⟩
  · rintro ⟨hrange, hbytes⟩
    obtain ⟨henc, hled, hr, hg, hb⟩ := hrange
    obtain ⟨rfl, rfl, rfl, rfl, rfl⟩ : _ ∧ _ ∧ _ ∧ _ ∧ _ := by simpa [ledBytes] using hbytes
    simp only [toNat_ofNat_byte henc, toNat_ofNat_byte hled, toNat_ofNat_byte hr,
      toNat_ofNat_byte hg, toNat_ofNat_byte hb, ledEntryFault_eq_none ⟨henc, hled, hr, hg, hb⟩]

/-- Two 7-bit bytes and the ring amount they stand for (R166). -/
theorem ringAmount_halves_iff {n : Nat} {msb lsb : Byte} :
    (msb.toNat ≤ 127 ∧ lsb.toNat ≤ 127 ∧ (msb.toNat <<< 7) ||| lsb.toNat = n) ↔
      n ≤ 16383 ∧ BitVec.ofNat 8 (n >>> 7) = msb ∧ BitVec.ofNat 8 (n &&& 0x7F) = lsb := by
  have hor : lsb.toNat ≤ 127 → (msb.toNat <<< 7) ||| lsb.toNat = msb.toNat * 128 + lsb.toNat :=
    fun h => by rw [← Nat.shiftLeft_add_eq_or_of_lt (by omega), Nat.shiftLeft_eq]
  have hhigh : n >>> 7 = n / 128 := Nat.shiftRight_eq_div_pow n 7
  have hlow : n &&& 0x7F = n % 128 := Nat.and_two_pow_sub_one_eq_mod n 7
  rw [hhigh, hlow, ← BitVec.toNat_inj, ← BitVec.toNat_inj, BitVec.toNat_ofNat, BitVec.toNat_ofNat]
  constructor
  · rintro ⟨hm, hl, rfl⟩
    rw [hor hl]
    omega
  · rintro ⟨hn, hm, hl⟩
    rw [hor (by omega)]
    omega

/-- The byte of `bipolar` (R163). -/
theorem bipolar_byte_iff {bip : Byte} {bipolar : Bool} :
    (bip.toNat ≤ 1 ∧ (bip == 1) = bipolar) ↔ (if bipolar then 1 else 0) = bip := by
  rw [← BitVec.toNat_inj]
  have hone : (bip == 1) = decide (bip.toNat = 1) := by
    rw [beq_eq_decide, decide_eq_decide, ← BitVec.toNat_inj]; rfl
  rw [hone]
  cases bipolar <;> simp <;> omega

/-- R176 against R163 and R166: seven bytes are an entry exactly where they are its bytes. -/
theorem decodeLedRingEntry_eq_ok_iff {k : Nat} {enc r g b msb lsb bip : Byte} {e : LedRingEntry} :
    decodeLedRingEntry k enc r g b msb lsb bip = .ok e ↔
      ledRingEntryInRange e ∧ ledRingBytes e = [enc, r, g, b, msb, lsb, bip] := by
  rw [decodeLedRingEntry]
  constructor
  · intro h
    split at h
    · cases h
    · next hfault =>
      cases h
      obtain ⟨henc, hr, hg, hb, hm, hl, hbip⟩ : enc.toNat ≤ 15 ∧ r.toNat ≤ 127 ∧ g.toNat ≤ 127 ∧
          b.toNat ≤ 127 ∧ msb.toNat ≤ 127 ∧ lsb.toNat ≤ 127 ∧ bip.toNat ≤ 1 := by
        simpa [firstAbove_eq_none_iff] using hfault
      obtain ⟨hring, hmsb, hlsb⟩ := ringAmount_halves_iff.mp ⟨hm, hl, rfl⟩
      refine ⟨⟨henc, hr, hg, hb, hring⟩, ?_⟩
      simp only [ledRingBytes, hmsb, hlsb, bipolar_byte_iff.mp ⟨hbip, rfl⟩, BitVec.ofNat_toNat,
        BitVec.setWidth_eq]
  · rintro ⟨⟨henc, hr, hg, hb, hring⟩, hbytes⟩
    obtain ⟨rfl, rfl, rfl, rfl, hmsb, hlsb, hbip⟩ : _ ∧ _ ∧ _ ∧ _ ∧ _ ∧ _ ∧ _ := by
      simpa only [ledRingBytes, List.cons.injEq, and_true] using hbytes
    obtain ⟨hm, hl, hamount⟩ := ringAmount_halves_iff.mpr ⟨hring, hmsb, hlsb⟩
    obtain ⟨hb1, hbipolar⟩ := bipolar_byte_iff.mpr hbip
    simp only [toNat_ofNat_byte henc, toNat_ofNat_byte hr, toNat_ofNat_byte hg, toNat_ofNat_byte hb,
      hamount, hbipolar, firstAbove_cons_of_le, henc, hr, hg, hb, hm, hl, hb1]
    rfl

/-- A decoder of the layer's that takes `n` bytes for each entry (R174). -/
structure ChunkDecoder {α : Type} (n : Nat) (inRange : α → Prop) (bytes : α → List Byte)
    (dec : Nat → List Byte → Except LayerError (List α)) : Prop where
  pos : 0 < n
  length : ∀ x, (bytes x).length = n
  nil : ∀ k, dec k [] = .ok []
  chunk : ∀ k c rest es, c.length = n → (dec k (c ++ rest) = .ok es ↔
    ∃ x xs, es = x :: xs ∧ (inRange x ∧ bytes x = c) ∧ dec (k + 1) rest = .ok xs)

/-- A payload of whole chunks decodes exactly to the entries it is the flattening of. -/
theorem ChunkDecoder.eq_ok_iff {α : Type} {n : Nat} {inRange : α → Prop} {bytes : α → List Byte}
    {dec : Nat → List Byte → Except LayerError (List α)} (D : ChunkDecoder n inRange bytes dec)
    {k : Nat} {raw : List Byte} {es : List α} (h : raw.length % n = 0) :
    dec k raw = .ok es ↔ (∀ e ∈ es, inRange e) ∧ (es.map bytes).flatten = raw := by
  have hpos := D.pos
  induction es generalizing k raw with
  | nil =>
    rcases eq_or_ne raw [] with rfl | hne
    · simp [D.nil]
    · have hfull := Nat.le_of_dvd (List.length_pos_iff.mpr hne) (Nat.dvd_of_mod_eq_zero h)
      rw [← List.take_append_drop n raw, D.chunk _ _ _ _ (List.length_take_of_le hfull)]
      simp [hne.symm]
  | cons e es ih =>
    rw [List.forall_mem_cons, List.map_cons, List.flatten_cons]
    rcases eq_or_ne raw [] with rfl | hne
    · have hbytes : bytes e ≠ [] := List.length_pos_iff.mp (by rw [D.length]; exact hpos)
      simp [D.nil, hbytes]
    · have hfull := Nat.le_of_dvd (List.length_pos_iff.mpr hne) (Nat.dvd_of_mod_eq_zero h)
      have htake := List.length_take_of_le hfull
      have hsplit : bytes e ++ (es.map bytes).flatten = raw ↔
          bytes e = raw.take n ∧ (es.map bytes).flatten = raw.drop n := by
        constructor
        · rintro rfl
          exact ⟨(List.take_left' (D.length e)).symm, (List.drop_left' (D.length e)).symm⟩
        · rintro ⟨h1, h2⟩
          rw [h1, h2, List.take_append_drop]
      have hdrop : (raw.drop n).length % n = 0 := by
        rw [List.length_drop, ← Nat.mod_eq_sub_mod hfull, h]
      have hchunk := D.chunk k (raw.take n) (raw.drop n) (e :: es) htake
      rw [List.take_append_drop] at hchunk
      rw [hchunk, hsplit]
      constructor
      · rintro ⟨x, xs, hx, ⟨hrange, hbytes⟩, hxs⟩
        cases hx
        obtain ⟨hall, hflat⟩ := (ih hdrop).mp hxs
        exact ⟨⟨hrange, hall⟩, hbytes, hflat⟩
      · rintro ⟨⟨hrange, hall⟩, hbytes, hflat⟩
        exact ⟨e, es, rfl, ⟨hrange, hbytes⟩, (ih hdrop).mpr ⟨hall, hflat⟩⟩

theorem decodeLeds_chunkDecoder : ChunkDecoder 5 ledEntryInRange ledBytes decodeLeds where
  pos := by decide
  length _ := rfl
  nil _ := rfl
  chunk k c rest es hc := by
    obtain ⟨enc, led, r, g, b, rfl⟩ : ∃ c₀ c₁ c₂ c₃ c₄, c = [c₀, c₁, c₂, c₃, c₄] := by
      match c, hc with
      | [_, _, _, _, _], _ => exact ⟨_, _, _, _, _, rfl⟩
    simp only [← decodeLedEntry_eq_ok_iff (k := k), List.cons_append, List.nil_append, decodeLeds]
    cases decodeLedEntry k enc led r g b with
    | error e => simp
    | ok x =>
      cases decodeLeds (k + 1) rest with
      | error e => simp
      | ok xs => simp [eq_comm]

theorem decodeLedRings_chunkDecoder :
    ChunkDecoder 7 ledRingEntryInRange ledRingBytes decodeLedRings where
  pos := by decide
  length _ := rfl
  nil _ := rfl
  chunk k c rest es hc := by
    obtain ⟨enc, r, g, b, msb, lsb, bip, rfl⟩ :
        ∃ c₀ c₁ c₂ c₃ c₄ c₅ c₆, c = [c₀, c₁, c₂, c₃, c₄, c₅, c₆] := by
      match c, hc with
      | [_, _, _, _, _, _, _], _ => exact ⟨_, _, _, _, _, _, _, rfl⟩
    simp only [← decodeLedRingEntry_eq_ok_iff (k := k), List.cons_append, List.nil_append,
      decodeLedRings]
    cases decodeLedRingEntry k enc r g b msb lsb bip with
    | error e => simp
    | ok x =>
      cases decodeLedRings (k + 1) rest with
      | error e => simp
      | ok xs => simp [eq_comm]

theorem flatten_splitLabels {n : Nat} {raw : List Byte} (h : raw.length = 4 * n) :
    (splitLabels n raw).flatten = raw := by
  induction n generalizing raw with
  | zero => rw [List.length_eq_zero_iff.mp h]; rfl
  | succ n ih =>
    rw [splitLabels, List.flatten_cons, ih (by rw [List.length_drop]; omega),
      List.take_append_drop]

theorem splitLabels_shape {n : Nat} {raw : List Byte} (h : raw.length = 4 * n) :
    (splitLabels n raw).length = n ∧ ∀ l ∈ splitLabels n raw, l.length = 4 := by
  induction n generalizing raw with
  | zero => exact ⟨rfl, fun _ hl => nomatch hl⟩
  | succ n ih =>
    obtain ⟨hlen, hall⟩ := ih (raw := raw.drop 4) (by rw [List.length_drop]; omega)
    refine ⟨congrArg (· + 1) hlen, fun l hl => ?_⟩
    rcases List.mem_cons.mp hl with rfl | hl
    · rw [List.length_take]; omega
    · exact hall l hl

theorem splitLabels_flatten {labels : List (List Byte)} (h : ∀ l ∈ labels, l.length = 4) :
    splitLabels labels.length labels.flatten = labels := by
  induction labels with
  | nil => rfl
  | cons l ls ih =>
    have hl : l.length = 4 := h l (.head _)
    rw [List.length_cons, List.flatten_cons, splitLabels, List.take_left' hl, List.drop_left' hl,
      ih fun x hx => h x (.tail _ hx)]

theorem encodeMsg_oledLabels_iff {title : List Byte} {labels : List (List Byte)} {id : Byte}
    {raw : List Byte} :
    encodeMsg (.oledLabels title labels) = .ok (id, raw) ↔
      id = 0x03 ∧ labelsShape title labels = true ∧ flattenLabels title labels = raw := by
  rw [encodeMsg]
  split_ifs with h <;> simp [h, eq_comm]

theorem encodeMsg_of_decodeMsg {id : Byte} {raw : List Byte} {m : Message}
    (h : decodeMsg id raw = .ok m) : encodeMsg m = .ok (id, raw) := by
  simp only [decodeMsg, ne_eq, ite_not] at h
  split_ifs at h with h55 hlen h53 hlen h00 hlen h01 hlen h04 hlen h02 hlen h03 hlen
  · cases h; rw [List.length_eq_zero_iff.mp hlen, h55]; rfl
  · cases h; rw [List.length_eq_zero_iff.mp hlen, h53]; rfl
  · cases h; rw [List.length_eq_zero_iff.mp hlen, h00]; rfl
  · split at h
    · cases h
    · next es hes =>
      cases h
      obtain ⟨hrange, hflat⟩ := (decodeLeds_chunkDecoder.eq_ok_iff hlen).mp hes
      exact encodeMsg_led_iff.mpr ⟨h01, hrange, hflat⟩
  · split at h
    · cases h
    · next es hes =>
      cases h
      obtain ⟨hrange, hflat⟩ := (decodeLedRings_chunkDecoder.eq_ok_iff hlen).mp hes
      exact encodeMsg_ledRing_iff.mpr ⟨h04, hrange, hflat⟩
  · cases h; rw [h02, encodeMsg, if_pos hlen]
  · cases h
    have hrest : (raw.drop 16).length = 4 * 16 := by rw [List.length_drop, hlen]
    obtain ⟨hl, hall⟩ := splitLabels_shape hrest
    have htitle : (raw.take 16).length = 16 := List.length_take_of_le (by omega)
    have hflat : flattenLabels (raw.take 16) (splitLabels 16 (raw.drop 16)) = raw := by
      rw [flattenLabels, flatten_splitLabels hrest, List.take_append_drop]
    exact encodeMsg_oledLabels_iff.mpr ⟨h03, labelsShape_iff.mpr ⟨htitle, hl, hall⟩, hflat⟩

theorem decodeMsg_of_encodeMsg {id : Byte} {raw : List Byte} {m : Message}
    (h : encodeMsg m = .ok (id, raw)) : decodeMsg id raw = .ok m := by
  cases m with
  | enter => cases h; rfl
  | ackEntered => cases h; rfl
  | exit => cases h; rfl
  | led es =>
    obtain ⟨rfl, hrange, rfl⟩ := encodeMsg_led_iff.mp h
    have hmod : (flattenLed es).length % 5 = 0 := by rw [flattenLed_length, Nat.mul_mod_right]
    have hdec := (decodeLeds_chunkDecoder.eq_ok_iff (k := 0) hmod).mpr ⟨hrange, rfl⟩
    simp [decodeMsg, hmod, hdec]
  | ledRing es =>
    obtain ⟨rfl, hrange, rfl⟩ := encodeMsg_ledRing_iff.mp h
    have hmod : (flattenLedRing es).length % 7 = 0 := by
      rw [flattenLedRing_length, Nat.mul_mod_right]
    have hdec := (decodeLedRings_chunkDecoder.eq_ok_iff (k := 0) hmod).mpr ⟨hrange, rfl⟩
    simp [decodeMsg, hmod, hdec]
  | oledFramebuffer fb =>
    rw [encodeMsg] at h
    split_ifs at h with hlen
    cases h
    simp [decodeMsg, hlen]
  | oledLabels title labels =>
    obtain ⟨rfl, hshape, rfl⟩ := encodeMsg_oledLabels_iff.mp h
    obtain ⟨htitle, hl, hall⟩ := labelsShape_iff.mp hshape
    have hsplit : splitLabels 16 labels.flatten = labels := by
      rw [← hl, splitLabels_flatten hall]
    have htake : (flattenLabels title labels).take 16 = title := List.take_left' htitle
    have hdrop : (flattenLabels title labels).drop 16 = labels.flatten := List.drop_left' htitle
    simp [decodeMsg, flattenLabels_length hshape, htake, hdrop, hsplit]

/-- The schema decode and the encode are each other's inverses (R179). -/
theorem decodeMsg_eq_ok_iff {id : Byte} {raw : List Byte} {m : Message} :
    decodeMsg id raw = .ok m ↔ encodeMsg m = .ok (id, raw) :=
  ⟨encodeMsg_of_decodeMsg, decodeMsg_of_encodeMsg⟩

end Sys2Proof.Machine
end

section
/-! The forms of the encoded instructions (R72, R75, R79): which bytes the decoder takes for which
row, and why it refuses the others. -/

namespace Sys2Proof.Machine

/-! Frames. -/

theorem mismatchFrom_append (k : Nat) (cs rest : List Byte) :
    mismatchFrom k cs (cs ++ rest) = none := by
  induction cs generalizing k with
  | nil => rfl
  | cons c cs ih => rw [List.cons_append, mismatchFrom, if_pos rfl, ih]

theorem eq_append_of_mismatchFrom {k : Nat} {cs w : List Byte} (h : mismatchFrom k cs w = none) :
    ∃ rest, w = cs ++ rest := by
  induction cs generalizing k w with
  | nil => exact ⟨w, rfl⟩
  | cons c cs ih =>
    cases w with
    | nil => cases h
    | cons x xs =>
      rw [mismatchFrom] at h
      split_ifs at h with hx
      obtain ⟨rest, rfl⟩ := ih h
      exact ⟨rest, by rw [hx]; rfl⟩

theorem payloadOf_hdr (c i z : Byte) (p : List Byte) :
    payloadOf (hdr ++ c :: i :: (p ++ [z])) = p := by
  simp [payloadOf, hdr]

/-- R125's checks after the header. -/
theorem parse_hdr (c i z : Byte) (p : List Byte) :
    parse (hdr ++ c :: i :: (p ++ [z])) =
      if z ≠ term then .error ⟨.headerMismatch, 8 + p.length⟩
      else if c ≠ cat then .error ⟨.categoryMismatch, 6⟩
      else (highByte? p).elim (.ok (i, unpack p))
        fun k => .error ⟨.packedByteOutOfRange, 8 + k⟩ := by
  have hlen : (hdr ++ c :: i :: (p ++ [z])).length = 9 + p.length := by simp [hdr]; omega
  have hlast : (hdr ++ c :: i :: (p ++ [z])).getD (8 + p.length) 0 = z := by
    simp [hdr, Nat.add_comm 8]
  rw [parse, if_neg (by omega), mismatchFrom_append, payloadOf_hdr, hlen,
    show 9 + p.length - 1 = 8 + p.length by omega, hlast]
  cases highByte? p <;> rfl

/-- A buffer long enough that starts with the header has a category, an id, a payload and an end. -/
theorem exists_hdr_of_mismatchFrom {w : List Byte} (hlen : 9 ≤ w.length)
    (h : mismatchFrom 0 hdr w = none) : ∃ c i z p, w = hdr ++ c :: i :: (p ++ [z]) := by
  obtain ⟨rest, rfl⟩ := eq_append_of_mismatchFrom h
  have hrest : 3 ≤ rest.length := by
    have : (hdr ++ rest).length = 6 + rest.length := List.length_append
    omega
  match rest, hrest with
  | c :: i :: body, hbody =>
    rcases List.eq_nil_or_concat body with rfl | ⟨p, z, rfl⟩
    · simp at hbody
    · exact ⟨c, i, z, p, by rw [List.concat_eq_append]⟩

theorem wire_eq (id : Byte) (packed : List Byte) :
    wire id packed = hdr ++ cat :: id :: (packed ++ [term]) := by
  simp [wire]

theorem payloadOf_wire (id : Byte) (packed : List Byte) : payloadOf (wire id packed) = packed := by
  rw [wire_eq, payloadOf_hdr]

theorem parse_wire (id : Byte) (packed : List Byte) :
    parse (wire id packed) = (highByte? packed).elim (.ok (id, unpack packed))
      fun k => .error ⟨.packedByteOutOfRange, 8 + k⟩ := by
  rw [wire_eq, parse_hdr, if_neg (not_not_intro rfl), if_neg (not_not_intro rfl)]

theorem parse_wire_of_lowBytes {packed : List Byte} (h : highByte? packed = none) (id : Byte) :
    parse (wire id packed) = .ok (id, unpack packed) := by
  rw [parse_wire, h]; rfl

/-- What FC.PARSE takes for a frame (R122, R128). -/
theorem eq_wire_of_parse {w raw : List Byte} {id : Byte} (h : parse w = .ok (id, raw)) :
    ∃ packed, highByte? packed = none ∧ w = wire id packed := by
  have hlen : 9 ≤ w.length := Nat.not_lt.mp fun hshort => by
    rw [parse, if_pos hshort] at h; cases h
  have hhdr : mismatchFrom 0 hdr w = none := by
    rw [parse, if_neg (Nat.not_lt.mpr hlen)] at h
    cases hm : mismatchFrom 0 hdr w with
    | none => rfl
    | some k => rw [hm] at h; cases h
  obtain ⟨c, i, z, p, rfl⟩ := exists_hdr_of_mismatchFrom hlen hhdr
  rw [parse_hdr] at h
  split_ifs at h with hterm hcat
  cases hp : highByte? p with
  | some k => rw [hp] at h; cases h
  | none =>
    rw [hp] at h
    cases h
    rw [not_not.mp hterm, not_not.mp hcat]
    exact ⟨p, hp, (wire_eq id p).symm⟩

theorem decodeFrame_wire {packed : List Byte} (h : highByte? packed = none) (id : Byte) :
    decodeFrame (wire id packed) = .ok (rowOfFrame id packed) := by
  rw [decodeFrame, parse_wire_of_lowBytes h, payloadOf_wire]

theorem decodeFrame_of_parse_error {w : List Byte} {f : Failure} (h : parse w = .error f) :
    decodeFrame w = .error (.notAFrame f) := by
  rw [decodeFrame, h]

/-- A frame is the row of the message it carries, or FRAME where it carries none (log 12). -/
theorem rowOfFrame_cases (id : Byte) (packed : List Byte) :
    (isMessageFrame id packed = false ∧ rowOfFrame id packed = .frame id packed) ∨
      ∃ m raw, packed = pack raw ∧ encodeMsg m = .ok (id, raw) ∧
        rowOfFrame id packed = rowOfMessage m := by
  unfold isMessageFrame rowOfFrame
  by_cases hpack : pack (unpack packed) = packed
  · rw [if_pos hpack]
    cases hdec : decodeMsg id (unpack packed) with
    | error e => exact .inl ⟨by simp, rfl⟩
    | ok m => exact .inr ⟨m, unpack packed, hpack.symm, decodeMsg_eq_ok_iff.mp hdec, rfl⟩
  · exact .inl ⟨by simp [hpack], if_neg hpack⟩

theorem isMessageFrame_pack {id : Byte} {raw : List Byte} {m : Message}
    (h : encodeMsg m = .ok (id, raw)) : isMessageFrame id (pack raw) = true := by
  rw [isMessageFrame, unpack_pack, decodeMsg_eq_ok_iff.mpr h]
  simp

theorem rowOfFrame_pack {id : Byte} {raw : List Byte} {m : Message}
    (h : encodeMsg m = .ok (id, raw)) : rowOfFrame id (pack raw) = rowOfMessage m := by
  rw [rowOfFrame, unpack_pack, if_pos rfl, decodeMsg_eq_ok_iff.mpr h]

theorem rowOfFrame_of_isMessageFrame_eq_false {id : Byte} {packed : List Byte}
    (h : isMessageFrame id packed = false) : rowOfFrame id packed = .frame id packed := by
  rcases rowOfFrame_cases id packed with ⟨-, hrow⟩ | ⟨m, raw, rfl, hm, -⟩
  · exact hrow
  · rw [isMessageFrame_pack hm] at h; cases h

theorem wellFormed_rowOfMessage_iff {m : Message} :
    (rowOfMessage m).wellFormed = true ↔ ∃ id raw, encodeMsg m = .ok (id, raw) := by
  cases m with
  | enter => exact ⟨fun _ => ⟨_, _, rfl⟩, fun _ => rfl⟩
  | ackEntered => exact ⟨fun _ => ⟨_, _, rfl⟩, fun _ => rfl⟩
  | exit => exact ⟨fun _ => ⟨_, _, rfl⟩, fun _ => rfl⟩
  | led es =>
    simp [rowOfMessage, Instr.wellFormed, encodeMsg_led_iff, firstFault_eq_none_iff,
      ledEntryFault_eq_none_iff]
  | ledRing es =>
    simp [rowOfMessage, Instr.wellFormed, encodeMsg_ledRing_iff, firstFault_eq_none_iff,
      ledRingEntryFault_eq_none_iff]
  | oledFramebuffer fb =>
    simp only [rowOfMessage, Instr.wellFormed, encodeMsg]
    split_ifs with h <;> simp [h]
  | oledLabels title labels =>
    simp [rowOfMessage, Instr.wellFormed, encodeMsg_oledLabels_iff]

theorem encode_rowOfMessage {id : Byte} {raw : List Byte} {m : Message}
    (h : encodeMsg m = .ok (id, raw)) : encode (rowOfMessage m) = .frame (frame id raw) := by
  cases m with
  | enter => cases h; rfl
  | ackEntered => cases h; rfl
  | exit => cases h; rfl
  | led es => obtain ⟨rfl, -, rfl⟩ := encodeMsg_led_iff.mp h; rfl
  | ledRing es => obtain ⟨rfl, -, rfl⟩ := encodeMsg_ledRing_iff.mp h; rfl
  | oledFramebuffer fb =>
    rw [encodeMsg] at h
    split_ifs at h
    cases h; rfl
  | oledLabels title labels => obtain ⟨rfl, -, rfl⟩ := encodeMsg_oledLabels_iff.mp h; rfl

theorem decode_encode_rowOfMessage {m : Message} (h : (rowOfMessage m).wellFormed = true) :
    decode (encode (rowOfMessage m)) = .ok (rowOfMessage m) := by
  obtain ⟨id, raw, hm⟩ := wellFormed_rowOfMessage_iff.mp h
  rw [encode_rowOfMessage hm, decode, frame, decodeFrame_wire (highByte?_pack raw),
    rowOfFrame_pack hm]

/-! Groups. -/

/-- A top-bits bit is set for a byte that the group does not have (R72). -/
def HasStrayBit (w : List Byte) : Prop :=
  ∃ i, w.length - 1 ≤ i ∧ i < 7 ∧ (w.getD 0 0).getLsbD i = true

theorem decodeGroup_of_length {w : List Byte} (h : w.length < 2 ∨ 8 < w.length) :
    decodeGroup w = .error .groupLength := by
  cases w with
  | nil => rfl
  | cons top ds =>
    rw [List.length_cons] at h
    exact if_pos (by omega)

section
variable {w : List Byte} (h2 : 2 ≤ w.length) (h8 : w.length ≤ 8)
include h2 h8

theorem decodeGroup_of_highByte (h : ∃ b ∈ w, 0x80#8 ≤ b) :
    decodeGroup w = .error .groupHighByte := by
  cases w with
  | nil => exact absurd h2 (by decide)
  | cons top ds =>
    rw [List.length_cons] at h2 h8
    have hhigh : (highByte? (top :: ds)).isSome = true := by
      obtain ⟨b, hb, hge⟩ := h
      rw [Option.isSome_iff_ne_none, Ne, highByte?_eq_none_iff]
      exact fun hall => BitVec.not_lt.mpr hge (hall b hb)
    rw [decodeGroup, if_neg (by omega), if_pos hhigh]

variable (hlow : ∀ b ∈ w, b < 0x80#8)
include hlow

theorem decodeGroup_of_strayBit (h : HasStrayBit w) : decodeGroup w = .error .groupStrayBits := by
  cases w with
  | nil => exact absurd h2 (by decide)
  | cons top ds =>
    obtain ⟨i, hi, hi7, hbit⟩ := h
    obtain ⟨htop, hds⟩ := List.forall_mem_cons.mp hlow
    rw [List.length_cons] at h2 h8
    have hne : packGroup (restoreFrom top 0 ds) ≠ top :: ds := fun heq => by
      have := (packGroup_restoreFrom_iff htop hds).mp heq i hi hi7
      exact absurd (hbit.symm.trans this) (by decide)
    rw [decodeGroup, if_neg (by omega), highByte?_eq_none_iff.mpr hlow, if_neg (by decide),
      if_pos hne]

theorem decodeGroup_of_no_strayBit (h : ¬ HasStrayBit w) :
    ∃ raw, 1 ≤ raw.length ∧ raw.length ≤ 7 ∧ packGroup raw = w ∧
      decodeGroup w = .ok (.group raw) := by
  cases w with
  | nil => exact absurd h2 (by decide)
  | cons top ds =>
    obtain ⟨htop, hds⟩ := List.forall_mem_cons.mp hlow
    rw [List.length_cons] at h2 h8
    have heq : packGroup (restoreFrom top 0 ds) = top :: ds :=
      (packGroup_restoreFrom_iff htop hds).mpr fun i hi hi7 =>
        Bool.eq_false_iff.mpr fun hbit => h ⟨i, hi, hi7, hbit⟩
    refine ⟨restoreFrom top 0 ds, ?_, ?_, heq, ?_⟩
    · rw [restoreFrom_length]; omega
    · rw [restoreFrom_length]; omega
    · rw [decodeGroup, if_neg (by omega), highByte?_eq_none_iff.mpr hlow, if_neg (by decide),
        if_neg (not_not_intro heq)]

end

/-- Every byte sequence is refused under one of the three names, or is the group of its row. -/
theorem decodeGroup_cases (w : List Byte) :
    (decodeGroup w = .error .groupLength ∧ (w.length < 2 ∨ 8 < w.length)) ∨
    (decodeGroup w = .error .groupHighByte ∧ ∃ b ∈ w, 0x80#8 ≤ b) ∨
    (decodeGroup w = .error .groupStrayBits ∧ HasStrayBit w) ∨
    ∃ raw, 1 ≤ raw.length ∧ raw.length ≤ 7 ∧ packGroup raw = w ∧
      decodeGroup w = .ok (.group raw) := by
  by_cases hlen : w.length < 2 ∨ 8 < w.length
  · exact .inl ⟨decodeGroup_of_length hlen, hlen⟩
  obtain ⟨h2, h8⟩ : 2 ≤ w.length ∧ w.length ≤ 8 := by omega
  by_cases hhigh : ∃ b ∈ w, 0x80#8 ≤ b
  · exact .inr (.inl ⟨decodeGroup_of_highByte h2 h8 hhigh, hhigh⟩)
  have hlow : ∀ b ∈ w, b < 0x80#8 := fun b hb => BitVec.not_le.mp fun hge => hhigh ⟨b, hb, hge⟩
  by_cases hstray : HasStrayBit w
  · exact .inr (.inr (.inl ⟨decodeGroup_of_strayBit h2 h8 hlow hstray, hstray⟩))
  · exact .inr (.inr (.inr (decodeGroup_of_no_strayBit h2 h8 hlow hstray)))

theorem decodeGroup_packGroup {raw : List Byte} (h1 : 1 ≤ raw.length) (h7 : raw.length ≤ 7) :
    decodeGroup (packGroup raw) = .ok (.group raw) := by
  have hraw := restoreFrom_packGroup (h7.trans (by decide))
  have hlow := highByte?_eq_none_iff.mpr (packGroup_lt h7)
  rw [packGroup] at hlow ⊢
  rw [decodeGroup, hlow, hraw, if_neg (by rw [List.length_map]; omega), if_neg (by decide),
    packGroup, if_neg (not_not_intro rfl)]

/-! Channel messages. -/

theorem isEventMessage_setWidth (st : Byte) (a b : BitVec 7) :
    isEventMessage st (a.setWidth 8) (b.setWidth 8) =
      ((st == 0xB0 && decide (1#7 ≤ a) && decide (a ≤ 16#7)) ||
        ((st == 0x90 || st == 0x80) && decide (a ≤ 16#7))) := by
  have hmsb : ∀ x : BitVec 7, (x.setWidth 8).msb = false := fun x => by
    simp [BitVec.msb_eq_false_iff_two_mul_lt]; omega
  have hmod : ∀ x : BitVec 7, x.toNat % 256 = x.toNat := fun x => Nat.mod_eq_of_lt (by omega)
  simp [isEventMessage, hmsb, hmod, BitVec.le_def]

theorem exists_of_isEventMessage {st d1 d2 : Byte} (h : isEventMessage st d1 d2 = true) :
    ∃ a b : BitVec 7, d1 = a.setWidth 8 ∧ d2 = b.setWidth 8 := by
  simp only [isEventMessage, Bool.and_eq_true, Bool.not_eq_true'] at h
  obtain ⟨⟨h1, h2⟩, -⟩ := h
  exact ⟨d1.setWidth 7, d2.setWidth 7, (setWidth_of_msb_false h1).symm,
    (setWidth_of_msb_false h2).symm⟩

/-- An encoder value is a turn or one of those without a meaning (R79). -/
theorem not_turnValue_iff {b : BitVec 7} : ¬(1#7 ≤ b ∧ b ≤ 15#7) ↔ b = 0#7 ∨ 16#7 ≤ b := by
  simp only [BitVec.le_def, BitVec.toNat_eq, BitVec.toNat_ofNat]
  omega

theorem one_le_iff_ne_zero {b : BitVec 7} : 1#7 ≤ b ↔ b ≠ 0#7 := by
  simp only [BitVec.le_def, ne_eq, BitVec.toNat_eq, BitVec.toNat_ofNat]
  omega

section
variable (a b : BitVec 7) (h : a ≤ 16#7)
include h

theorem decodeChMsg_controlChange (h1 : 1#7 ≤ a) :
    decodeChMsg 0xB0 (a.setWidth 8) (b.setWidth 8) =
      if 1#7 ≤ b ∧ b ≤ 15#7 then .encTurn a b else .encUndef a b := by
  simp [decodeChMsg, isEventMessage_setWidth, h, h1]

theorem decodeChMsg_noteOn :
    decodeChMsg 0x90 (a.setWidth 8) (b.setWidth 8) =
      if b = 0#7 then .btnRel0 a else .btnPress a b := by
  simp [decodeChMsg, isEventMessage_setWidth, h]

theorem decodeChMsg_noteOff :
    decodeChMsg 0x80 (a.setWidth 8) (b.setWidth 8) = .btnRel a b := by
  simp [decodeChMsg, isEventMessage_setWidth, h]

end

theorem decodeChMsg_of_not_event {st d1 d2 : Byte} (h : isEventMessage st d1 d2 = false) :
    decodeChMsg st d1 d2 = .pass st d1 d2 := by
  rw [decodeChMsg, h]; rfl

/-- Every channel message is one well-formed row, which encodes to its bytes (R79). -/
theorem decodeChMsg_spec (st d1 d2 : Byte) :
    (decodeChMsg st d1 d2).wellFormed = true ∧
      encode (decodeChMsg st d1 d2) = .chmsg st d1 d2 := by
  cases hevent : isEventMessage st d1 d2 with
  | false =>
    rw [decodeChMsg_of_not_event hevent]
    exact ⟨by rw [Instr.wellFormed, hevent]; rfl, rfl⟩
  | true =>
    obtain ⟨a, b, rfl, rfl⟩ := exists_of_isEventMessage hevent
    rw [isEventMessage_setWidth] at hevent
    simp only [Bool.or_eq_true, Bool.and_eq_true, beq_iff_eq, decide_eq_true_eq] at hevent
    rcases hevent with ⟨⟨rfl, h1⟩, h⟩ | ⟨rfl | rfl, h⟩
    · rw [decodeChMsg_controlChange a b h h1]
      split_ifs with hb
      · refine ⟨?_, rfl⟩
        simpa [Instr.wellFormed, h, h1] using hb
      · refine ⟨?_, rfl⟩
        simpa [Instr.wellFormed, h, h1] using not_turnValue_iff.mp hb
    · rw [decodeChMsg_noteOn a b h]
      split_ifs with hb
      · subst hb
        exact ⟨decide_eq_true h, rfl⟩
      · refine ⟨?_, rfl⟩
        simpa [Instr.wellFormed, h] using one_le_iff_ne_zero.mpr hb
    · rw [decodeChMsg_noteOff a b h]
      exact ⟨decide_eq_true h, rfl⟩

end Sys2Proof.Machine
end

section
/-! The decoder and the encoder are each other's inverses (R71, R72, R75, R79, R81). -/

namespace Sys2Proof.Machine

/-- Settles O51, row by row: a message row's payload decodes to its message, a group restores to its
bytes, and a channel message is its row by R79's ranges. -/
theorem decodeInvertsEncode : Obligations.DecodeInvertsEncode := by
  intro i hwf
  cases i with
  | bpEnc => rfl
  | bpDec => rfl
  | fcBuild => rfl
  | fcParse => rfl
  | frame id packed =>
    simp only [Instr.wellFormed, Bool.and_eq_true, Bool.not_eq_true', List.all_eq_true,
      decide_eq_true_eq] at hwf
    obtain ⟨hlow, hrow⟩ := hwf
    rw [encode, decode, decodeFrame_wire (highByte?_eq_none_iff.mpr hlow),
      rowOfFrame_of_isMessageFrame_eq_false hrow]
  | enter => exact decode_encode_rowOfMessage (m := .enter) hwf
  | ackEntered => exact decode_encode_rowOfMessage (m := .ackEntered) hwf
  | exit => exact decode_encode_rowOfMessage (m := .exit) hwf
  | led es => exact decode_encode_rowOfMessage (m := .led es) hwf
  | ledRing es => exact decode_encode_rowOfMessage (m := .ledRing es) hwf
  | oledFb fb => exact decode_encode_rowOfMessage (m := .oledFramebuffer fb) hwf
  | oledLabels title labels =>
    exact decode_encode_rowOfMessage (m := .oledLabels title labels) hwf
  | group raw =>
    simp only [Instr.wellFormed, Bool.and_eq_true, decide_eq_true_eq] at hwf
    exact decodeGroup_packGroup hwf.1 hwf.2
  | encTurn c v =>
    simp only [Instr.wellFormed, Bool.and_eq_true, decide_eq_true_eq] at hwf
    obtain ⟨⟨⟨h1, h⟩, hv1⟩, hv15⟩ := hwf
    rw [encode, decode, decodeChMsg_controlChange c v h h1, if_pos ⟨hv1, hv15⟩]
  | encUndef c v =>
    simp only [Instr.wellFormed, Bool.and_eq_true, Bool.or_eq_true, beq_iff_eq,
      decide_eq_true_eq] at hwf
    obtain ⟨⟨h1, h⟩, hv⟩ := hwf
    rw [encode, decode, decodeChMsg_controlChange c v h h1, if_neg (not_turnValue_iff.mpr hv)]
  | btnPress n v =>
    simp only [Instr.wellFormed, Bool.and_eq_true, decide_eq_true_eq] at hwf
    obtain ⟨h, hv⟩ := hwf
    rw [encode, decode, decodeChMsg_noteOn n v h, if_neg (one_le_iff_ne_zero.mp hv)]
  | btnRel0 n =>
    exact congrArg Except.ok ((decodeChMsg_noteOn n 0 (of_decide_eq_true hwf)).trans (if_pos rfl))
  | btnRel n v =>
    exact congrArg Except.ok (decodeChMsg_noteOff n v (of_decide_eq_true hwf))
  | pass st d1 d2 =>
    rw [Instr.wellFormed, Bool.not_eq_true'] at hwf
    exact congrArg Except.ok (decodeChMsg_of_not_event hwf)

theorem decodeCmd_encode (op : BitVec 2) :
    (decodeCmd op).wellFormed = true ∧ encode (decodeCmd op) = .cmd op := by
  revert op; decide

/-- Settles O52, format by format. -/
theorem encodeInvertsDecode : Obligations.EncodeInvertsDecode := by
  intro p i hdec
  cases p with
  | cmd op => cases hdec; exact decodeCmd_encode op
  | group w =>
    rw [decode] at hdec
    rcases decodeGroup_cases w with ⟨he, -⟩ | ⟨he, -⟩ | ⟨he, -⟩ | ⟨raw, h1, h7, rfl, hok⟩
    · cases he.symm.trans hdec
    · cases he.symm.trans hdec
    · cases he.symm.trans hdec
    · cases hok.symm.trans hdec
      exact ⟨by simp [Instr.wellFormed, h1, h7], rfl⟩
  | frame w =>
    rw [decode] at hdec
    cases hp : parse w with
    | error f => rw [decodeFrame_of_parse_error hp] at hdec; cases hdec
    | ok r =>
      obtain ⟨packed, hlow, rfl⟩ := eq_wire_of_parse hp
      rw [decodeFrame_wire hlow] at hdec
      cases hdec
      rcases rowOfFrame_cases r.1 packed with ⟨hnot, hrow⟩ | ⟨m, raw, rfl, hm, hrow⟩
      · rw [hrow]
        refine ⟨?_, rfl⟩
        simpa [Instr.wellFormed, hnot] using highByte?_eq_none_iff.mp hlow
      · rw [hrow]
        exact ⟨wellFormed_rowOfMessage_iff.mpr ⟨_, _, hm⟩, encode_rowOfMessage hm⟩
  | chmsg st d1 d2 => cases hdec; exact decodeChMsg_spec st d1 d2

/-- Settles O54: a refusal is `parse`'s own, or one of the three of a group. -/
theorem illegalEncodingsAreRefused : Obligations.IllegalEncodingsAreRefused := by
  refine ⟨fun p why hdec => ?_, fun w f hf => decodeFrame_of_parse_error hf,
    fun w hlen => decodeGroup_of_length hlen,
    fun w h2 h8 hhigh => decodeGroup_of_highByte h2 h8 hhigh,
    fun w h2 h8 hlow hstray => decodeGroup_of_strayBit h2 h8 hlow hstray⟩
  cases p with
  | cmd op => cases hdec
  | group w =>
    refine .inr ⟨w, rfl, ?_⟩
    rw [decode] at hdec
    rcases decodeGroup_cases w with ⟨he, h⟩ | ⟨he, h⟩ | ⟨he, h⟩ | ⟨raw, -, -, -, hok⟩
    · cases he.symm.trans hdec; exact .inl ⟨rfl, h⟩
    · cases he.symm.trans hdec; exact .inr (.inl ⟨rfl, h⟩)
    · cases he.symm.trans hdec; exact .inr (.inr ⟨rfl, h⟩)
    · cases hok.symm.trans hdec
  | frame w =>
    rw [decode] at hdec
    cases hp : parse w with
    | error f =>
      rw [decodeFrame_of_parse_error hp] at hdec
      cases hdec
      exact .inl ⟨w, f, rfl, rfl, hp⟩
    | ok r =>
      rw [decodeFrame, hp] at hdec
      cases hdec
  | chmsg st d1 d2 => cases hdec

theorem decode_of_encode_eq {p : Pattern} {i : Instr} (h : encode i = p)
    (hwf : i.wellFormed = true) : decode p = .ok i := h ▸ decodeInvertsEncode i hwf

/-- Settles O53: each word is the encoding of the well-formed instruction it stands for. -/
theorem sampleWordsDecode : Obligations.SampleWordsDecode := by
  refine ⟨?_, ?_, ?_, ?_, ?_, ?_, ?_, ?_, ?_, ?_, ?_, ?_, ?_, ?_, ?_, ?_, ?_⟩
  all_goals exact decode_of_encode_eq (by decide) (by decide)

end Sys2Proof.Machine
end

section
/-! A line of at most 65535 bytes with the PFE idle (R87): what it leaves, and the commit of its
transaction where its operand fits the buffers and where it does not (R193). -/

namespace Sys2Proof.Machine

/-- What a line that ILEN can say leaves beside its transaction's result and the layer's answer
(R87). -/
def State.wroteLine (s t : State) (op : BitVec 2) (id : Byte) (bytes : List Byte) : Prop :=
  t.op = op ∧ t.msgid = (if op = 2 then id else s.msgid) ∧ t.ilen.toNat = bytes.length ∧
    (∀ k, t.ibuf.read k
      = if k < bytes.length ∧ k < s.cfg.bufCap then bytes[k]? else s.ibuf.read k) ∧
    t.rdata = none ∧ s.sameBesidePfe t

theorem toNat_ofNat_half {n : Nat} (h : n ≤ 65535) : (BitVec.ofNat 16 n).toNat = n := by
  rw [BitVec.toNat_ofNat]; exact Nat.mod_eq_of_lt (by omega)

section
variable {s : State} {bytes : List Byte}

theorem State.line_wrote (hw : s.ibuf.wf) (hb : s.busy = false) (hlen : bytes.length ≤ 65535)
    (op : BitVec 2) (id : Byte) :
    ∃ u : State, s.line op id bytes = runSelected u ∧ s.wroteLine u op id bytes ∧
      u.layer = s.layer := by
  obtain ⟨m, n, hn, -, hread, -, hline⟩ := State.line_idle hb hw op id bytes
  rw [if_pos hlen] at hn hline
  have hilen : n.toNat = bytes.length := hn ▸ toNat_ofNat_half hlen
  exact ⟨_, hline, ⟨rfl, rfl, hilen, hread, rfl, rfl, rfl, rfl, rfl, rfl⟩, rfl⟩

/-- A line without an operand touches no byte of IBUF, whatever form IBUF has. -/
theorem State.line_nil_wrote (hb : s.busy = false) (id : Byte) :
    ∃ u : State, s.line 2 id [] = runSelected u ∧ s.wroteLine u 2 id [] ∧ u.layer = s.layer := by
  have hline : s.line 2 id [] = runSelected { s with
      rdata := none, ilen := 0, msgid := id, op := 2, busy := true, done := false,
      left := Config.waitEdges 2 0 } := by
    have hid : (id.setWidth 16).setWidth 8 = id := by simp
    simp only [State.line, State.lineStart, State.lineBytes, if_true]
    rw [State.lineLength_idle hb, State.lineReg_msgid (by exact hb), hid,
      State.lineReg_op (by exact hb), State.lineReg_start (by exact hb)]
    rfl
  exact ⟨_, hline, ⟨rfl, rfl, rfl, fun k => by simp, rfl, rfl, rfl, rfl, rfl, rfl⟩, rfl⟩

/-- A commit is outside all that the line wrote (R195, R196). -/
theorem State.wroteLine_of_runSelected {u t : State} {op : BitVec 2} {id : Byte}
    (h : s.wroteLine u op id bytes) (ht : runSelected u = .next t) :
    s.wroteLine t op id bytes ∧ t.layer = u.layer := by
  rcases runSelected_next ht with ⟨_, _, rfl⟩ | ⟨_, -, rfl⟩
  · exact ⟨h, rfl⟩
  · exact ⟨h, rfl⟩

theorem State.wroteLine_operandIs {u : State} {op : BitVec 2} {id : Byte}
    (h : s.wroteLine u op id bytes) (hfit : bytes.length ≤ s.cfg.bufCap) : u.operandIs bytes := by
  obtain ⟨-, -, hilen, hibuf, -⟩ := h
  exact ⟨hilen, fun k hk => by rw [hibuf, if_pos ⟨hk, by omega⟩]⟩

theorem State.wroteLine_read_of_fits {t : State} {op : BitVec 2} {id : Byte}
    (h : s.wroteLine t op id bytes) (hfit : bytes.length ≤ s.cfg.bufCap) (k : Nat) :
    t.ibuf.read k = if k < bytes.length then bytes[k]? else s.ibuf.read k := by
  obtain ⟨-, -, -, hibuf, -⟩ := h
  have hbound : (k < bytes.length ∧ k < s.cfg.bufCap) ↔ k < bytes.length := by omega
  simp only [hibuf, hbound]

theorem State.wroteLine_msgid {t : State} {op : BitVec 2} {id : Byte}
    (h : s.wroteLine t op id bytes) (hop : op ≠ 2) : t.msgid = s.msgid := by
  obtain ⟨-, hmsgid, -⟩ := h
  rw [hmsgid, if_neg hop]

variable (hcap : s.cfg.legal) (hw : s.ibuf.wf) (hb : s.busy = false)
include hcap hw hb

/-- A line whose operand fits IBUF: whatever the transaction makes of that operand. -/
theorem State.line_of_fits {op : BitVec 2} {C : State → Prop} (id : Byte)
    (hfit : bytes.length ≤ s.cfg.bufCap)
    (hcommit : ∀ u : State, u.op = op → u.operandIs bytes → u.cfg = s.cfg →
      ∃ t, runSelected u = .next t ∧ C t) :
    ∃ t : State, s.line op id bytes = .next t ∧ s.wroteLine t op id bytes ∧ t.layer = s.layer ∧
      C t := by
  obtain ⟨u, hline, hwrote, hlayer⟩ := State.line_wrote hw hb (hfit.trans hcap.2) op id
  have ho := State.wroteLine_operandIs hwrote hfit
  have hfields := hwrote
  obtain ⟨hop, -, -, -, -, hcfg, -⟩ := hfields
  obtain ⟨t, ht, hC⟩ := hcommit u hop ho hcfg
  obtain ⟨hwrote', hlayer'⟩ := State.wroteLine_of_runSelected hwrote ht
  exact ⟨t, hline.trans ht, hwrote', hlayer'.trans hlayer, hC⟩

omit hcap in
theorem State.line_overflows {op : BitVec 2} (id : Byte) (hlen : bytes.length ≤ 65535)
    (hover : overflows s.cfg.bufCap op bytes.length = true) :
    ∃ t : State, s.line op id bytes = .next t ∧ s.wroteLine t op id bytes ∧ t.layer = s.layer ∧
      t.failedWith .bufferOverflow bytes.length := by
  obtain ⟨u, hline, hwrote, hlayer⟩ := State.line_wrote hw hb hlen op id
  have hfields := hwrote
  obtain ⟨hop, -, hilen, -, -, hcfg, -⟩ := hfields
  have hrun := runSelected_overflow (s := u) (by rw [hcfg, hop, hilen]; exact hover)
  have hfailed := u.raise_failedWith (f := ⟨.bufferOverflow, u.ilen.toNat⟩)
    (hilen.trans_le hlen)
  obtain ⟨hwrote', hlayer'⟩ := State.wroteLine_of_runSelected hwrote hrun
  exact ⟨_, hline.trans hrun, hwrote', hlayer'.trans hlayer, hilen ▸ hfailed⟩

/-- A line of BP.DEC or FC.PARSE that ILEN can say: whatever the transaction makes (`C`) of an
operand that fits, BufferOverflow of one that does not. -/
theorem State.line_cases {op : BitVec 2} {C : List Byte → State → Prop}
    (hcommit : ∀ (u : State) (p : List Byte), u.op = op → u.operandIs p → p.length ≤ u.cfg.bufCap →
      ∃ t, runSelected u = .next t ∧ C p t)
    (hlen : bytes.length ≤ 65535) :
    ∃ t : State, s.line op 0 bytes = .next t ∧ s.wroteLine t op 0 bytes ∧ t.layer = s.layer ∧
      (bytes.length ≤ s.cfg.bufCap → C bytes t) ∧
      (s.cfg.bufCap < bytes.length → t.failedWith .bufferOverflow bytes.length) := by
  rcases Nat.lt_or_ge s.cfg.bufCap bytes.length with hlong | hfit
  · have hover : overflows s.cfg.bufCap op bytes.length = true := by simp [overflows, hlong]
    obtain ⟨t, hline, hwrote, hlayer, hfailed⟩ := State.line_overflows hw hb 0 hlen hover
    exact ⟨t, hline, hwrote, hlayer, fun h => absurd hlong (Nat.not_lt.mpr h), fun _ => hfailed⟩
  · obtain ⟨t, hline, hwrote, hlayer, hC⟩ := State.line_of_fits hcap hw hb 0 hfit
      fun u hop ho hcfg => hcommit u bytes hop ho (hcfg ▸ hfit)
    exact ⟨t, hline, hwrote, hlayer, fun _ => hC, fun h => absurd h (Nat.not_lt.mpr hfit)⟩

end

end Sys2Proof.Machine
end

section
/-! The message rows with the PFE idle (R88, R161, R173, R193). -/

namespace Sys2Proof.Machine

theorem State.sendMessage_of_line {s t : State} {m : Message} {id : Byte} {raw : List Byte}
    (he : encodeMsg m = .ok (id, raw)) (h : s.line 2 id raw = .next t) :
    s.sendMessage m = .next { t with layer := t.buildResult } := by
  rw [State.sendMessage, he]
  simp only [h]

theorem State.sendMessage_nil_builds {s : State} {m : Message} {id : Byte}
    (he : encodeMsg m = .ok (id, [])) (hcap : s.cfg.legal) (hb : s.busy = false) :
    ∃ t, s.sendMessage m = .next t ∧ s.builds t id [] := by
  obtain ⟨u, hline, hwrote, -⟩ := State.line_nil_wrote hb id
  have ho := State.wroteLine_operandIs hwrote (Nat.zero_le _)
  obtain ⟨hop, hmsgid, hilen, hibuf, hrdata, hsame⟩ := hwrote
  have hfit : 9 + packedLen 0 ≤ u.cfg.bufCap := by
    rw [hsame.1]; exact le_trans (by decide) hcap.1
  have hrun : runSelected u = .next (u.commitOk (frame id []) 0) := by
    have hsel : runSelected u = execFcBuild u := by rw [runSelected, hop]; rfl
    rw [hsel, execFcBuild_of_fits ho hfit, hmsgid]
    rfl
  have hlayer : (u.commitOk (frame id []) 0).buildResult = .built := rfl
  refine ⟨_, State.sendMessage_of_line he (hline.trans hrun), ?_⟩
  exact ⟨u.commitOk_succeeded 0 ((frame_length id []).trans_le (by decide)), hop, hmsgid, hilen,
    fun k => by simpa using hibuf k, hlayer, hrdata, hsame⟩

theorem State.builds_resultIs {s t : State} {id : Byte} {raw : List Byte} (h : s.builds t id raw) :
    t.resultIs (frame id raw) := by
  obtain ⟨⟨-, -, -, -, hresult⟩, -⟩ := h
  exact hresult

/-- Settles O24: the three kinds have no payload, and R10's least BUF_CAP holds a frame of
9 bytes. -/
theorem enterAckExitBuildTheirFrames : Obligations.EnterAckExitBuildTheirFrames := by
  intro s hcap hb
  have hbuilds : ∀ (m : Message) (id : Byte), encodeMsg m = .ok (id, []) →
      ∃ t, s.sendMessage m = .next t ∧ s.builds t id [] ∧ t.resultIs (frame id []) :=
    fun m id he => by
      obtain ⟨t, hrun, ht⟩ := State.sendMessage_nil_builds he hcap hb
      exact ⟨t, hrun, ht, State.builds_resultIs ht⟩
  exact ⟨hbuilds .enter 0x55 rfl, hbuilds .ackEntered 0x53 rfl, hbuilds .exit 0x00 rfl⟩

theorem State.sendMessage_overflows {s : State} {m : Message} {id : Byte} {raw : List Byte}
    (he : encodeMsg m = .ok (id, raw)) (hw : s.ibuf.wf) (hb : s.busy = false)
    (hlen : raw.length ≤ 65535) (hover : s.cfg.bufCap < 9 + packedLen raw.length) :
    ∃ t, s.sendMessage m = .next t ∧ s.buildOverflows t id raw := by
  have hover' : overflows s.cfg.bufCap 2 raw.length = true := by simp [overflows, hover]
  obtain ⟨t, hline, ⟨hop, hmsgid, hilen, hibuf, hrdata, hsame⟩, -, hfailed⟩ :=
    State.line_overflows hw hb id hlen hover'
  have hlayer : t.buildResult = .failed (.core ⟨.bufferOverflow, raw.length⟩) := by
    obtain ⟨-, hstatus, hinfo, -⟩ := hfailed
    rw [State.buildResult, hstatus, hinfo]; rfl
  exact ⟨_, State.sendMessage_of_line he hline, hfailed, hop, hmsgid, hilen, hibuf, hlayer, hrdata,
    hsame⟩

/-- Settles O25: an entry's bytes are R162's, and the frame fits or does not. -/
theorem ledBuildsOrOverflows : Obligations.LedBuildsOrOverflows := by
  intro s es hcap hw hb hes hlen raw
  have he : encodeMsg (.led es) = .ok (0x01, raw) := encodeMsg_led hes
  have hraw : raw.length = 5 * es.length := flattenLed_length es
  rw [← hraw] at hlen ⊢
  exact ⟨State.sendMessage_builds he hcap hw hb, State.sendMessage_overflows he hw hb hlen⟩

theorem ledRingBytes_eq (e : LedRingEntry) :
    ledRingBytes e = [BitVec.ofNat 8 e.enc, BitVec.ofNat 8 e.r, BitVec.ofNat 8 e.g,
      BitVec.ofNat 8 e.b, BitVec.ofNat 8 (e.ringAmount / 128), BitVec.ofNat 8 (e.ringAmount % 128),
      if e.bipolar then 1 else 0] := by
  have hhigh : e.ringAmount >>> 7 = e.ringAmount / 128 := Nat.shiftRight_eq_div_pow _ 7
  have hlow : e.ringAmount &&& 0x7F = e.ringAmount % 128 := Nat.and_two_pow_sub_one_eq_mod _ 7
  rw [ledRingBytes, hhigh, hlow]

/-- Settles O26: as O25, with the two halves of the ring amount (R166). -/
theorem ledRingBuildsOrOverflows : Obligations.LedRingBuildsOrOverflows := by
  intro s es hcap hw hb hes hlen raw
  have hflat : flattenLedRing es = raw := by
    rw [flattenLedRing, funext ledRingBytes_eq]; rfl
  have he : encodeMsg (.ledRing es) = .ok (0x04, raw) := hflat ▸ encodeMsg_ledRing hes
  have hraw : raw.length = 7 * es.length := hflat ▸ flattenLedRing_length es
  rw [← hraw] at hlen ⊢
  exact ⟨State.sendMessage_builds he hcap hw hb, State.sendMessage_overflows he hw hb hlen⟩

/-- Settles O32: the line of the row is the commit of the running transaction. -/
theorem rowsBegunWhileBusyAreLost : Obligations.RowsBegunWhileBusyAreLost := by
  intro s hb
  have hline : ∀ (op : BitVec 2) (id : Byte) (bytes : List Byte),
      s.line op id bytes = runPattern (.cmd s.op) { s with rdata := none } := fun op id bytes => by
    rw [State.line_busy hb, runSelected_eq]
  refine ⟨fun raw => hline 0 0 raw, fun id packed => hline 3 0 (wire id packed),
    fun m id raw t he ht => ?_⟩
  rw [exec_rowOfMessage]
  exact State.sendMessage_of_line he ((hline 2 id raw).trans ht)

end Sys2Proof.Machine
end

section
/-! The FRAME and GROUP rows with the PFE idle, and bytes that are no row (R72, R75, R81, R107;
logs 11, 12, 14). -/

namespace Sys2Proof.Machine

/-- Settles O29: the line FC.PARSE of the frame, whose header, category and end pass. -/
theorem frameRowIsParsed : Obligations.FrameRowIsParsed := by
  intro s id packed hcap hw hb hlen w
  have hwl : w.length = 9 + packed.length := wire_length id packed
  obtain ⟨t, hline, hwrote, hlayer, hparse, hover⟩ :=
    State.line_cases hcap hw hb @runSelected_fcParse (hwl.trans_le hlen)
  have hmsgid := State.wroteLine_msgid hwrote (by decide)
  obtain ⟨hop, -, hilen, hibuf, hrdata, hsame⟩ := hwrote
  rw [hwl] at hilen hparse hover
  refine ⟨t, hline, hop, hmsgid, hilen, hibuf, hlayer, hrdata, hsame, hover, fun hfit hlow => ?_,
    fun hfit pre post b hp hpre hhigh => ?_⟩
  · exact (hparse hfit).1 _ _ (parse_wire_of_lowBytes (highByte?_eq_none_iff.mpr hlow) id)
  · refine (hparse hfit).2 ⟨.packedByteOutOfRange, 8 + pre.length⟩ ?_
    show parse (wire id packed) = _
    rw [parse_wire, hp, highByte?_append_cons hpre hhigh]
    rfl

theorem pack_of_length_le {raw : List Byte} (h1 : 1 ≤ raw.length) (h7 : raw.length ≤ 7) :
    pack raw = packGroup raw := by
  rw [pack_of_ne_nil (List.length_pos_iff.mp h1), List.take_of_length_le h7,
    List.drop_eq_nil_of_le h7, pack_nil, List.append_nil]

/-- Settles O30: the packing of 1 to 7 bytes is one group. -/
theorem groupRowIsPacked : Obligations.GroupRowIsPacked := by
  intro s raw hcap hw hb h1 h7
  have hlen : (packGroup raw).length ≤ 8 := by rw [packGroup_length]; omega
  have hfit8 : 8 ≤ s.cfg.bufCap := le_trans (by decide) hcap.1
  have hfit : raw.length ≤ s.cfg.bufCap := by omega
  obtain ⟨t, hline, hwrote, hlayer, hsucceeded⟩ :=
    State.line_of_fits (op := 0) (C := fun t => t.succeeded (packGroup raw) 0) hcap hw hb 0 hfit
      fun u hop ho hcfg => by
        have hsel : runSelected u = execBpEnc u := by rw [runSelected, hop]; rfl
        have hpacked : packedLen raw.length ≤ u.cfg.bufCap := by
          rw [← pack_length, pack_of_length_le h1 h7, hcfg]; omega
        rw [hsel, execBpEnc_of_fits ho hpacked, pack_of_length_le h1 h7]
        exact ⟨_, rfl, u.commitOk_succeeded 0 (by omega)⟩
  have hibuf := State.wroteLine_read_of_fits hwrote hfit
  have hmsgid := State.wroteLine_msgid hwrote (by decide)
  obtain ⟨hop, -, hilen, -, hrdata, hsame⟩ := hwrote
  exact ⟨t, topBitsFrom 0 raw, hline, hsucceeded, fun i hi => topBits_getLsbD_of_length_le h7 hi,
    hop, hmsgid, hilen, hibuf, hlayer, hrdata, hsame⟩

/-- Bytes named as a group that are none are BP.DEC's (log 14). -/
theorem step_of_groupRow_error {s : State} {w : List Byte} {rest : List HostAction} {why : Reject}
    (hin : s.inbox = .groupRow w :: rest) (hdec : decodeGroup w = .error why) :
    step s = ({ s with inbox := rest } : State).line 1 0 w :=
  (step_of_inbox_cons hin).trans (runPattern_of_decode_error (p := .group w) hdec _)

/-- Bytes named as a frame that are none are FC.PARSE's (log 14). -/
theorem step_of_frameRow_error {s : State} {w : List Byte} {rest : List HostAction} {f : Failure}
    (hin : s.inbox = .frameRow w :: rest) (hp : parse w = .error f) :
    step s = ({ s with inbox := rest } : State).line 3 0 w :=
  (step_of_inbox_cons hin).trans
    (runPattern_of_decode_error (p := .frame w) (decodeFrame_of_parse_error hp) _)

theorem decodeGroup_error_of_highByte {w : List Byte} (h : ∃ b ∈ w, 0x80#8 ≤ b) :
    ∃ why, decodeGroup w = .error why := by
  rcases decodeGroup_cases w with ⟨he, -⟩ | ⟨he, -⟩ | ⟨he, -⟩ | ⟨raw, -, h7, rfl, -⟩
  · exact ⟨_, he⟩
  · exact ⟨_, he⟩
  · exact ⟨_, he⟩
  · obtain ⟨b, hb, hge⟩ := h
    exact absurd (packGroup_lt h7 b hb) (BitVec.not_lt.mpr hge)

/-- Settles O31: the line FC.PARSE or BP.DEC of the bytes, on which the operation fails. -/
theorem illegalBytesMakeTheirFailureCommit : Obligations.IllegalBytesMakeTheirFailureCommit := by
  refine ⟨fun s rest w f hin hcap hw hb hlen hp => ?_,
    fun s rest w pre post b hin hcap hw hb hlen hsplit hpre hhigh => ?_⟩
  · obtain ⟨t, hline, hwrote, hlayer, hparse, hover⟩ :=
      State.line_cases (s := { s with inbox := rest }) hcap hw hb @runSelected_fcParse hlen
    have hmsgid := State.wroteLine_msgid hwrote (by decide)
    obtain ⟨hop, -, hilen, hibuf, hrdata, hsame⟩ := hwrote
    exact ⟨t, (step_of_frameRow_error hin hp).trans hline, fun hfit => (hparse hfit).2 f hp, hover,
      hop, hmsgid, hilen, hibuf, hlayer, hrdata, hsame⟩
  · obtain ⟨why, hdec⟩ := decodeGroup_error_of_highByte (w := w) ⟨b, by simp [hsplit], hhigh⟩
    have hindex : highByte? w = some pre.length := hsplit ▸ highByte?_append_cons hpre hhigh post
    obtain ⟨t, hline, hwrote, hlayer, hunpack, hover⟩ :=
      State.line_cases (s := { s with inbox := rest }) hcap hw hb @runSelected_bpDec hlen
    have hmsgid := State.wroteLine_msgid hwrote (by decide)
    obtain ⟨hop, -, hilen, hibuf, hrdata, hsame⟩ := hwrote
    exact ⟨t, (step_of_groupRow_error hin hdec).trans hline,
      fun hfit => (hunpack hfit).2 _ hindex, hover, hop, hmsgid, hilen, hibuf, hlayer, hrdata,
      hsame⟩

/-- Settles O59: the line BP.DEC of the bytes, which has no byte to fail on. -/
theorem groupBytesOfNoRowAreUnpacked : Obligations.GroupBytesOfNoRowAreUnpacked := by
  intro s rest w hin hcap hw hb hlen hlow hno
  have hdec : ∃ why, decodeGroup w = .error why := by
    by_cases hlength : w.length < 2 ∨ 8 < w.length
    · exact ⟨_, decodeGroup_of_length hlength⟩
    · obtain ⟨h2, h8⟩ : 2 ≤ w.length ∧ w.length ≤ 8 := by omega
      have hstray : HasStrayBit w := (hno.resolve_left (by omega)).resolve_left (by omega)
      exact ⟨_, decodeGroup_of_strayBit h2 h8 hlow hstray⟩
  obtain ⟨why, hdec⟩ := hdec
  obtain ⟨t, hline, hwrote, hlayer, hunpack, hover⟩ :=
    State.line_cases (s := { s with inbox := rest }) hcap hw hb @runSelected_bpDec hlen
  have hmsgid := State.wroteLine_msgid hwrote (by decide)
  obtain ⟨hop, -, hilen, hibuf, hrdata, hsame⟩ := hwrote
  exact ⟨⟨why, hdec⟩, t, (step_of_groupRow_error hin hdec).trans hline,
    fun hfit => (hunpack hfit).1 (highByte?_eq_none_iff.mpr hlow), hover, hop, hmsgid, hilen, hibuf,
    hlayer, hrdata, hsame⟩

end Sys2Proof.Machine
end

section
/-! What the host reads of a result, and the two lines that read one: COPY and DISPATCH (R32, R87,
R88, R178, R227). -/

namespace Sys2Proof.Machine

section
variable {s : State} (hb : s.busy = false)
include hb

theorem State.readOlen_idle : s.readOlen = s.olen.toNat := by
  rw [State.readOlen, State.regValue_olen hb]

/-- With BUSY = 0 the host reads the result's bytes, whatever the free values. -/
theorem State.readResult_of_resultIs {bytes : List Byte} (h : s.resultIs bytes)
    (hfit : bytes.length ≤ s.cfg.bufCap) : s.readResult = bytes := by
  obtain ⟨holen, hobuf⟩ := h
  rw [State.readResult, State.readObuf, State.readOlen_idle hb, holen]
  refine List.ext_getElem (by simp) fun k _ hk => ?_
  rw [List.getElem_map, List.getElem_range]
  exact State.obufValue_of_read hb (by omega) ((hobuf k).trans (List.getElem?_eq_getElem hk)) _

end

/-- COPY with the PFE idle is the byte writes of the result and the write of its length. -/
theorem State.copyLine_of_resultIs {s : State} {bytes : List Byte} (hb : s.busy = false)
    (h : s.resultIs bytes) (hfit : bytes.length ≤ s.cfg.bufCap) :
    s.copyLine = (s.afterReadResult.lineBytes 0 bytes).lineReg 2 s.olen := by
  rw [State.copyLine, State.readResult_of_resultIs hb h hfit, State.readOlen_idle hb,
    BitVec.ofNat_toNat, BitVec.setWidth_eq]

/-- Settles O49: the host reads the result, and the copy is the byte writes of a line. -/
theorem copyMovesTheResult : Obligations.CopyMovesTheResult := by
  intro s rest bytes hin hb hw hresult hfit
  have hstep : step s = .next ({ s with inbox := rest } : State).copyLine := step_of_inbox_cons hin
  obtain ⟨m, hm, -, hread, -⟩ :=
    State.lineBytes_idle (s := ({ s with inbox := rest } : State).afterReadResult) hb hw 0 bytes
  rw [State.copyLine_of_resultIs (s := { s with inbox := rest }) hb hresult hfit, hm,
    State.lineReg_ilen (by exact hb)] at hstep
  refine ⟨_, hstep, hresult.1, fun k => ?_, hresult, rfl, rfl, hb, rfl, rfl, rfl, rfl, rfl, rfl,
    rfl, rfl, rfl⟩
  have hbound : (0 ≤ k ∧ k < 0 + bytes.length ∧ k < s.cfg.bufCap) ↔ k < bytes.length := by omega
  exact (hread k).trans (if_congr hbound rfl rfl)

theorem State.IsParseOf.committed {w : List Byte} {t : State} (h : t.IsParseOf w) :
    t.committed := by
  obtain ⟨hok, herror⟩ := h
  cases hp : parse w with
  | ok r => exact (hok r.1 r.2 hp).1
  | error f => exact (herror f hp).1

section
variable {t : State}

theorem State.dispatchResult_of_failedWith {kind : Status} {info : Nat}
    (h : t.failedWith kind info) (hkind : kind ≠ .ok) :
    t.dispatchResult = .failed (.core ⟨kind, info⟩) := by
  obtain ⟨-, hstatus, hinfo, -⟩ := h
  rw [State.dispatchResult, hstatus, if_neg hkind, hinfo]

variable {raw : List Byte} {id : Byte} (h : t.succeeded raw id) (hfit : raw.length ≤ t.cfg.bufCap)
include h hfit

theorem State.dispatchResult_of_decode_ok {m : Message} (hm : decodeMsg id raw = .ok m) :
    t.dispatchResult = .message m := by
  obtain ⟨⟨hb, -⟩, hstatus, -, hid, hresult⟩ := h
  rw [State.dispatchResult, if_pos hstatus, hid, State.readResult_of_resultIs hb hresult hfit, hm]

theorem State.dispatchResult_of_decode_error {e : LayerError} (he : decodeMsg id raw = .error e) :
    t.dispatchResult = .failed e := by
  obtain ⟨⟨hb, -⟩, hstatus, -, hid, hresult⟩ := h
  rw [State.dispatchResult, if_pos hstatus, hid, State.readResult_of_resultIs hb hresult hfit, he]

end

theorem State.dispatchLine_of_line {s t : State} {w : List Byte} (h : s.line 3 0 w = .next t) :
    s.dispatchLine w = .next { t.afterReadResult with
      layer := if 65535 < w.length ∧ s.busy = false then t.dispatchOverflow
        else t.dispatchResult } := by
  rw [State.dispatchLine]
  simp only [h]

/-- Settles O50: the line FC.PARSE of the buffer, and what the layer makes of its commit; of a
buffer that ILEN cannot say it makes BufferOverflow, whatever the commit (log 26). -/
theorem dispatchParsesAndDecodes : Obligations.DispatchParsesAndDecodes := by
  intro s rest w hin hcap hw hb n
  have hstep : step s = ({ s with inbox := rest } : State).dispatchLine w := step_of_inbox_cons hin
  by_cases hlen : w.length ≤ 65535
  · have hn : n = w.length := if_pos hlen
    obtain ⟨t, hline, hwrote, -, hparse, hover⟩ :=
      State.line_cases (s := { s with inbox := rest }) hcap hw hb @runSelected_fcParse hlen
    have hmsgid := State.wroteLine_msgid hwrote (by decide)
    obtain ⟨hop, -, hilen, -, -, hcfg, hcm, hev, hinbox, -⟩ := hwrote
    have hrun := hstep.trans (State.dispatchLine_of_line hline)
    rw [if_neg fun h => Nat.not_lt.mpr hlen h.1] at hrun
    rw [hn]
    refine ⟨_, hrun, ?_, hilen, fun hlong => ?_, fun hfit => ⟨fun f hf => ?_,
      fun id raw m hp hm => ?_, fun id raw e hp he => ?_⟩, hop, hmsgid, hcfg, hcm, hev, hinbox⟩
    · rcases Nat.lt_or_ge s.cfg.bufCap w.length with hlong | hfit
      · exact (hover hlong).1
      · exact (hparse hfit).committed
    · exact ⟨State.dispatchResult_of_failedWith (hover hlong) (by decide), fun _ => hover hlong⟩
    · exact State.dispatchResult_of_failedWith ((hparse hfit).2 f hf)
        (coreKind_ne_ok (parse_error_kind hf))
    · exact State.dispatchResult_of_decode_ok ((hparse hfit).1 id raw hp)
        (hcfg ▸ (parse_ok_length hp).trans hfit) hm
    · exact State.dispatchResult_of_decode_error ((hparse hfit).1 id raw hp)
        (hcfg ▸ (parse_ok_length hp).trans hfit) he
  · have hn : n = (s.longLength 3).toNat := if_neg hlen
    have hlong : 65535 < w.length := Nat.not_le.mp hlen
    obtain ⟨t, hline, hwrote, -, hcommitted, hover, -⟩ :=
      State.line_long_cases (s := { s with inbox := rest }) @runSelected_fcParse hcap hw hb hlong
    obtain ⟨hop, hmsgid, hilen, -, -, -, hcfg, hcm, hev, hinbox⟩ := hwrote
    have hrun := hstep.trans (State.dispatchLine_of_line hline)
    rw [if_pos ⟨hlong, hb⟩] at hrun
    have hnt : t.ilen.toNat = n := by rw [hn, hilen]; rfl
    refine ⟨_, hrun, hcommitted, hnt, fun _ => ⟨?_, fun hless => ?_⟩, fun hfit => ?_, hop, hmsgid,
      hcfg, hcm, hev, hinbox⟩
    · rw [← hnt]; rfl
    · rw [← hnt]; exact hover hless
    · exact absurd (hfit.trans hcap.2) hlen

end Sys2Proof.Machine
end

section
/-! The DED's answer for each class of channel message (R79, R144), and the rows that present
one. -/

namespace Sys2Proof.Machine

theorem msb_eq_false_iff_lt {d : Byte} : d.msb = false ↔ d.toNat < 128 := by
  rw [BitVec.msb_eq_false_iff_two_mul_lt]
  omega

theorem isEventMessage_iff {st d1 d2 : Byte} :
    isEventMessage st d1 d2 = true ↔ d1.toNat < 128 ∧ d2.toNat < 128 ∧
      ((st = 0xB0 ∧ 1 ≤ d1.toNat ∧ d1.toNat ≤ 16) ∨
        ((st = 0x90 ∨ st = 0x80) ∧ d1.toNat ≤ 16)) := by
  simp [isEventMessage, msb_eq_false_iff_lt, BitVec.le_def, and_assoc]

/-- A status byte on channel 0 is its type in the high bits (R78). -/
theorem status_eq_of_type {st : Byte} {type : Nat} (hchan : st &&& 0x0F = 0)
    (htype : st >>> 4 = BitVec.ofNat 8 type) (h : type < 16) : st = BitVec.ofNat 8 (16 * type) := by
  have hlow : st.toNat % 16 = 0 := by
    have := congrArg BitVec.toNat hchan
    rwa [BitVec.toNat_and, show BitVec.toNat (0x0F : Byte) = 2 ^ 4 - 1 from rfl,
      Nat.and_two_pow_sub_one_eq_mod] at this
  have hhigh : st.toNat / 16 = type := by
    have := congrArg BitVec.toNat htype
    rwa [BitVec.toNat_ushiftRight, Nat.shiftRight_eq_div_pow, BitVec.toNat_ofNat,
      Nat.mod_eq_of_lt (by omega)] at this
  rw [← BitVec.toNat_inj, BitVec.toNat_ofNat]
  omega

/-- What is no encoder and no button message is passed (R79, R143). -/
theorem dedDecode_pass {st d1 d2 : Byte} (h : isEventMessage st d1 d2 = false) :
    dedDecode st d1 d2 = .pass := by
  rw [Bool.eq_false_iff, Ne, isEventMessage_iff] at h
  have hdata : ¬(d1.msb || d2.msb) = true → d1.toNat < 128 ∧ d2.toNat < 128 := by
    simp [msb_eq_false_iff_lt]
  have hctrl : ¬(decide (d1 < 1#8) || decide (16#8 < d1)) = true →
      1 ≤ d1.toNat ∧ d1.toNat ≤ 16 := by
    simp only [BitVec.lt_def, BitVec.toNat_ofNat, Bool.or_eq_true, decide_eq_true_eq]; omega
  have hnote : ¬(16#8 < d1) → d1.toNat ≤ 16 := BitVec.not_lt.mp
  simp only [dedDecode]
  split_ifs with hst hd hchan hB hrange hturn h9 hrange h8 hrange
  any_goals rfl
  all_goals
    refine absurd ?_ h
    obtain ⟨hd1, hd2⟩ := hdata hd
    refine ⟨hd1, hd2, ?_⟩
  · exact .inl ⟨status_eq_of_type (type := 0xB) (not_not.mp hchan) hB (by decide), hctrl hrange⟩
  · exact .inl ⟨status_eq_of_type (type := 0xB) (not_not.mp hchan) hB (by decide), hctrl hrange⟩
  · exact .inr ⟨.inl (status_eq_of_type (type := 0x9) (not_not.mp hchan) h9 (by decide)),
      hnote hrange⟩
  · exact .inr ⟨.inr (status_eq_of_type (type := 0x8) (not_not.mp hchan) h8 (by decide)),
      hnote hrange⟩

/-- A controller or note number in R79's ranges passes R144's tests. -/
theorem number_in_range {d : Byte} (h16 : d.toNat ≤ 16) : d.msb = false ∧ ¬(16#8 < d) :=
  ⟨msb_eq_false_iff_lt.mpr (by omega), BitVec.not_lt.mpr h16⟩

section
variable {d1 d2 : Byte} (h16 : d1.toNat ≤ 16) (hd2 : d2.toNat < 128)
include h16 hd2

theorem dedDecode_controlChange (h1 : 1 ≤ d1.toNat) :
    dedDecode 0xB0 d1 d2 =
      if 1 ≤ d2.toNat ∧ d2.toNat ≤ 15 then .turn ((d1 - 1).setWidth 5) d2
      else .undef ((d1 - 1).setWidth 5) d2 := by
  obtain ⟨hmsb1, hrange⟩ := number_in_range h16
  have hmsb2 : d2.msb = false := msb_eq_false_iff_lt.mpr hd2
  have hpos : ¬(d1 < 1#8) := BitVec.not_lt.mpr h1
  simp [dedDecode, show (0xB0#8).msb = true from rfl, hmsb1, hmsb2, hrange, hpos, BitVec.le_def]

theorem dedDecode_noteOn : dedDecode 0x90 d1 d2 = .button (d1.setWidth 5) (d2 != 0) := by
  obtain ⟨hmsb1, hrange⟩ := number_in_range h16
  have hmsb2 : d2.msb = false := msb_eq_false_iff_lt.mpr hd2
  simp [dedDecode, show (0x90#8).msb = true from rfl, hmsb1, hmsb2, hrange]

theorem dedDecode_noteOff : dedDecode 0x80 d1 d2 = .button (d1.setWidth 5) false := by
  obtain ⟨hmsb1, hrange⟩ := number_in_range h16
  have hmsb2 : d2.msb = false := msb_eq_false_iff_lt.mpr hd2
  simp [dedDecode, show (0x80#8).msb = true from rfl, hmsb1, hmsb2, hrange]

end

/-- The four forms of the outputs (R142, R143, R146, R147). -/
theorem dedDecode_cases (st d1 d2 : Byte) :
    dedDecode st d1 d2 = .pass ∨ (∃ i, dedDecode st d1 d2 = .turn i d2) ∨
      (∃ i, dedDecode st d1 d2 = .undef i d2) ∨ ∃ i p, dedDecode st d1 d2 = .button i p := by
  cases hevent : isEventMessage st d1 d2 with
  | false => exact .inl (dedDecode_pass hevent)
  | true =>
    obtain ⟨-, hd2, ⟨rfl, h1, h16⟩ | ⟨rfl | rfl, h16⟩⟩ := isEventMessage_iff.mp hevent
    · rw [dedDecode_controlChange h16 hd2 h1]
      split_ifs
      · exact .inr (.inl ⟨_, rfl⟩)
      · exact .inr (.inr (.inl ⟨_, rfl⟩))
    · exact .inr (.inr (.inr ⟨_, _, dedDecode_noteOn h16 hd2⟩))
    · exact .inr (.inr (.inr ⟨_, _, dedDecode_noteOff h16 hd2⟩))

theorem encoderIndex_toNat {d : Byte} (h1 : 1 ≤ d.toNat) (h16 : d.toNat ≤ 16) :
    ((d - 1).setWidth 5).toNat = d.toNat - 1 := by
  rw [BitVec.toNat_setWidth, BitVec.toNat_sub_of_le (show (1 : Byte).toNat ≤ d.toNat from h1)]
  exact Nat.mod_eq_of_lt (show d.toNat - 1 < 2 ^ 5 by omega)

theorem noteIndex_toNat {w : Nat} {d : BitVec w} (h16 : d.toNat ≤ 16) :
    (d.setWidth 5).toNat = d.toNat := by
  rw [BitVec.toNat_setWidth]
  exact Nat.mod_eq_of_lt (by omega)

/-- Settles O38: each class has one form of the outputs. -/
theorem channelMessageClasses : Obligations.ChannelMessageClasses := by
  intro st d1 d2 o
  refine ⟨fun hst h1 h16 hv1 hv15 => ?_, fun hst h1 h16 hv => ?_, fun hst h16 hv1 hv => ?_,
    fun hst h16 hv => ?_, fun hst h16 hv => ?_, fun hother => ?_⟩
  · have ho : o = .turn ((d1 - 1).setWidth 5) d2 := by
      subst hst; exact (dedDecode_controlChange h16 (by omega) h1).trans (if_pos ⟨hv1, hv15⟩)
    rw [ho]
    exact ⟨rfl, encoderIndex_toNat h1 h16⟩
  · have ho : o = .undef ((d1 - 1).setWidth 5) d2 := by
      subst hst; exact (dedDecode_controlChange h16 (by omega) h1).trans (if_neg (by omega))
    rw [ho]
    exact ⟨rfl, encoderIndex_toNat h1 h16⟩
  · have ho : o = .button (d1.setWidth 5) (d2 != 0) := by
      subst hst; exact dedDecode_noteOn h16 (by omega)
    have hvel : d2 ≠ 0 := fun h => absurd (h ▸ hv1) (by decide)
    rw [ho]
    exact ⟨rfl, noteIndex_toNat h16, bne_iff_ne.mpr hvel⟩
  · have ho : o = .button (d1.setWidth 5) (d2 != 0) := by
      subst hst; exact dedDecode_noteOn h16 (by omega)
    have hvel : d2 = 0 := BitVec.eq_of_toNat_eq hv
    rw [ho, hvel]
    exact ⟨rfl, noteIndex_toNat h16, rfl⟩
  · have ho : o = .button (d1.setWidth 5) false := by
      subst hst; exact dedDecode_noteOff h16 (by omega)
    rw [ho]
    exact ⟨rfl, noteIndex_toNat h16, rfl⟩
  · have ho : o = .pass := dedDecode_pass <| Bool.eq_false_iff.mpr fun hevent => by
      obtain ⟨-, hd2, hclass⟩ := isEventMessage_iff.mp hevent
      exact hother ⟨Nat.le_of_lt_succ hd2, hclass⟩
    rw [ho]
    rfl

/-- Settles O37: PASS is presented as it is, and the DED passes it. -/
theorem otherMessagesPassThrough : Obligations.OtherMessagesPassThrough := by
  intro s st d1 d2 hother
  have hpass : isEventMessage st d1 d2 = false :=
    Bool.eq_false_iff.mpr fun hevent => hother (isEventMessage_iff.mp hevent)
  exact ⟨_, rfl, dedDecode_pass hpass, rfl, s.samePfe_present st d1 d2, rfl⟩

theorem dataByte_toNat (x : BitVec 7) : (x.setWidth 8 : Byte).toNat = x.toNat := by
  rw [BitVec.toNat_setWidth]
  exact Nat.mod_eq_of_lt (by omega)

theorem dataByte_setWidth (x : BitVec 7) : (x.setWidth 8 : Byte).setWidth 7 = x := by simp

theorem State.present_eventDeltas {s : State} {st d1 d2 : Byte} {o : EvOut}
    (h : dedDecode st d1 d2 = o) :
    (s.present st d1 d2).eventDeltas = o.deltas s.cfg.encResolve := by
  rw [State.eventDeltas, State.present_ev, dedDecode_valid, if_pos rfl, h]
  rfl

section
variable {c v : BitVec 7} (h1 : 1 ≤ c.toNat) (h16 : c.toNat ≤ 16)
include h1 h16

theorem dedDecode_encoder :
    dedDecode 0xB0 (c.setWidth 8) (v.setWidth 8) =
      if 1 ≤ v.toNat ∧ v.toNat ≤ 15 then .turn ((c.setWidth 8 - 1 : Byte).setWidth 5) (v.setWidth 8)
      else .undef ((c.setWidth 8 - 1 : Byte).setWidth 5) (v.setWidth 8) := by
  rw [← dataByte_toNat] at h1 h16
  rw [dedDecode_controlChange h16 (by rw [dataByte_toNat]; omega) h1, dataByte_toNat]

theorem encoderIndex_of_ctrl : ((c.setWidth 8 - 1 : Byte).setWidth 5).toNat = c.toNat - 1 := by
  rw [← dataByte_toNat] at h1 h16 ⊢
  exact encoderIndex_toNat h1 h16

end

/-- The clockwise reading of an encoder value (R141, R146). -/
theorem delta_toInt (v : BitVec 7) : (v.setWidth 8 : Byte).toInt = v.toNat := by
  rw [BitVec.toInt_eq_toNat_of_lt, dataByte_toNat]
  rw [dataByte_toNat]
  omega

/-- The counter-clockwise reading of an encoder value (R141, R146). -/
theorem deltaAlt_toInt {v : BitVec 7} (h15 : v.toNat ≤ 15) :
    (v.setWidth 8 - 16 : Byte).toInt = v.toNat - 16 := by
  have hnat : (v.setWidth 8 - 16 : Byte).toNat = 240 + v.toNat := by
    rw [BitVec.toNat_sub, dataByte_toNat]
    exact Nat.mod_eq_of_lt (show 240 + v.toNat < 2 ^ 8 by omega)
  rw [BitVec.toInt_eq_toNat_cond, hnat]
  omega

/-- Settles O34: of the four forms of the outputs only ENC_TURN's is flagged, and both readings are
the value's. -/
theorem encoderTurnDrivesBothReadings : Obligations.EncoderTurnDrivesBothReadings := by
  refine ⟨fun st d1 d2 => ?_, fun s c v h1 h16 hv1 hv15 => ?_⟩
  · rcases dedDecode_cases st d1 d2 with h | ⟨i, h⟩ | ⟨i, h⟩ | ⟨i, p, h⟩
    · rw [h]; decide
    · rw [h]; exact ⟨fun _ => rfl, fun _ => rfl⟩
    · rw [h]; simp [EvOut.undef]
    · rw [h]; simp [EvOut.button]
  · have hev := (dedDecode_encoder (v := v) h1 h16).trans (if_pos ⟨hv1, hv15⟩)
    refine ⟨s.present 0xB0 (c.setWidth 8) (v.setWidth 8), rfl, ?_⟩
    rw [State.present_eventDeltas hev, State.present_ev, hev]
    refine ⟨rfl, rfl, encoderIndex_of_ctrl h1 h16, rfl, delta_toInt v, deltaAlt_toInt hv15, rfl,
      dataByte_setWidth v, ?_, ?_, ?_, rfl, s.samePfe_present _ _ _, rfl⟩
    all_goals
      intro hresolve
      rw [hresolve]
      rfl

/-- Settles O35: these values have the form of the outputs without a delta. -/
theorem encoderUndefinedValueHasNoDelta : Obligations.EncoderUndefinedValueHasNoDelta := by
  intro s c v h1 h16 hv
  have hev := (dedDecode_encoder (v := v) h1 h16).trans (if_neg (by omega))
  refine ⟨s.present 0xB0 (c.setWidth 8) (v.setWidth 8), rfl, ?_⟩
  rw [State.present_eventDeltas hev, State.present_ev, hev]
  exact ⟨rfl, rfl, encoderIndex_of_ctrl h1 h16, rfl, rfl, rfl, rfl, dataByte_setWidth v, rfl, rfl,
    s.samePfe_present _ _ _, rfl⟩

/-- The row of a button message: its event, and what it leaves. -/
theorem State.present_button (s : State) {st d2 : Byte} {n : BitVec 7} {pressed : Bool}
    (h16 : n.toNat ≤ 16)
    (hev : dedDecode st (n.setWidth 8) d2 = .button ((n.setWidth 8 : Byte).setWidth 5) pressed) :
    (s.present st (n.setWidth 8) d2).ev = ⟨true, .button, n.setWidth 5, pressed, 0, 0, false, 0⟩ ∧
      (s.present st (n.setWidth 8) d2).ev.index.toNat = n.toNat ∧
      (s.present st (n.setWidth 8) d2).cm = ⟨true, st, n.setWidth 8, d2⟩ ∧
      s.samePfe (s.present st (n.setWidth 8) d2) ∧
      (s.present st (n.setWidth 8) d2).draws = s.draws := by
  have hindex : (n.setWidth 8 : Byte).setWidth 5 = n.setWidth 5 :=
    BitVec.setWidth_setWidth_of_le _ (by decide)
  rw [State.present_ev, hev, hindex]
  exact ⟨rfl, noteIndex_toNat h16, rfl, s.samePfe_present _ _ _, rfl⟩

/-- Settles O36: Note On and Note Off of a note in range are buttons. -/
theorem buttonRowsReportPressAndRelease : Obligations.ButtonRowsReportPressAndRelease := by
  intro s n v h16
  have hn : (n.setWidth 8 : Byte).toNat ≤ 16 := (dataByte_toNat n).trans_le h16
  have hdata : (v.setWidth 8 : Byte).toNat < 128 := (dataByte_toNat v).trans_lt v.isLt
  refine ⟨fun hv => ⟨_, rfl, s.present_button h16 ?_⟩,
    ⟨_, rfl, s.present_button h16 (dedDecode_noteOn hn (by decide))⟩,
    ⟨_, rfl, s.present_button h16 (dedDecode_noteOff hn hdata)⟩⟩
  have hvel : ((v.setWidth 8 : Byte) != 0) = true := bne_iff_ne.mpr fun h => by
    rw [← dataByte_toNat, h] at hv
    exact absurd hv (by decide)
  rw [dedDecode_noteOn hn hdata, hvel]

end Sys2Proof.Machine
end

section
/-! The bit-packer on whole sequences (R101 to R106, R111): lengths, splitting at a group boundary,
and which byte sequences are packed ones. -/

namespace Sys2Proof.Machine

/-! Lengths (R102, R106). -/

theorem packedLen_eq_add_ceil (n : Nat) : packedLen n = n + ⌈(n : ℚ) / 7⌉₊ := by
  have hceil : ⌈(n : ℚ) / 7⌉₊ = (n + 6) / 7 := by
    refine eq_of_forall_ge_iff fun m => ?_
    have hmul : (n : ℚ) ≤ m * 7 ↔ n ≤ m * 7 := by norm_cast
    rw [Nat.ceil_le, div_le_iff₀ (by norm_num), hmul]
    omega
  rw [hceil, packedLen]

theorem packedLen_strictMono : StrictMono packedLen := by
  intro m n h
  simp only [packedLen]
  omega

theorem packedLen_mod_eight_ne_one (n : Nat) : packedLen n % 8 ≠ 1 := by
  simp only [packedLen]
  omega

/-- Settles O1: one more byte for each group begun. -/
theorem packedLengthFormula : Obligations.PackedLengthFormula :=
  ⟨pack_length, fun n => ⟨packedLen_eq_add_ceil n, rfl⟩, rfl, rfl, rfl, rfl, rfl, rfl,
    packedLen_strictMono, packedLen_mod_eight_ne_one⟩

/-- One byte less for each group begun. -/
theorem rawLen_eq (m : Nat) : rawLen m = m - (m + 7) / 8 := by
  rw [rawLen]
  split_ifs <;> omega

theorem rawLen_packedLen (n : Nat) : rawLen (packedLen n) = n := by
  rw [rawLen_eq, packedLen]
  omega

/-- Induction over a byte sequence by packed groups, each a top-bits byte and up to 7 data bytes
(R104). -/
theorem packedGroup_induction {motive : List Byte → Prop} (nil : motive [])
    (group : ∀ top ds, motive (ds.drop 7) → motive (top :: ds)) (p : List Byte) : motive p := by
  induction h : p.length using Nat.strong_induction_on generalizing p with
  | _ n ih =>
    cases p with
    | nil => exact nil
    | cons top ds =>
      rw [List.length_cons] at h
      exact group top ds (ih (ds.drop 7).length (by rw [List.length_drop]; omega) _ rfl)

theorem unpack_length (p : List Byte) : (unpack p).length = rawLen p.length := by
  induction p using packedGroup_induction with
  | nil => rfl
  | group top ds ih =>
    rw [unpack_cons, List.length_append, restoreFrom_length, ih]
    simp only [rawLen_eq, List.length_take, List.length_drop, List.length_cons]
    omega

/-- Settles O5: a group gives its data bytes, whatever they are. -/
theorem unpackedLengthFormula : Obligations.UnpackedLengthFormula :=
  ⟨unpack_length, fun _ => rfl, rfl, rfl, rfl, rfl, rfl, rfl, rfl, rfl, rawLen_packedLen⟩

/-! The round trip (R103). -/

theorem pack_unpack_eq_self_iff {p : List Byte} : pack (unpack p) = p ↔ ∃ x, p = pack x := by
  constructor
  · exact fun h => ⟨unpack p, h.symm⟩
  · rintro ⟨x, rfl⟩
    rw [unpack_pack]

/-- Settles O2: `unpack` is `pack`'s left inverse, and a lone top-bits byte shows it is no more. -/
theorem unpackInvertsPack : Obligations.UnpackInvertsPack :=
  ⟨fun x => ⟨unpack_pack x, highByte?_pack x⟩, fun _ _ => pack_unpack_eq_self_iff,
    [0x05], rfl, by decide⟩

/-! Splitting a sequence at a group boundary (R101 (e), R104). -/

theorem pack_append {a : List Byte} (h : a.length % 7 = 0) (b : List Byte) :
    pack (a ++ b) = pack a ++ pack b := by
  induction a using groupwise_induction with
  | nil => rfl
  | group a hne ih =>
    have hpos := List.length_pos_iff.mpr hne
    have hfull : 7 ≤ a.length := by omega
    have hrest : (a.drop 7).length % 7 = 0 := by rw [List.length_drop]; omega
    rw [pack_of_ne_nil (List.append_ne_nil_of_left_ne_nil hne b), pack_of_ne_nil hne,
      List.take_append_of_le_length hfull, List.drop_append_of_le_length hfull, ih hrest,
      List.append_assoc]

theorem unpack_append {q : List Byte} (h : q.length % 8 = 0) (r : List Byte) :
    unpack (q ++ r) = unpack q ++ unpack r := by
  induction q using packedGroup_induction with
  | nil => rfl
  | group top ds ih =>
    rw [List.length_cons] at h
    have hfull : 7 ≤ ds.length := by omega
    have hrest : (ds.drop 7).length % 8 = 0 := by rw [List.length_drop]; omega
    rw [List.cons_append, unpack_cons, unpack_cons, List.take_append_of_le_length hfull,
      List.drop_append_of_le_length hfull, ih hrest, List.append_assoc]

theorem pack_unpack_append {q : List Byte} (h : q.length % 8 = 0) (r : List Byte) :
    pack (unpack (q ++ r)) = pack (unpack q) ++ pack (unpack r) := by
  rw [unpack_append h, pack_append]
  rw [unpack_length, rawLen_eq]
  omega

/-! The final group (R105). -/

theorem unpack_of_length_le {ds : List Byte} (h : ds.length ≤ 7) (top : Byte) :
    unpack (top :: ds) = restoreFrom top 0 ds := by
  rw [unpack_cons, List.take_of_length_le h, List.drop_eq_nil_of_le h, unpack_nil,
    List.append_nil]

theorem restoreByte_congr {t t' : Byte} {k : Nat} (h : t.getLsbD k = t'.getLsbD k) (d : Byte) :
    restoreByte t k d = restoreByte t' k d := by
  apply BitVec.eq_of_getLsbD_eq
  intro i hi
  rw [restoreByte_getLsbD _ _ _ hi, restoreByte_getLsbD _ _ _ hi, h]

/-- Restoring reads one top-bits bit for each data byte and no other. -/
theorem restoreFrom_congr {t t' : Byte} {i : Nat} {ds : List Byte}
    (h : ∀ j, j < ds.length → t.getLsbD (i + j) = t'.getLsbD (i + j)) :
    restoreFrom t i ds = restoreFrom t' i ds := by
  induction ds generalizing i with
  | nil => rfl
  | cons d ds ih =>
    have hbit : t.getLsbD i = t'.getLsbD i := h 0 (Nat.succ_pos _)
    have hrest : ∀ j, j < ds.length → t.getLsbD (i + 1 + j) = t'.getLsbD (i + 1 + j) :=
      fun j hj => by
        rw [Nat.add_assoc, Nat.add_comm 1]
        exact h (j + 1) (Nat.succ_lt_succ hj)
    rw [restoreFrom_cons, restoreFrom_cons, restoreByte_congr hbit, ih hrest]

/-- Settles O6: what follows whole groups is unpacked by itself, and there a top-bits bit is read
only for a data byte that stands there. -/
theorem unpackAcceptsLoneAndStrayBits : Obligations.UnpackAcceptsLoneAndStrayBits := by
  refine ⟨fun q t hq => ?_, rfl, fun x => ?_, fun q ds t t' hq hds hbits => ?_, rfl⟩
  · have hlone : unpack [t] = [] := rfl
    rw [unpack_append hq, hlone, List.append_nil]
  · rw [pack_length]
    exact packedLen_mod_eight_ne_one x.length
  · have hgroup : restoreFrom t 0 ds = restoreFrom t' 0 ds :=
      restoreFrom_congr fun j hj => by rw [Nat.zero_add, hbits j hj]
    rw [unpack_append hq, unpack_append hq, unpack_of_length_le hds.le,
      unpack_of_length_le hds.le, hgroup]

/-! Sequences of 7-bit bytes and of 0xFF (R101). -/

theorem mask_of_lt {b : Byte} (h : b < 0x80#8) : b &&& 0x7F#8 = b := by
  apply BitVec.eq_of_getLsbD_eq
  intro i hi
  rw [mask_getLsbD]
  rcases eq_or_ne i 7 with rfl | hne
  · rw [lt_0x80_iff_bit7.mp h, Bool.and_false]
  · rw [decide_eq_true (by omega : i < 7), Bool.true_and]

/-- A top-bits byte of a packed sequence, given by its bits (R72). -/
theorem pack_getElem?_topBits {raw : List Byte} {g : Nat} (hg : 7 * g < raw.length) {top : Byte}
    (h : ∀ i, i < 8 → top.getLsbD i = (decide (i < 7) && (raw.getD (7 * g + i) 0).getLsbD 7)) :
    (pack raw)[8 * g]? = some top := by
  obtain ⟨-, htop⟩ := packedBytesByIndex raw
  obtain ⟨top', hget, hbits⟩ := htop g hg
  rw [hget, BitVec.eq_of_getLsbD_eq fun i hi => (hbits i hi).trans (h i hi).symm]

theorem getD_bit7_of_lowBytes {raw : List Byte} (h : ∀ b ∈ raw, b < 0x80#8) (k : Nat) :
    (raw.getD k 0).getLsbD 7 = false := by
  rcases Nat.lt_or_ge k raw.length with hk | hk
  · rw [List.getD_eq_getElem _ _ hk]
    exact lt_0x80_iff_bit7.mp (h _ (List.getElem_mem hk))
  · rw [List.getD_eq_default _ _ hk]
    rfl

theorem getD_replicate_ff_bit7 (n k : Nat) :
    ((List.replicate n (0xFF : Byte)).getD k 0).getLsbD 7 = decide (k < n) := by
  rcases Nat.lt_or_ge k n with hk | hk
  · rw [List.getD_replicate _ hk, decide_eq_true hk]
    rfl
  · rw [List.getD_eq_default _ _ (by rwa [List.length_replicate]),
      decide_eq_false (Nat.not_lt.mpr hk)]
    rfl

theorem pack_topBits_of_lowBytes {raw : List Byte} (h : ∀ b ∈ raw, b < 0x80#8) {g : Nat}
    (hg : 7 * g < raw.length) : (pack raw)[8 * g]? = some 0 :=
  pack_getElem?_topBits hg fun i _ => by
    rw [getD_bit7_of_lowBytes h, Bool.and_false]
    exact BitVec.getLsbD_zero

theorem pack_data_of_lowBytes {raw : List Byte} (h : ∀ b ∈ raw, b < 0x80#8) {j : Nat}
    (hj : j < raw.length) : (pack raw)[8 * (j / 7) + 1 + j % 7]? = raw[j]? := by
  obtain ⟨hdata, -⟩ := packedBytesByIndex raw
  rw [hdata j hj, List.getD_eq_getElem _ _ hj, List.getElem?_eq_getElem hj]
  exact congrArg some (mask_of_lt (h _ (List.getElem_mem hj)))

theorem pack_data_of_replicate_ff {n j : Nat} (hj : j < n) :
    (pack (List.replicate n 0xFF))[8 * (j / 7) + 1 + j % 7]? = some 0x7F := by
  obtain ⟨hdata, -⟩ := packedBytesByIndex (List.replicate n 0xFF)
  rw [hdata j (by rwa [List.length_replicate]), List.getD_replicate _ hj]
  rfl

theorem pack_topBits_of_replicate_ff {n g : Nat} (hg : 7 * g < n) :
    (pack (List.replicate n 0xFF))[8 * g]? = some (BitVec.ofNat 8 (2 ^ min 7 (n - 7 * g) - 1)) := by
  refine pack_getElem?_topBits (by rwa [List.length_replicate]) fun i hi => ?_
  rw [getD_replicate_ff_bit7, BitVec.getLsbD_ofNat, Nat.testBit_two_pow_sub_one,
    decide_eq_true hi, Bool.true_and, ← Bool.decide_and, decide_eq_decide]
  omega

/-- Settles O4: the bytes by their indices, and the split after whole groups. -/
theorem packByteLaws : Obligations.PackByteLaws :=
  ⟨pack_lt, pack_nil,
    fun _ h => ⟨fun _ => pack_topBits_of_lowBytes h, fun _ => pack_data_of_lowBytes h⟩,
    fun _ _ => pack_data_of_replicate_ff, fun _ _ => pack_topBits_of_replicate_ff,
    fun _ b h => pack_append h b, [0], [0], by decide, by decide⟩

/-! Canonical packed sequences (R111). -/

/-- R111's description of the packed sequences, byte by byte. -/
def IsCanonical (p : List Byte) : Prop :=
  (∀ b ∈ p, b < 0x80#8) ∧ p.length % 8 ≠ 1 ∧
    (p.length % 8 ≠ 0 → ∀ i, p.length % 8 - 1 ≤ i → i < 8 →
      (p.getD (8 * (p.length / 8)) 0).getLsbD i = false)

theorem pack_isCanonical (x : List Byte) : IsCanonical (pack x) := by
  refine ⟨pack_lt x, ?_, fun hshort i hi hi8 => ?_⟩
  · rw [pack_length]
    exact packedLen_mod_eight_ne_one x.length
  · rw [pack_length, packedLen] at hshort hi ⊢
    have hlast : 7 * ((x.length + (x.length + 6) / 7) / 8) < x.length := by omega
    obtain ⟨-, htop⟩ := packedBytesByIndex x
    obtain ⟨top, hget, hbits⟩ := htop _ hlast
    rw [List.getD_eq_getElem?_getD, hget, Option.getD_some, hbits i hi8,
      List.getD_eq_default _ _ (by omega)]
    exact Bool.and_false _

/-- One group, full or not, without a stray top-bits bit. -/
theorem pack_unpack_group {top : Byte} {ds : List Byte} (hne : ds ≠ []) (h7 : ds.length ≤ 7)
    (hlow : ∀ b ∈ top :: ds, b < 0x80#8)
    (hstray : ∀ i, ds.length ≤ i → i < 7 → top.getLsbD i = false) :
    pack (unpack (top :: ds)) = top :: ds := by
  obtain ⟨htop, hds⟩ := List.forall_mem_cons.mp hlow
  have hpos := List.length_pos_iff.mpr hne
  rw [unpack_of_length_le h7, pack_of_length_le (by rwa [restoreFrom_length])
    (by rwa [restoreFrom_length]), (packGroup_restoreFrom_iff htop hds).mpr hstray]

/-- Full groups have no bit to be stray. -/
theorem pack_unpack_of_fullGroups {q : List Byte} (hlow : ∀ b ∈ q, b < 0x80#8)
    (hfull : q.length % 8 = 0) : pack (unpack q) = q := by
  induction q using packedGroup_induction with
  | nil => rfl
  | group top ds ih =>
    rw [List.length_cons] at hfull
    have hsplit : top :: ds = (top :: ds.take 7) ++ ds.drop 7 := by
      rw [List.cons_append, List.take_append_drop]
    have htake : (ds.take 7).length = 7 := by rw [List.length_take]; omega
    have hne : ds.take 7 ≠ [] := List.ne_nil_of_length_pos (by omega)
    rw [hsplit] at hlow ⊢
    obtain ⟨hhead, hrest⟩ := List.forall_mem_append.mp hlow
    rw [pack_unpack_append (by rw [List.length_cons, htake]),
      pack_unpack_group hne htake.le hhead (by omega),
      ih hrest (by rw [List.length_drop]; omega)]

theorem pack_unpack_of_isCanonical {p : List Byte} (h : IsCanonical p) : pack (unpack p) = p := by
  obtain ⟨hlow, hlone, hstray⟩ := h
  have hsplit := List.take_append_drop (8 * (p.length / 8)) p
  have hlast := List.length_drop (i := 8 * (p.length / 8)) (l := p)
  have hfull : (p.take (8 * (p.length / 8))).length % 8 = 0 := by rw [List.length_take]; omega
  rw [← hsplit] at hlow
  obtain ⟨hlowFull, hlowLast⟩ := List.forall_mem_append.mp hlow
  have hfinal : pack (unpack (p.drop (8 * (p.length / 8)))) = p.drop (8 * (p.length / 8)) := by
    cases hp : p.drop (8 * (p.length / 8)) with
    | nil => rfl
    | cons top ds =>
      rw [hp, List.length_cons] at hlast
      have htop : p.getD (8 * (p.length / 8)) 0 = top := by
        rw [List.getD_eq_getElem?_getD, ← List.head?_drop, hp]
        rfl
      rw [htop] at hstray
      exact pack_unpack_group (List.ne_nil_of_length_pos (by omega)) (by omega) (hp ▸ hlowLast)
        fun i hi hi7 => hstray (by omega) i (by omega) (by omega)
  rw [← hsplit, pack_unpack_append hfull, pack_unpack_of_fullGroups hlowFull hfull, hfinal]

theorem exists_eq_pack_iff_isCanonical {p : List Byte} : (∃ x, p = pack x) ↔ IsCanonical p := by
  constructor
  · rintro ⟨x, rfl⟩
    exact pack_isCanonical x
  · exact fun h => ⟨unpack p, (pack_unpack_of_isCanonical h).symm⟩

/-- Settles O7: a canonical sequence is whole groups and at most one shorter group without a stray
bit, each the packing of what it unpacks to. -/
theorem canonicalPackedSequences : Obligations.CanonicalPackedSequences := by
  refine ⟨fun _ => exists_eq_pack_iff_isCanonical, fun x y hxy => ?_,
    fun _ _ => pack_unpack_eq_self_iff, rfl, rfl⟩
  rw [unpack_pack, unpack_pack] at hxy
  rw [hxy]

end Sys2Proof.Machine
end

section
/-! BP.ENC and BP.DEC on an operand that fits, and the packed byte at or above 0x80 (R107 to R109,
R195, R196). -/

namespace Sys2Proof.Machine

theorem State.commitOk_sameButResult (s : State) (bytes : List Byte) (id : Byte) :
    s.sameButResult (s.commitOk bytes id) :=
  ⟨rfl, rfl, rfl, rfl, fun _ => rfl, rfl, rfl, rfl, rfl, rfl, rfl⟩

theorem State.raise_sameButResult (s : State) (f : Failure) : s.sameButResult (s.raise f) :=
  ⟨rfl, rfl, rfl, rfl, fun _ => rfl, rfl, rfl, rfl, rfl, rfl, rfl⟩

/-- Settles O13: the result fits OBUF, so the packing is committed. -/
theorem bpEncPacksItsOperand : Obligations.BpEncPacksItsOperand := by
  intro s raw hcap ho hfit
  have hlen : (pack raw).length ≤ 65535 := (pack_length raw).trans_le (hfit.trans hcap.2)
  exact ⟨_, execBpEnc_of_fits ho hfit, s.commitOk_succeeded 0 hlen, s.commitOk_sameButResult _ _⟩

/-- Settles O14: no byte fails the test of R107, and the result is no longer than the operand. -/
theorem bpDecUnpacksItsOperand : Obligations.BpDecUnpacksItsOperand := by
  intro s p hcap ho hfit hlow
  have hlen : (unpack p).length ≤ 65535 := (unpack_length_le p).trans (hfit.trans hcap.2)
  exact ⟨_, execBpDec_of_lowBytes ho hfit (highByte?_eq_none_iff.mpr hlow),
    s.commitOk_succeeded 0 hlen, s.commitOk_sameButResult _ _⟩

/-- A packed payload with a high byte fails a frame at that byte's offset in the frame (R107). -/
theorem parse_wire_of_highByte {pre : List Byte} {b : Byte} (hpre : ∀ x ∈ pre, x < 0x80#8)
    (hb : 0x80#8 ≤ b) (post : List Byte) (id : Byte) :
    parse (wire id (pre ++ b :: post)) = .error ⟨.packedByteOutOfRange, 8 + pre.length⟩ := by
  rw [parse_wire, highByte?_append_cons hpre hb]
  rfl

/-- Settles O18: the lowest high byte is the one after bytes below 0x80, and FC.PARSE comes to it
with header, terminator and category passed. -/
theorem highPackedByteFails : Obligations.HighPackedByteFails := by
  refine ⟨fun s pre post b hcap ho hfit hpre hb => ?_,
    fun s id pre post b hcap ho hfit hpre hb => ?_⟩
  · have hlen : (pre ++ b :: post).length ≤ s.cfg.bufCap := by
      rw [List.length_append, List.length_cons]; omega
    have hinfo : pre.length ≤ 65535 := by have := hcap.2; omega
    exact ⟨_, execBpDec_of_highByte ho hlen (highByte?_append_cons hpre hb post),
      s.raise_failedWith hinfo, s.raise_sameButResult _⟩
  · have hlen : (wire id (pre ++ b :: post)).length ≤ s.cfg.bufCap := by
      rw [wire_length, List.length_append, List.length_cons]; omega
    have hinfo : 8 + pre.length ≤ 65535 := by have := hcap.2; omega
    exact ⟨_, execFcParse_of_parse_error ho hlen (parse_wire_of_highByte hpre hb post id),
      s.raise_failedWith hinfo, s.raise_sameButResult _⟩

end Sys2Proof.Machine
end

section
/-! FC.BUILD and FC.PARSE, and the frames they speak of: the length of a frame (R123), its way back
through FC.PARSE (R129), and the failures of header and category in their order (R126, R127). -/

namespace Sys2Proof.Machine

/-! Frames as values (R120, R123, R129). -/

/-- Settles O9: header, category, id and terminator are nine bytes around the packed payload. -/
theorem frameLength : Obligations.FrameLength :=
  ⟨frame_length, rfl, rfl, rfl, rfl, rfl, rfl⟩

theorem parse_frame (id : Byte) (raw : List Byte) : parse (frame id raw) = .ok (id, raw) := by
  rw [frame, parse_wire_of_lowBytes (highByte?_pack raw), unpack_pack]

/-- Settles O8: `pack` makes no high byte, so the parse succeeds, and `unpack` takes it back. -/
theorem parseInvertsFrame : Obligations.ParseInvertsFrame :=
  ⟨parse_frame, fun id => ⟨frame_length id [], parse_frame id []⟩⟩

/-! The two operations on an operand that passes their tests. -/

/-- Settles O15: the frame fits OBUF, so it is committed. -/
theorem fcBuildFramesItsOperand : Obligations.FcBuildFramesItsOperand := by
  intro s raw hcap ho hfit
  have hlen : (frame s.msgid raw).length ≤ 65535 :=
    (frame_length s.msgid raw).trans_le (hfit.trans hcap.2)
  exact ⟨_, execFcBuild_of_fits ho hfit, s.commitOk_succeeded 0 hlen, s.commitOk_sameButResult _ _⟩

/-- Settles O16: the operand is a frame around bytes that pass the test of R107, and the result is
no longer than the payload. -/
theorem fcParseTakesTheFrameApart : Obligations.FcParseTakesTheFrameApart := by
  intro s id packed hcap ho hfit hlow
  have hparse : parse (wire id packed) = .ok (id, unpack packed) :=
    parse_wire_of_lowBytes (highByte?_eq_none_iff.mpr hlow) id
  have hlen : (unpack packed).length ≤ 65535 := by
    have := unpack_length_le packed
    have := hcap.2
    omega
  exact ⟨_, execFcParse_of_parse_ok ho ((wire_length id packed).trans_le hfit) hparse,
    s.commitOk_succeeded id hlen, s.commitOk_sameButResult _ _⟩

/-! The header's and the category's tests (R126, R127). -/

/-- The lowest offset at which the two sequences differ, inside the constant. -/
theorem mismatchFrom_eq_some {i k : Nat} {cs w : List Byte} (hk : k < cs.length)
    (hbefore : ∀ j, j < k → w[j]? = cs[j]?) (hdiff : w[k]? ≠ cs[k]?) :
    mismatchFrom i cs w = some (i + k) := by
  induction k generalizing i cs w with
  | zero =>
    match cs, w with
    | c :: cs, [] => rfl
    | c :: cs, x :: xs =>
      have hx : x ≠ c := fun h => hdiff (congrArg some h)
      rw [mismatchFrom, if_neg hx]
      rfl
  | succ k ih =>
    match cs, w with
    | c :: cs, [] => cases hbefore 0 k.succ_pos
    | c :: cs, x :: xs =>
      have hx : x = c := Option.some.inj (hbefore 0 k.succ_pos)
      have hrest : ∀ j, j < k → xs[j]? = cs[j]? := fun j hj =>
        hbefore (j + 1) (Nat.succ_lt_succ hj)
      rw [mismatchFrom, if_pos hx, ih (Nat.lt_of_succ_lt_succ hk) hrest hdiff, Nat.add_right_comm,
        Nat.add_assoc]

theorem getLast?_hdr (c i z : Byte) (p : List Byte) :
    (hdr ++ c :: i :: (p ++ [z])).getLast? = some z :=
  List.getLast?_concat (l := hdr ++ c :: i :: p)

theorem parse_of_mismatch {w : List Byte} {k : Nat} (hlen : 9 ≤ w.length)
    (h : mismatchFrom 0 hdr w = some k) : parse w = .error ⟨.headerMismatch, k⟩ := by
  rw [parse, if_neg (Nat.not_lt.mpr hlen), h]

section
variable {w : List Byte} (hlen : 9 ≤ w.length) (hhdr : ∀ j, j < 6 → w[j]? = hdr[j]?)
include hlen hhdr

/-- A buffer long enough whose first six bytes are the header's, taken apart. -/
theorem exists_hdr_of_getElem? : ∃ c i z p, w = hdr ++ c :: i :: (p ++ [z]) := by
  have hprefix : hdr <+: w := List.prefix_iff_getElem?.mpr fun j hj =>
    (hhdr j hj).trans (List.getElem?_eq_getElem hj)
  obtain ⟨rest, rfl⟩ := hprefix
  exact exists_hdr_of_mismatchFrom hlen (mismatchFrom_append 0 hdr rest)

/-- The terminator is tested before the category. -/
theorem parse_of_last_ne (h : w[w.length - 1]? ≠ some term) :
    parse w = .error ⟨.headerMismatch, w.length - 1⟩ := by
  obtain ⟨c, i, z, p, rfl⟩ := exists_hdr_of_getElem? hlen hhdr
  rw [← List.getLast?_eq_getElem?, getLast?_hdr] at h
  have hz : z ≠ term := fun hz => h (congrArg some hz)
  have hlast : (hdr ++ c :: i :: (p ++ [z])).length - 1 = 8 + p.length := by simp [hdr]; omega
  rw [parse_hdr, if_pos hz, hlast]

/-- The category is tested before the payload's bytes. -/
theorem parse_of_category_ne (hlast : w[w.length - 1]? = some term) (h : w[6]? ≠ some cat) :
    parse w = .error ⟨.categoryMismatch, 6⟩ := by
  obtain ⟨c, i, z, p, rfl⟩ := exists_hdr_of_getElem? hlen hhdr
  rw [← List.getLast?_eq_getElem?, getLast?_hdr] at hlast
  have hz : z = term := Option.some.inj hlast
  have hc : c ≠ cat := fun hc => h (congrArg some hc)
  rw [parse_hdr, if_neg (not_not_intro hz), if_pos hc]

end

/-- Fewer than 9 bytes, whether or not they were ever written (log 20). -/
theorem execFcParse_of_short {s : State} (hcap : s.cfg.legal) (hshort : s.ilen.toNat < 9) :
    execFcParse s = .next (s.raise ⟨.headerMismatch, s.ilen.toNat⟩) := by
  have hmin := hcap.1
  rw [execFcParse, if_neg (by omega), if_pos hshort]

/-- FC.PARSE's failure commit, where the parse of an operand that fits fails. -/
theorem execFcParse_fails {s : State} {w : List Byte} {f : Failure} (ho : s.operandIs w)
    (hfit : w.length ≤ s.cfg.bufCap) (h : parse w = .error f) :
    ∃ t, execFcParse s = .next t ∧ t.failedWith f.kind f.info ∧ s.sameButResult t :=
  ⟨_, execFcParse_of_parse_error ho hfit h,
    s.raise_failedWith ((parse_error_info_le h).trans (State.operandIs_length_le ho)),
    s.raise_sameButResult f⟩

/-- Settles O17: each test fails the parse where those before it pass. -/
theorem fcParseHeaderAndCategoryFailures : Obligations.FcParseHeaderAndCategoryFailures := by
  refine ⟨fun s hcap hshort => ?_, fun s w _ ho hfit hlen =>
    ⟨fun k hk hbefore hdiff => ?_, fun hhdr hlast => ?_, fun hhdr hlast hcat => ?_⟩⟩
  · exact ⟨_, execFcParse_of_short hcap hshort, s.raise_failedWith (Nat.le_of_lt_succ s.ilen.isLt),
      s.raise_sameButResult _⟩
  · have hmismatch : mismatchFrom 0 hdr w = some k :=
      Nat.zero_add k ▸ mismatchFrom_eq_some (i := 0) hk hbefore hdiff
    exact execFcParse_fails ho hfit (parse_of_mismatch hlen hmismatch)
  · exact execFcParse_fails ho hfit (parse_of_last_ne hlen hhdr hlast)
  · exact execFcParse_fails ho hfit (parse_of_category_ne hlen hhdr hlast hcat)

end Sys2Proof.Machine
end

section
/-! The decoder over a classified input (R145): R144's tests read on a status byte's two nibbles and
on 7-bit data. -/

namespace Sys2Proof.Machine

/-- The channel is the status byte's low nibble (R78). -/
theorem channel_eq_zero_iff (st : Byte) : st &&& 0x0F#8 = 0#8 ↔ st.setWidth 4 = 0#4 := by
  rw [← BitVec.toNat_inj, ← BitVec.toNat_inj, BitVec.toNat_and, BitVec.toNat_setWidth,
    show BitVec.toNat 0x0F#8 = 2 ^ 4 - 1 from rfl, Nat.and_two_pow_sub_one_eq_mod]
  rfl

theorem dataByte_msb (x : BitVec 7) : (x.setWidth 8 : Byte).msb = false :=
  msb_eq_false_iff_lt.mpr ((dataByte_toNat x).trans_lt x.isLt)

theorem dataByte_bne_zero (x : BitVec 7) : ((x.setWidth 8 : Byte) != 0#8) = (x != 0#7) := by
  rw [Bool.eq_iff_iff, bne_iff_ne, bne_iff_ne, Ne, Ne, ← BitVec.toNat_inj, ← BitVec.toNat_inj,
    dataByte_toNat]
  rfl

theorem encoderIndex_dataByte (x : BitVec 7) :
    (x.setWidth 8 - 1#8 : Byte).setWidth 5 = (x - 1#7).setWidth 5 := by
  rw [← BitVec.toNat_inj]
  simp only [BitVec.toNat_setWidth, BitVec.toNat_sub, BitVec.toNat_ofNat]
  omega

/-- Settles O40: the first two tests pass, and the others ask the same of the bytes as of the
classified input, type by type. -/
theorem classifiedDecoderAgrees : Obligations.ClassifiedDecoderAgrees := by
  intro st d1 d2 hst
  simp only [dedDecode, dedClassified, hst, dataByte_msb, ne_eq, channel_eq_zero_iff,
    BitVec.ofNat_eq_ofNat, BitVec.lt_def, BitVec.le_def, dataByte_toNat, BitVec.toNat_ofNat,
    encoderIndex_dataByte, dataByte_bne_zero,
    BitVec.setWidth_setWidth_of_le d1 (show 5 ≤ 8 by decide)]
  by_cases hctrl : st >>> 4 = 0xB#8
  · simp [hctrl, ChType.ofStatus]
  by_cases hon : st >>> 4 = 0x9#8
  · simp [hon, ChType.ofStatus]
  by_cases hoff : st >>> 4 = 0x8#8
  · simp [hoff, ChType.ofStatus]
  · simp [hctrl, hon, hoff, ChType.ofStatus]

end Sys2Proof.Machine
end

section
/-! The decoder's laws (R148): which inputs give each kind of event, the ranges of its outputs, and
how many inputs each kind has. -/

namespace Sys2Proof.Machine

/-- The bytes from `a` to `b`. -/
def byteRange (a b : Nat) : Finset Byte :=
  Finset.univ.filter fun d => a ≤ d.toNat ∧ d.toNat ≤ b

@[simp] theorem mem_byteRange {a b : Nat} {d : Byte} :
    d ∈ byteRange a b ↔ a ≤ d.toNat ∧ d.toNat ≤ b := by simp [byteRange]

theorem card_byteRange {a b : Nat} (hb : b < 256) : (byteRange a b).card = b + 1 - a := by
  rw [← Nat.card_Icc]
  refine Finset.card_nbij BitVec.toNat (fun d hd => ?_) BitVec.toNat_injective.injOn fun n hn => ?_
  · simpa using hd
  · rw [Finset.coe_Icc] at hn
    have hmod : (BitVec.ofNat 8 n).toNat = n := Nat.mod_eq_of_lt (hn.2.trans_lt hb)
    exact ⟨BitVec.ofNat 8 n, by simpa [hmod] using hn, hmod⟩

/-- A channel message: status byte and two data bytes (R78). -/
abbrev ChBytes := Byte × Byte × Byte

/-- ENC.TURN's inputs (R79). -/
def turnInputs : Finset ChBytes := {0xB0} ×ˢ byteRange 1 16 ×ˢ byteRange 1 15

/-- ENC.UNDEF's inputs (R79): value 0 and the values from 16. -/
def undefInputs : Finset ChBytes := {0xB0} ×ˢ byteRange 1 16 ×ˢ (byteRange 0 127 \ byteRange 1 15)

/-- The inputs of the three button rows (R79). -/
def buttonInputs : Finset ChBytes := {0x90, 0x80} ×ˢ byteRange 0 16 ×ˢ byteRange 0 127

/-- BTN.PRESS's inputs (R79). -/
def pressInputs : Finset ChBytes := {0x90} ×ˢ byteRange 0 16 ×ˢ byteRange 1 127

theorem card_turnInputs : turnInputs.card = 240 := by
  simp [turnInputs, card_byteRange]

theorem card_undefInputs : undefInputs.card = 1808 := by
  have hsub : byteRange 1 15 ⊆ byteRange 0 127 := fun d hd => by
    rw [mem_byteRange] at hd ⊢; omega
  simp [undefInputs, card_byteRange, Finset.card_sdiff_of_subset hsub]

theorem card_buttonInputs : buttonInputs.card = 4352 := by
  simp [buttonInputs, card_byteRange]

theorem card_pressInputs : pressInputs.card = 2159 := by
  simp [pressInputs, card_byteRange]

theorem card_chBytes : Fintype.card ChBytes = 2 ^ 24 := by
  have hbyte : Fintype.card Byte = 256 := FinEnum.card_eq_fintypeCard.symm
  simp [hbyte]

@[simp] theorem EvOut.pass_kind : EvOut.pass.kind = .pass := rfl
@[simp] theorem EvOut.turn_kind (i : BitVec 5) (v : Byte) : (EvOut.turn i v).kind = .encTurn := rfl
@[simp] theorem EvOut.undef_kind (i : BitVec 5) (v : Byte) :
    (EvOut.undef i v).kind = .encUndef := rfl
@[simp] theorem EvOut.button_kind (i : BitVec 5) (p : Bool) :
    (EvOut.button i p).kind = .button := rfl

@[simp] theorem EvOut.pass_pressed : EvOut.pass.pressed = false := rfl
@[simp] theorem EvOut.turn_pressed (i : BitVec 5) (v : Byte) :
    (EvOut.turn i v).pressed = false := rfl
@[simp] theorem EvOut.undef_pressed (i : BitVec 5) (v : Byte) :
    (EvOut.undef i v).pressed = false := rfl
@[simp] theorem EvOut.button_pressed (i : BitVec 5) (p : Bool) :
    (EvOut.button i p).pressed = p := rfl

section
variable {st d1 d2 : Byte}

theorem mem_turnInputs : (st, d1, d2) ∈ turnInputs ↔
    st = 0xB0 ∧ (1 ≤ d1.toNat ∧ d1.toNat ≤ 16) ∧ 1 ≤ d2.toNat ∧ d2.toNat ≤ 15 := by
  simp only [turnInputs, Finset.mem_product, Finset.mem_singleton, mem_byteRange]

theorem mem_undefInputs : (st, d1, d2) ∈ undefInputs ↔
    st = 0xB0 ∧ (1 ≤ d1.toNat ∧ d1.toNat ≤ 16) ∧
      d2.toNat < 128 ∧ ¬(1 ≤ d2.toNat ∧ d2.toNat ≤ 15) := by
  simp only [undefInputs, Finset.mem_product, Finset.mem_singleton, Finset.mem_sdiff,
    mem_byteRange, Nat.zero_le, true_and, Nat.lt_succ_iff]

theorem mem_buttonInputs : (st, d1, d2) ∈ buttonInputs ↔
    (st = 0x90 ∨ st = 0x80) ∧ d1.toNat ≤ 16 ∧ d2.toNat < 128 := by
  simp [buttonInputs, Nat.lt_succ_iff]

theorem mem_pressInputs : (st, d1, d2) ∈ pressInputs ↔
    st = 0x90 ∧ d1.toNat ≤ 16 ∧ 1 ≤ d2.toNat ∧ d2.toNat < 128 := by
  simp only [pressInputs, Finset.mem_product, Finset.mem_singleton, mem_byteRange, Nat.zero_le,
    true_and, Nat.lt_succ_iff]

theorem dedDecode_of_mem_turnInputs (h : (st, d1, d2) ∈ turnInputs) :
    dedDecode st d1 d2 = .turn ((d1 - 1).setWidth 5) d2 := by
  obtain ⟨rfl, ⟨h1, h16⟩, hv⟩ := mem_turnInputs.mp h
  rw [dedDecode_controlChange h16 (by omega) h1, if_pos hv]

theorem dedDecode_of_mem_undefInputs (h : (st, d1, d2) ∈ undefInputs) :
    dedDecode st d1 d2 = .undef ((d1 - 1).setWidth 5) d2 := by
  obtain ⟨rfl, ⟨h1, h16⟩, hd2, hv⟩ := mem_undefInputs.mp h
  rw [dedDecode_controlChange h16 hd2 h1, if_neg hv]

theorem dedDecode_of_mem_buttonInputs (h : (st, d1, d2) ∈ buttonInputs) :
    dedDecode st d1 d2 = .button (d1.setWidth 5) (st == 0x90 && d2 != 0) := by
  obtain ⟨rfl | rfl, h16, hd2⟩ := mem_buttonInputs.mp h
  · exact dedDecode_noteOn h16 hd2
  · exact dedDecode_noteOff h16 hd2

end

/-- Every input is in one of R79's classes or passed (R143). -/
theorem dedDecode_classes (st d1 d2 : Byte) :
    (st, d1, d2) ∈ turnInputs ∨ (st, d1, d2) ∈ undefInputs ∨ (st, d1, d2) ∈ buttonInputs ∨
      dedDecode st d1 d2 = .pass := by
  cases hevent : isEventMessage st d1 d2 with
  | false => exact .inr (.inr (.inr (dedDecode_pass hevent)))
  | true =>
    obtain ⟨-, hd2, ⟨hst, h⟩ | ⟨hst, h16⟩⟩ := isEventMessage_iff.mp hevent
    · by_cases hv : 1 ≤ d2.toNat ∧ d2.toNat ≤ 15
      · exact .inl (mem_turnInputs.mpr ⟨hst, h, hv⟩)
      · exact .inr (.inl (mem_undefInputs.mpr ⟨hst, h, hd2, hv⟩))
    · exact .inr (.inr (.inl (mem_buttonInputs.mpr ⟨hst, h16, hd2⟩)))

section
variable {st d1 d2 : Byte}

theorem dedDecode_kind_eq_encTurn_iff :
    (dedDecode st d1 d2).kind = .encTurn ↔ (st, d1, d2) ∈ turnInputs := by
  refine ⟨fun hkind => ?_, fun h => by rw [dedDecode_of_mem_turnInputs h, EvOut.turn_kind]⟩
  rcases dedDecode_classes st d1 d2 with h | h | h | h
  · exact h
  · simp [dedDecode_of_mem_undefInputs h] at hkind
  · simp [dedDecode_of_mem_buttonInputs h] at hkind
  · simp [h] at hkind

theorem dedDecode_kind_eq_encUndef_iff :
    (dedDecode st d1 d2).kind = .encUndef ↔ (st, d1, d2) ∈ undefInputs := by
  refine ⟨fun hkind => ?_, fun h => by rw [dedDecode_of_mem_undefInputs h, EvOut.undef_kind]⟩
  rcases dedDecode_classes st d1 d2 with h | h | h | h
  · simp [dedDecode_of_mem_turnInputs h] at hkind
  · exact h
  · simp [dedDecode_of_mem_buttonInputs h] at hkind
  · simp [h] at hkind

theorem dedDecode_kind_eq_button_iff :
    (dedDecode st d1 d2).kind = .button ↔ (st, d1, d2) ∈ buttonInputs := by
  refine ⟨fun hkind => ?_, fun h => by rw [dedDecode_of_mem_buttonInputs h, EvOut.button_kind]⟩
  rcases dedDecode_classes st d1 d2 with h | h | h | h
  · simp [dedDecode_of_mem_turnInputs h] at hkind
  · simp [dedDecode_of_mem_undefInputs h] at hkind
  · exact h
  · simp [h] at hkind

/-- A press is a button message that is a Note On with a velocity (R142). -/
theorem mem_pressInputs_iff_mem_buttonInputs :
    (st, d1, d2) ∈ pressInputs ↔ (st, d1, d2) ∈ buttonInputs ∧ (st == 0x90 && d2 != 0) = true := by
  have hvel : d2 ≠ 0 ↔ 1 ≤ d2.toNat := by
    rw [Ne, ← BitVec.toNat_inj]; exact Nat.one_le_iff_ne_zero.symm
  rw [mem_pressInputs, mem_buttonInputs, Bool.and_eq_true, beq_iff_eq, bne_iff_ne, hvel]
  tauto

theorem dedDecode_pressed_iff :
    (dedDecode st d1 d2).pressed = true ↔ (st, d1, d2) ∈ pressInputs := by
  rw [mem_pressInputs_iff_mem_buttonInputs, ← dedDecode_kind_eq_button_iff]
  rcases dedDecode_classes st d1 d2 with h | h | h | h
  · simp [dedDecode_of_mem_turnInputs h]
  · simp [dedDecode_of_mem_undefInputs h]
  · simp [dedDecode_of_mem_buttonInputs h]
  · simp [h]

end

/-! The inputs of a kind, counted. -/

theorem card_filter_eq_of_iff {p : ChBytes → Prop} [DecidablePred p] {inputs : Finset ChBytes}
    (h : ∀ st d1 d2, p (st, d1, d2) ↔ (st, d1, d2) ∈ inputs) :
    (Finset.univ.filter p).card = inputs.card := by
  refine congrArg Finset.card (Finset.ext fun ⟨st, d1, d2⟩ => ?_)
  rw [Finset.mem_filter_univ, h]

/-- What a classification by kind leaves over is passed. -/
theorem card_pass_eq {α : Type} [Fintype α] (f : α → EvKind) :
    (Finset.univ.filter fun x => f x = .pass).card =
      Fintype.card α - ((Finset.univ.filter fun x => f x = .encTurn).card +
        (Finset.univ.filter fun x => f x = .encUndef).card +
        (Finset.univ.filter fun x => f x = .button).card) := by
  have hkinds := Finset.card_eq_sum_card_fiberwise (s := Finset.univ) (f := f)
    (t := {.pass, .encTurn, .encUndef, .button}) fun x _ => by cases f x <;> decide
  rw [Finset.sum_insert (by decide), Finset.sum_insert (by decide),
    Finset.sum_insert (by decide), Finset.sum_singleton, Finset.card_univ] at hkinds
  omega

/-- The kind of an input's event. -/
def dedKind (x : ChBytes) : EvKind := (dedDecode x.1 x.2.1 x.2.2).kind

theorem card_dedKind_encTurn : (Finset.univ.filter fun x => dedKind x = .encTurn).card = 240 :=
  (card_filter_eq_of_iff fun _ _ _ => dedDecode_kind_eq_encTurn_iff).trans card_turnInputs

theorem card_dedKind_encUndef : (Finset.univ.filter fun x => dedKind x = .encUndef).card = 1808 :=
  (card_filter_eq_of_iff fun _ _ _ => dedDecode_kind_eq_encUndef_iff).trans card_undefInputs

theorem card_dedKind_button : (Finset.univ.filter fun x => dedKind x = .button).card = 4352 :=
  (card_filter_eq_of_iff fun _ _ _ => dedDecode_kind_eq_button_iff).trans card_buttonInputs

theorem card_dedKind_pass : (Finset.univ.filter fun x => dedKind x = .pass).card = 16770816 := by
  rw [card_pass_eq, card_dedKind_encTurn, card_dedKind_encUndef, card_dedKind_button, card_chBytes]
  norm_num

/-! The ranges of the outputs. -/

/-- The two readings of an encoder value (R141). -/
theorem delta_sub_deltaAlt {v : Byte} (h15 : v.toNat ≤ 15) : v.toInt - (v - 16).toInt = 16 := by
  obtain ⟨x, rfl⟩ : ∃ x : BitVec 7, v = x.setWidth 8 :=
    ⟨v.setWidth 7, (setWidth_of_msb_false (msb_eq_false_iff_lt.mpr (by omega))).symm⟩
  rw [delta_toInt, deltaAlt_toInt ((dataByte_toNat x).symm.trans_le h15)]
  omega

theorem dedDecode_ranges (st d1 d2 : Byte) :
    ((dedDecode st d1 d2).kind = .encTurn ∨ (dedDecode st d1 d2).kind = .encUndef →
      (dedDecode st d1 d2).index.toNat ≤ 15) ∧
    ((dedDecode st d1 d2).kind = .button → (dedDecode st d1 d2).index.toNat ≤ 16) ∧
    ((dedDecode st d1 d2).kind = .encTurn →
      (dedDecode st d1 d2).delta.toInt - (dedDecode st d1 d2).deltaAlt.toInt = 16) := by
  refine ⟨?_, fun hkind => ?_, fun hkind => ?_⟩
  · have hindex (h1 : 1 ≤ d1.toNat) (h16 : d1.toNat ≤ 16) :
        ((d1 - 1).setWidth 5).toNat ≤ 15 := by
      rw [encoderIndex_toNat h1 h16]; omega
    rintro (hkind | hkind)
    · have h := dedDecode_kind_eq_encTurn_iff.mp hkind
      obtain ⟨-, ⟨h1, h16⟩, -⟩ := mem_turnInputs.mp h
      rw [dedDecode_of_mem_turnInputs h]
      exact hindex h1 h16
    · have h := dedDecode_kind_eq_encUndef_iff.mp hkind
      obtain ⟨-, ⟨h1, h16⟩, -⟩ := mem_undefInputs.mp h
      rw [dedDecode_of_mem_undefInputs h]
      exact hindex h1 h16
  · have h := dedDecode_kind_eq_button_iff.mp hkind
    obtain ⟨-, h16, -⟩ := mem_buttonInputs.mp h
    rw [dedDecode_of_mem_buttonInputs h]
    exact (noteIndex_toNat h16).trans_le h16
  · have h := dedDecode_kind_eq_encTurn_iff.mp hkind
    obtain ⟨-, -, -, h15⟩ := mem_turnInputs.mp h
    rw [dedDecode_of_mem_turnInputs h]
    exact delta_sub_deltaAlt h15

/-- Settles O39: the outputs are set from the three bytes alone, and the inputs of each kind are
those of its class. -/
theorem decoderLaws : Obligations.DecoderLaws :=
  ⟨fun s s' st d1 d2 => (s.present_ev st d1 d2).trans (s'.present_ev st d1 d2).symm,
    dedDecode_ranges, card_dedKind_encTurn, card_dedKind_encUndef,
    card_dedKind_button,
    (card_filter_eq_of_iff fun _ _ _ => dedDecode_pressed_iff).trans card_pressInputs,
    card_dedKind_pass⟩

end Sys2Proof.Machine
end

section
/-! The layer's failures, and its round trip through a frame (R161, R167 to R179): the first bad
field of the first bad entry on both sides, the decode's order of tests, and the rows that produce
nothing. -/

namespace Sys2Proof.Machine

/-! The first field and the first entry out of range (R168, R169, R171). -/

theorem firstAbove_cons_eq_some_iff {f field : Field} {v bound : Nat}
    {rest : List (Field × Nat × Nat)} :
    firstAbove ((field, v, bound) :: rest) = some f ↔
      (bound < v ∧ f = field) ∨ (v ≤ bound ∧ firstAbove rest = some f) := by
  rcases Nat.lt_or_ge bound v with h | h
  · simp [firstAbove, h, Nat.not_le.mpr h, eq_comm]
  · simp [firstAbove_cons_of_le h, h, Nat.not_lt.mpr h]

theorem firstAbove_nil_ne_some (f : Field) : ¬ firstAbove [] = some f := nofun

/-- R168's order of a LedEntry's fields. -/
theorem ledEntryFault_eq_some_iff {e : LedEntry} {f : Field} :
    ledEntryFault e = some f ↔
      (15 < e.enc ∧ f = .enc) ∨ (e.enc ≤ 15 ∧ 15 < e.led ∧ f = .led) ∨
        (e.enc ≤ 15 ∧ e.led ≤ 15 ∧ 127 < e.r ∧ f = .r) ∨
        (e.enc ≤ 15 ∧ e.led ≤ 15 ∧ e.r ≤ 127 ∧ 127 < e.g ∧ f = .g) ∨
        (e.enc ≤ 15 ∧ e.led ≤ 15 ∧ e.r ≤ 127 ∧ e.g ≤ 127 ∧ 127 < e.b ∧ f = .b) := by
  simp only [ledEntryFault, firstAbove_cons_eq_some_iff, firstAbove_nil_ne_some, and_or_left,
    and_false, or_false]

/-- R169's order of a LedRingEntry's fields. -/
theorem ledRingEntryFault_eq_some_iff {e : LedRingEntry} {f : Field} :
    ledRingEntryFault e = some f ↔
      (15 < e.enc ∧ f = .enc) ∨ (e.enc ≤ 15 ∧ 127 < e.r ∧ f = .r) ∨
        (e.enc ≤ 15 ∧ e.r ≤ 127 ∧ 127 < e.g ∧ f = .g) ∨
        (e.enc ≤ 15 ∧ e.r ≤ 127 ∧ e.g ≤ 127 ∧ 127 < e.b ∧ f = .b) ∨
        (e.enc ≤ 15 ∧ e.r ≤ 127 ∧ e.g ≤ 127 ∧ e.b ≤ 127 ∧ 16383 < e.ringAmount ∧
          f = .ringAmount) := by
  simp only [ledRingEntryFault, firstAbove_cons_eq_some_iff, firstAbove_nil_ne_some, and_or_left,
    and_false, or_false]

theorem firstFault_append_cons {α : Type} {check : α → Option Field} {pre : List α} {e : α}
    {f : Field} (hpre : ∀ x ∈ pre, check x = none) (he : check e = some f) (k : Nat)
    (post : List α) : firstFault check k (pre ++ e :: post) = some (k + pre.length, f) := by
  induction pre generalizing k with
  | nil => rw [List.nil_append, firstFault, he]; rfl
  | cons x pre ih =>
    obtain ⟨hx, hrest⟩ := List.forall_mem_cons.mp hpre
    rw [List.cons_append, firstFault, hx, List.length_cons, Nat.add_comm pre.length,
      ← Nat.add_assoc]
    exact ih hrest (k + 1)

/-! Encode and DISPATCH (R179). -/

theorem exists_encodeMsg_of_messageInRange {m : Message} (h : messageInRange m) :
    ∃ id raw, encodeMsg m = .ok (id, raw) := by
  cases m with
  | enter => exact ⟨_, _, rfl⟩
  | ackEntered => exact ⟨_, _, rfl⟩
  | exit => exact ⟨_, _, rfl⟩
  | led es => exact ⟨_, _, encodeMsg_led h⟩
  | ledRing es => exact ⟨_, _, encodeMsg_ledRing h⟩
  | oledFramebuffer fb => exact ⟨_, _, if_pos h⟩
  | oledLabels title labels => exact ⟨_, _, if_pos (labelsShape_iff.mpr h)⟩

theorem dispatch_frame (id : Byte) (raw : List Byte) :
    dispatch (frame id raw) = decodeMsg id raw := by
  rw [dispatch, parse_frame]

/-- Settles O10: the parse gives back the id and the payload, and the schema decode inverts the
encode. -/
theorem dispatchInvertsEncode : Obligations.DispatchInvertsEncode := by
  intro m hm
  obtain ⟨id, raw, henc⟩ := exists_encodeMsg_of_messageInRange hm
  exact ⟨id, raw, henc, (dispatch_frame id raw).trans (decodeMsg_of_encodeMsg henc)⟩

/-! The schema decode's failures (R174 to R177). -/

theorem decodeMsg_unknown (id : Byte) (raw : List Byte) (h55 : id ≠ 0x55) (h53 : id ≠ 0x53)
    (h00 : id ≠ 0x00) (h01 : id ≠ 0x01) (h04 : id ≠ 0x04) (h02 : id ≠ 0x02) (h03 : id ≠ 0x03) :
    decodeMsg id raw = .error (.unknownMessage id) := by
  rw [decodeMsg, if_neg h55, if_neg h53, if_neg h00, if_neg h01, if_neg h04, if_neg h02, if_neg h03]

theorem decodeMsg_wrong_length (id : Byte) (raw : List Byte)
    (h : ((id = 0x55 ∨ id = 0x53 ∨ id = 0x00) ∧ raw.length ≠ 0) ∨
      (id = 0x01 ∧ raw.length % 5 ≠ 0) ∨ (id = 0x04 ∧ raw.length % 7 ≠ 0) ∨
      (id = 0x02 ∧ raw.length ≠ 1024) ∨ (id = 0x03 ∧ raw.length ≠ 80)) :
    decodeMsg id raw = .error (.invalidPayloadLength raw.length) := by
  obtain ⟨rfl | rfl | rfl, hlen⟩ | ⟨rfl, hlen⟩ | ⟨rfl, hlen⟩ | ⟨rfl, hlen⟩ | ⟨rfl, hlen⟩ := h
  all_goals exact if_pos hlen

theorem decodeMsg_led_error {raw : List Byte} {err : LayerError} (hlen : raw.length % 5 = 0)
    (h : decodeLeds 0 raw = .error err) : decodeMsg 0x01 raw = .error err := by
  simp [decodeMsg, hlen, h]

theorem decodeMsg_ledRing_error {raw : List Byte} {err : LayerError} (hlen : raw.length % 7 = 0)
    (h : decodeLedRings 0 raw = .error err) : decodeMsg 0x04 raw = .error err := by
  simp [decodeMsg, hlen, h]

theorem decodeLedEntry_error {k : Nat} {enc led r g b : Byte} {f : Field}
    (h : ledEntryFault ⟨enc.toNat, led.toNat, r.toNat, g.toNat, b.toNat⟩ = some f) :
    decodeLedEntry k enc led r g b = .error (.valueOutOfRange k f) := by
  rw [decodeLedEntry, h]

/-- R176's order of the seven bytes of an entry. -/
theorem decodeLedRingEntry_error {k : Nat} {enc r g b msb lsb bip : Byte} {f : Field}
    (h : (15 < enc.toNat ∧ f = .enc) ∨ (enc.toNat ≤ 15 ∧ 127 < r.toNat ∧ f = .r) ∨
      (enc.toNat ≤ 15 ∧ r.toNat ≤ 127 ∧ 127 < g.toNat ∧ f = .g) ∨
      (enc.toNat ≤ 15 ∧ r.toNat ≤ 127 ∧ g.toNat ≤ 127 ∧ 127 < b.toNat ∧ f = .b) ∨
      (enc.toNat ≤ 15 ∧ r.toNat ≤ 127 ∧ g.toNat ≤ 127 ∧ b.toNat ≤ 127 ∧ 127 < msb.toNat ∧
        f = .msb) ∨
      (enc.toNat ≤ 15 ∧ r.toNat ≤ 127 ∧ g.toNat ≤ 127 ∧ b.toNat ≤ 127 ∧ msb.toNat ≤ 127 ∧
        127 < lsb.toNat ∧ f = .lsb) ∨
      (enc.toNat ≤ 15 ∧ r.toNat ≤ 127 ∧ g.toNat ≤ 127 ∧ b.toNat ≤ 127 ∧ msb.toNat ≤ 127 ∧
        lsb.toNat ≤ 127 ∧ 1 < bip.toNat ∧ f = .bipolar)) :
    decodeLedRingEntry k enc r g b msb lsb bip = .error (.valueOutOfRange k f) := by
  have hfirst : firstAbove [(.enc, enc.toNat, 15), (.r, r.toNat, 127), (.g, g.toNat, 127),
      (.b, b.toNat, 127), (.msb, msb.toNat, 127), (.lsb, lsb.toNat, 127),
      (.bipolar, bip.toNat, 1)] = some f := by
    simpa only [firstAbove_cons_eq_some_iff, firstAbove_nil_ne_some, and_or_left, and_false,
      or_false] using h
  rw [decodeLedRingEntry, hfirst]

/-- A decoder that hands on an error met after one entry in range hands on an error met after any
number of them (R174, R177). -/
theorem error_of_entries_in_range {α : Type} {inRange : α → Prop} {bytes : α → List Byte}
    {dec : Nat → List Byte → Except LayerError (List α)} {err : LayerError}
    (hone : ∀ k x rest, inRange x → dec (k + 1) rest = .error err →
      dec k (bytes x ++ rest) = .error err)
    {pre : List α} (hpre : ∀ x ∈ pre, inRange x) {k : Nat} {rest : List Byte}
    (h : dec (k + pre.length) rest = .error err) :
    dec k ((pre.map bytes).flatten ++ rest) = .error err := by
  induction pre generalizing k with
  | nil => exact h
  | cons x pre ih =>
    obtain ⟨hx, hall⟩ := List.forall_mem_cons.mp hpre
    rw [List.length_cons, Nat.add_comm pre.length, ← Nat.add_assoc] at h
    rw [List.map_cons, List.flatten_cons, List.append_assoc]
    exact hone k x _ hx (ih hall h)

theorem decodeLeds_error {pre : List LedEntry} (hpre : ∀ x ∈ pre, ledEntryInRange x)
    {enc led r g b : Byte} {err : LayerError}
    (h : decodeLedEntry pre.length enc led r g b = .error err) (rest : List Byte) :
    decodeLeds 0 (flattenLed pre ++ enc :: led :: r :: g :: b :: rest) = .error err := by
  refine error_of_entries_in_range (fun k x rest hx hrest => ?_) hpre ?_
  · simp only [ledBytes, List.cons_append, List.nil_append, decodeLeds,
      decodeLedEntry_eq_ok_iff.mpr ⟨hx, rfl⟩, hrest]
  · rw [Nat.zero_add, decodeLeds, h]

theorem decodeLedRings_error {pre : List LedRingEntry} (hpre : ∀ x ∈ pre, ledRingEntryInRange x)
    {enc r g b msb lsb bip : Byte} {err : LayerError}
    (h : decodeLedRingEntry pre.length enc r g b msb lsb bip = .error err) (rest : List Byte) :
    decodeLedRings 0 (flattenLedRing pre ++ enc :: r :: g :: b :: msb :: lsb :: bip :: rest)
      = .error err := by
  refine error_of_entries_in_range (fun k x rest hx hrest => ?_) hpre ?_
  · simp only [ledRingBytes, List.cons_append, List.nil_append, decodeLedRings,
      decodeLedRingEntry_eq_ok_iff.mpr ⟨hx, rfl⟩, hrest]
  · rw [Nat.zero_add, decodeLedRings, h]

/-- Settles O11: the entries before the bad one decode, and the bad one's first field out of range
is the error of the payload. -/
theorem schemaDecodeErrors : Obligations.SchemaDecodeErrors := by
  refine ⟨decodeMsg_unknown, decodeMsg_wrong_length, ?led, ?ledRing⟩
  case led =>
    intro pre post enc led r g b f hpre hfault
    have hlen : (flattenLed pre ++ [enc, led, r, g, b] ++ flattenLed post).length % 5 = 0 := by
      simp only [List.length_append, flattenLed_length, List.length_cons, List.length_nil]
      omega
    refine decodeMsg_led_error hlen ?_
    rw [List.append_assoc]
    exact decodeLeds_error hpre (decodeLedEntry_error (ledEntryFault_eq_some_iff.mpr hfault)) _
  case ledRing =>
    intro pre post enc r g b msb lsb bip f hpre hfault
    have hlen : (flattenLedRing pre ++ [enc, r, g, b, msb, lsb, bip]
        ++ flattenLedRing post).length % 7 = 0 := by
      simp only [List.length_append, flattenLedRing_length, List.length_cons, List.length_nil]
      omega
    refine decodeMsg_ledRing_error hlen ?_
    rw [List.append_assoc]
    exact decodeLedRings_error hpre (decodeLedRingEntry_error hfault) _

/-! A record that fails validation (R161, R168 to R171). -/

theorem State.sendMessage_of_encode_error {m : Message} {err : LayerError}
    (h : encodeMsg m = .error err) (s : State) :
    s.sendMessage m = .next { s with layer := .failed err } := by
  rw [State.sendMessage, h]

theorem encodeMsg_led_error {pre : List LedEntry} (hpre : ∀ x ∈ pre, ledEntryInRange x)
    {e : LedEntry} {f : Field} (he : ledEntryFault e = some f) (post : List LedEntry) :
    encodeMsg (.led (pre ++ e :: post)) = .error (.valueOutOfRange pre.length f) := by
  rw [encodeMsg, firstFault_append_cons (fun x hx => ledEntryFault_eq_none (hpre x hx)) he,
    Nat.zero_add]

theorem encodeMsg_ledRing_error {pre : List LedRingEntry} (hpre : ∀ x ∈ pre, ledRingEntryInRange x)
    {e : LedRingEntry} {f : Field} (he : ledRingEntryFault e = some f) (post : List LedRingEntry) :
    encodeMsg (.ledRing (pre ++ e :: post)) = .error (.valueOutOfRange pre.length f) := by
  rw [encodeMsg, firstFault_append_cons (fun x hx => ledRingEntryFault_eq_none (hpre x hx)) he,
    Nat.zero_add]

/-- Settles O28: the encode names the error before any access to the PFE is made, so the message
row changes the layer's answer alone. -/
theorem invalidRecordsProduceNothing : Obligations.InvalidRecordsProduceNothing := by
  refine ⟨?led, ?ledRing, ?oledFb, ?oledLabels⟩
  case led =>
    intro s pre post e f hpre hfault
    exact s.sendMessage_of_encode_error
      (encodeMsg_led_error hpre (ledEntryFault_eq_some_iff.mpr hfault) post)
  case ledRing =>
    intro s pre post e f hpre hfault
    exact s.sendMessage_of_encode_error
      (encodeMsg_ledRing_error hpre (ledRingEntryFault_eq_some_iff.mpr hfault) post)
  case oledFb =>
    intro s fb hlen
    exact s.sendMessage_of_encode_error (m := .oledFramebuffer fb) (if_neg hlen)
  case oledLabels =>
    intro s title labels hshape
    exact s.sendMessage_of_encode_error (m := .oledLabels title labels)
      (if_neg (mt labelsShape_iff.mp hshape))

end Sys2Proof.Machine
end

section
/-! How a transaction ends (R190 to R196, R200): what the two commits write, BufferOverflow before
any byte is read, and which commits each operation can make. -/

namespace Sys2Proof.Machine

/-- Settles O12: the lengths and infos are those that OLEN's and ERRINFO's 16 bits can say. -/
theorem commitsWriteTheResultAlone : Obligations.CommitsWriteTheResultAlone :=
  ⟨fun s _ id hlen => ⟨s.commitOk_succeeded id hlen, s.commitOk_sameButResult _ id⟩,
    fun s f hinfo => ⟨s.raise_failedWith hinfo, s.raise_sameButResult f⟩⟩

/-! The first test (R193). -/

section
variable {s : State}

/-- An operand that does not fit is a case of this: its packing is no shorter. -/
theorem execBpEnc_of_overflow (h : s.cfg.bufCap < packedLen s.ilen.toNat) :
    execBpEnc s = s.overflow := by
  rw [execBpEnc, if_pos h, ite_self]

theorem execBpDec_of_overflow (h : s.cfg.bufCap < s.ilen.toNat) : execBpDec s = s.overflow :=
  if_pos h

/-- An operand that does not fit is a case of this: its frame is longer. -/
theorem execFcBuild_of_overflow (h : s.cfg.bufCap < 9 + packedLen s.ilen.toNat) :
    execFcBuild s = s.overflow := by
  rw [execFcBuild, if_pos h, ite_self]

theorem execFcParse_of_overflow (h : s.cfg.bufCap < s.ilen.toNat) : execFcParse s = s.overflow :=
  if_pos h

end

theorem mem_pfeRows_iff {i : Instr} : i ∈ [Instr.bpEnc, .bpDec, .fcBuild, .fcParse] ↔
    i = .bpEnc ∨ i = .bpDec ∨ i = .fcBuild ∨ i = .fcParse := by
  simp only [List.mem_cons, List.not_mem_nil, or_false]

/-- Settles O19: an operation's overflow tests come before it reads IBUF, and ILEN fits ERRINFO. -/
theorem bufferOverflowComesFirst : Obligations.BufferOverflowComesFirst := by
  refine ⟨fun s i _ hover => ?_, unpack_length_le, fun _ _ _ => parse_ok_length⟩
  have hle := le_packedLen s.ilen.toNat
  have hexec : exec i s = s.overflow := by
    rcases hover with ⟨hlen, hi⟩ | ⟨hlen, rfl⟩ | ⟨hlen, rfl⟩
    · rcases mem_pfeRows_iff.mp hi with rfl | rfl | rfl | rfl
      · exact execBpEnc_of_overflow (hlen.trans_le hle)
      · exact execBpDec_of_overflow hlen
      · exact execFcBuild_of_overflow (by omega)
      · exact execFcParse_of_overflow hlen
    · exact execBpEnc_of_overflow hlen
    · exact execFcBuild_of_overflow hlen
  exact ⟨_, hexec, s.raise_failedWith (Nat.le_of_lt_succ s.ilen.isLt), s.raise_sameButResult _⟩

/-! The commits of each operation. -/

/-- The failures of the parse (R126, R127, R107); a wrong category byte has one place. -/
theorem parse_error_cases {w : List Byte} {f : Failure} (h : parse w = .error f) :
    f.kind = .headerMismatch ∨ f = ⟨.categoryMismatch, 6⟩ ∨ f.kind = .packedByteOutOfRange := by
  unfold parse at h
  split at h
  · cases h; exact .inl rfl
  · split at h
    · cases h; exact .inl rfl
    · split at h
      · cases h; exact .inl rfl
      · split at h
        · cases h; exact .inr (.inl rfl)
        · split at h
          · cases h; exact .inr (.inr rfl)
          · cases h

/-- The failures that the operation of this row can commit (R200). -/
def CanRaise (i : Instr) (f : Failure) : Prop :=
  f.kind = .bufferOverflow ∨ (i = .fcParse ∧ f.kind = .headerMismatch) ∨
    (i = .fcParse ∧ f = ⟨.categoryMismatch, 6⟩) ∨
    ((i = .bpDec ∨ i = .fcParse) ∧ f.kind = .packedByteOutOfRange)

/-- A row of the PFE that answers made a success commit that fits OBUF, or a failure commit of one
of its own failures, whose info fits ERRINFO. -/
theorem exec_pfeRow_next {s t : State} {i : Instr}
    (hi : i ∈ [Instr.bpEnc, .bpDec, .fcBuild, .fcParse]) (ht : exec i s = .next t) :
    (∃ bytes id, bytes.length ≤ s.cfg.bufCap ∧ (i ≠ .fcParse → id = 0) ∧
        t = s.commitOk bytes id) ∨
      ∃ f, f.info ≤ 65535 ∧ CanRaise i f ∧ t = s.raise f := by
  have hilen : s.ilen.toNat ≤ 65535 := Nat.le_of_lt_succ s.ilen.isLt
  rcases mem_pfeRows_iff.mp hi with rfl | rfl | rfl | rfl
  · rcases execBpEnc_next ht with ⟨-, ht⟩ | ⟨raw, -, hfit, ht⟩
    · exact .inr ⟨_, hilen, .inl rfl, ht⟩
    · exact .inl ⟨_, _, (pack_length raw).trans_le hfit, fun _ => rfl, ht⟩
  · rcases execBpDec_next ht with ⟨-, ht⟩ | ⟨p, ho, hfit, ⟨k, hk, ht⟩ | ⟨-, ht⟩⟩
    · exact .inr ⟨_, hilen, .inl rfl, ht⟩
    · have hinfo : k ≤ 65535 := (highByte?_lt_length hk).le.trans (State.operandIs_length_le ho)
      exact .inr ⟨_, hinfo, .inr (.inr (.inr ⟨.inl rfl, rfl⟩)), ht⟩
    · exact .inl ⟨_, _, (unpack_length_le p).trans hfit, fun _ => rfl, ht⟩
  · rcases execFcBuild_next ht with ⟨-, ht⟩ | ⟨raw, -, hfit, ht⟩
    · exact .inr ⟨_, hilen, .inl rfl, ht⟩
    · exact .inl ⟨_, _, (frame_length _ raw).trans_le hfit, fun _ => rfl, ht⟩
  · rcases execFcParse_next ht with
      ⟨-, ht⟩ | ⟨-, ht⟩ | ⟨w, ho, hfit, ⟨f, hf, ht⟩ | ⟨id, raw, hp, ht⟩⟩
    · exact .inr ⟨_, hilen, .inl rfl, ht⟩
    · exact .inr ⟨_, hilen, .inr (.inl ⟨rfl, rfl⟩), ht⟩
    · have hraise : CanRaise .fcParse f := .inr <| by
        rcases parse_error_cases hf with h | h | h
        · exact .inl ⟨rfl, h⟩
        · exact .inr (.inl ⟨rfl, h⟩)
        · exact .inr (.inr ⟨.inr rfl, h⟩)
      exact .inr ⟨f, (parse_error_info_le hf).trans (State.operandIs_length_le ho), hraise, ht⟩
    · exact .inl ⟨_, _, (parse_ok_length hp).trans hfit, fun hne => absurd rfl hne, ht⟩

/-- Settles O23: the commit that a row makes leaves what R195 and R196 say of it. -/
theorem transactionEndsInOneCommit : Obligations.TransactionEndsInOneCommit := by
  intro s t i hcap hi ht
  rcases exec_pfeRow_next hi ht with ⟨bytes, id, hfit, hid, rfl⟩ | ⟨f, hinfo, hraise, rfl⟩
  · exact ⟨s.commitOk_sameButResult bytes id,
      .inl ⟨bytes, id, hfit, s.commitOk_succeeded id (hfit.trans hcap.2), hid⟩⟩
  · refine ⟨s.raise_sameButResult f, .inr ?_⟩
    have hfail := s.raise_failedWith hinfo
    rcases hraise with hk | ⟨hi, hk⟩ | ⟨hi, rfl⟩ | ⟨hi, hk⟩
    · exact .inl ⟨_, hk ▸ hfail⟩
    · exact .inr (.inl ⟨_, hi, hk ▸ hfail⟩)
    · exact .inr (.inr (.inl ⟨hi, hfail⟩))
    · exact .inr (.inr (.inr ⟨_, hi, hk ▸ hfail⟩))

end Sys2Proof.Machine
end

section
/-! A running transaction with nothing for the host to do (R190, R229): its wait, edge by edge, and
the edge of its commit. -/

namespace Sys2Proof.Machine

/-- The result is a next state: no fault and no refusal. -/
def Answers (r : Result) : Prop := ∃ t, r = .next t

theorem Answers.ite {c : Prop} [Decidable c] {r r' : Result} (h : Answers r) (h' : Answers r') :
    Answers (if c then r else r') := by
  split_ifs
  · exact h
  · exact h'

/-- Each operation fails before it reads its operand, or commits on it. -/
theorem runSelected_answers {s : State} {bytes : List Byte} (ho : s.operand = some bytes) :
    Answers (runSelected s) := by
  have hover : Answers s.overflow := ⟨_, rfl⟩
  have hends (commit : List Byte → State) : Answers (s.withOperand commit) :=
    ⟨_, State.withOperand_some ho commit⟩
  have hBpEnc : Answers (execBpEnc s) := .ite hover (.ite hover (hends _))
  have hBpDec : Answers (execBpDec s) := .ite hover (hends _)
  have hFcBuild : Answers (execFcBuild s) := .ite hover (.ite hover (hends _))
  have hFcParse : Answers (execFcParse s) := .ite hover (.ite ⟨_, rfl⟩ (hends _))
  exact .ite hBpEnc (.ite hBpDec (.ite hFcBuild hFcParse))

theorem runSelected_sameButResult {s t : State} (h : runSelected s = .next t) :
    s.sameButResult t := by
  rcases runSelected_next h with ⟨bytes, id, rfl⟩ | ⟨f, -, rfl⟩
  · exact s.commitOk_sameButResult bytes id
  · exact s.raise_sameButResult f

theorem exists_operand_of_written {s : State}
    (h : ∀ k, k < s.ilen.toNat → ∃ b, s.ibuf.read k = some b) : ∃ bytes, s.operand = some bytes := by
  refine Option.ne_none_iff_exists'.mp fun hnone => ?_
  obtain ⟨k, hk, hread⟩ := State.operand_eq_none.mp hnone
  obtain ⟨b, hb⟩ := h k hk
  cases hread.symm.trans hb

section
variable {M : Host.Core}

theorem run_succ_of_next {s t : M.State} (n : Nat) (h : M.step s = .next t) :
    M.run (n + 1) s = M.run n t := by
  rw [Host.Core.run, h]

theorem run_one (s : M.State) : M.run 1 s = M.step s := by
  rw [Host.Core.run]
  cases M.step s with
  | next t => rfl
  | fault r => rfl
  | refused r => rfl

end

section
variable {s : State} (hb : s.busy = true) (hin : s.inbox = [])
include hb hin

theorem step_waiting (hl : 0 < s.left) :
    step s = .next { s with rdata := none, left := s.left - 1 } := by
  rw [step_of_inbox_nil hin, clockEdge_waiting rfl hb hl, State.busAccess_none s rfl]

theorem step_committing (hl : s.left = 0) : step s = runSelected { s with rdata := none } := by
  rw [step_of_inbox_nil hin, clockEdge_committing rfl hb hl, State.busAccess_none s rfl,
    runSelected_eq]

/-- While its wait lasts, a running transaction changes the read port and the wait at most. -/
theorem core_run_waiting {n : Nat} (m : Nat) (hn : n ≤ s.left) :
    ∃ r, core.run (n + m) s = core.run m { s with rdata := r, left := s.left - n } := by
  induction n generalizing s with
  | zero => exact ⟨s.rdata, congrArg (core.run · s) (Nat.zero_add m)⟩
  | succ n ih =>
    have hstep := step_waiting hb hin (Nat.zero_lt_of_lt hn)
    obtain ⟨r, hr⟩ := ih (s := { s with rdata := none, left := s.left - 1 }) hb hin
      (Nat.le_sub_one_of_lt hn)
    have hleft : s.left - 1 - n = s.left - (n + 1) := by omega
    rw [Nat.succ_add, ← hleft]
    exact ⟨r, (run_succ_of_next (n + m) hstep).trans hr⟩

/-- The edge after the wait is the transaction's. -/
theorem core_run_committing :
    core.run (s.left + 1) s = runSelected { s with rdata := none, left := 0 } := by
  obtain ⟨r, hr⟩ := core_run_waiting hb hin 1 (le_refl s.left)
  rw [Nat.sub_self] at hr
  exact hr.trans ((run_one _).trans (step_committing hb hin rfl))

end

/-- Settles O48: the operand can be read, so the edge after the wait commits. -/
theorem runningTransactionCommits : Obligations.RunningTransactionCommits := by
  intro s hb hin hwritten
  refine ⟨?_, fun n hn => ?_⟩
  · obtain ⟨bytes, ho⟩ := exists_operand_of_written hwritten
    obtain ⟨t, ht⟩ := runSelected_answers (s := { s with rdata := none, left := 0 }) ho
    obtain ⟨-, hop, hmsgid, hilen, hibuf, -⟩ := runSelected_sameButResult ht
    exact ⟨t, (core_run_committing hb hin).trans ht, runSelected_committed ht, hop, hmsgid, hilen,
      hibuf⟩
  · obtain ⟨r, hr⟩ := core_run_waiting hb hin 0 hn
    exact ⟨_, hr, hb⟩

end Sys2Proof.Machine
end


section
/-! The reset edge (R220): it wins over the access and the running transaction of its edge. -/

namespace Sys2Proof.Machine

theorem clockEdge_reset {c : BusCycle} (hr : c.rst = true) (s : State) :
    clockEdge c s = .next s.resetEdge :=
  if_pos hr

/-- Settles O47: the edge answers `s.resetEdge` whatever its access and whether or not a transaction
runs. That state's fields are the `State.resetEdge_*` simp lemmas, and `Memory.read_nil` says that its
buffers have no byte. -/
theorem resetEdgeClearsThePfe : Obligations.ResetEdgeClearsThePfe := by
  intro s c hr
  exact ⟨s.resetEdge, clockEdge_reset hr s, by simp⟩

end Sys2Proof.Machine
end
